-- ==== Sys2Proof/Word.lean ====
section
/-!
DEFINITION. The data types of the soundify CORE: bytes and registers (spec/00_scope.md R8), and the real numbers
that samples and the register `MAG` hold (R8, decision D10).
-/

namespace Sys2Proof

/-- `Byte` of R8: 0..255. -/
abbrev Byte := BitVec 8

/-- `u32` of R8, and the contents of every register but `MAG` (R11). -/
abbrev Word := BitVec 32

/-- An exact real number of the field that holds all cosines of the modem, as data: the list of pairs `(k, q)` stands for
the real `Σ q · cos (π·k/882)`.

Every frequency a command can name is a multiple of 50 Hz (R60), so every angle of R121 and R135 is a multiple of
`2π/882`, and these sums hold every real number the block makes by itself, with no rounding, and every rational number.
In the form kept in buffers the `k` rise strictly, lie below 441, and no `q` is 0. Log entry 1. -/
abbrev Trig := List (Nat × Rat)

/-- A product of named reals: the sorted list of their numbers; `[]` is the empty product 1. -/
abbrev Product := List Nat

/-- `Sample` of R8: a real number, any real number. The list of pairs `(m, c)` stands for the real `Σ m · c`, where `c` is
an exact number of `Trig` and `m` a product of NAMED REALS: real number number `n`, of which nothing is known but that it
is one real number. A real that is no `Trig`, such as `√2/2`, stands in a buffer under a name of its own. Sums and products
of samples are such sums again, so the recurrence of R135 is computed on them with no rounding. DESIGN CHOICE, log
entries 1 and 20. -/
abbrev Sample := List (Product × Trig)

/-- A magnitude (R135): the non-negative real whose square is `square`. R135 ends in a square root, which leaves the
sums of `Sample`; only its square is stored. DEDUCED, log entry 2. -/
structure Magnitude where
  square : Sample
  deriving DecidableEq, Repr, Inhabited

end Sys2Proof
end

