-- ==== Sys2Proof/Syntax.lean ====
section
/-!
DEFINITION. The commands (spec/30_encoding.md R52), one constructor per row of spec/opcode_table.json, and what a host
can do to the block (R11, R13, R16, R62, R190).
-/

namespace Sys2Proof

/-- The 19 commands of R52. A command word carries no operand (R50): operands are in `ARG0..ARG2` and the buffers
(R54). -/
inductive Instr where
  | gfmul | gfdiv | gfpmul
  | rsenc1 | rsdec1 | rsenc | rsdec
  | crc32
  | frame | parse
  | tone | preamb | mod
  | goertz | syncfind | detect | demod
  | encode | decode
  deriving DecidableEq, Repr

/-- The byte buffers of R16. -/
inductive ByteSpace where
  | bin | bout | namebuf
  deriving DecidableEq, Repr

/-- The sample buffers of R16. -/
inductive SampleSpace where
  | sin | sout
  deriving DecidableEq, Repr

/-- One action of the host, in the vocabulary of the host scripts of R62. -/
inductive HostEvent where
  /-- Write a 32-bit register at its offset (R11); at offset 0 this launches (R13). -/
  | writeReg (off : Nat) (v : Word)
  /-- Read the register at an offset (R11, R31). -/
  | readReg (off : Nat)
  /-- `HOST <space>[off] <- bytes` (R62). -/
  | writeBytes (sp : ByteSpace) (off : Nat) (bs : List Byte)
  /-- Write samples (R16, R62). -/
  | writeSamples (sp : SampleSpace) (off : Nat) (xs : List Sample)
  /-- Read one element of a byte buffer. -/
  | readByte (sp : ByteSpace) (off : Nat)
  /-- Read one element of a sample buffer. -/
  | readSample (sp : SampleSpace) (off : Nat)
  /-- `HOST dst[off] <- src[a, b)` between byte buffers (R62). -/
  | copyBytes (dst : ByteSpace) (off : Nat) (src : ByteSpace) (a b : Nat)
  /-- `HOST dst[off] <- src[a, b)` between sample buffers (R62). -/
  | copySamples (dst : SampleSpace) (off : Nat) (src : SampleSpace) (a b : Nat)
  /-- Wait for `STATUS.DONE = 1` (R62): the block moves. -/
  | wait
  /-- Assert the reset input (R190). -/
  | resetInput
  deriving DecidableEq, Repr

end Sys2Proof
end

