-- ==== Sys2Proof/Machine/RealMeaning.lean ====
section
/-!
DEFINITION. Which real number a sum of spec/00_scope.md R8 stands for, once it is said which real each name stands for,
and what an order of such sums is.
-/

namespace Sys2Proof.Machine

/-- The real number a `Trig` stands for. -/
noncomputable def trigValue (x : Trig) : ℝ := (x.map fun t => (t.2 : ℝ) * Real.cos (Real.pi * t.1 / 882)).sum

/-- The real number a product of named reals stands for, when name `n` stands for `v n`. -/
noncomputable def productValue (v : Nat → ℝ) (m : Product) : ℝ := (m.map v).prod

/-- The real number a `Sample` stands for, when name `n` stands for `v n`. -/
noncomputable def sampleValue (v : Nat → ℝ) (x : Sample) : ℝ :=
  (x.map fun t => productValue v t.1 * trigValue t.2).sum

/-- An order of sums that is the order of the real numbers they stand for, for SOME reals behind the names. -/
structure RealOrder where
  /-- The sum is greater than 0. -/
  positive : Sample → Bool
  /-- It is so for the real numbers, whichever the names stand for. -/
  consistent : ∃ v : Nat → ℝ, ∀ x, positive x = true ↔ 0 < sampleValue v x

end Sys2Proof.Machine
end

