-- ==== Sys2Proof/Config.lean ====
section
/-!
DEFINITION. What the source leaves to the implementation (spec/00_scope.md R7) and the free values (spec/93 U7). The
opaque constants have no body: nothing can be proved of their values beyond their type.
-/

namespace Sys2Proof

/-- The parameter `NUMERICS` of R7: "the realisation of real arithmetic (sin, cos, sqrt, ·, +, comparison)". The rules are
stated over exact reals; every other realisation has a number, and nothing is known of what it computes (`Config.coded`).
Log entry 1. -/
inductive Numerics where
  /-- Exact reals, as the rules are stated (D10). -/
  | exact
  /-- Realisation number `n`, for instance one in floating point. -/
  | other (n : Nat)
  deriving DecidableEq, Repr, Inhabited

/-- The arithmetic of a realisation other than the exact one (R7, U5). A number it computes is known by its code only;
it is the named real of that code (`Sample`). -/
structure CodedArithmetic where
  /-- The code of a rational constant. -/
  const : Rat → Nat
  /-- The code of `sin (2·π·f·i/44100)`. -/
  sin : Nat → Nat → Nat
  /-- The code of `cos (2·π·f·i/44100)`. -/
  cos : Nat → Nat → Nat
  /-- The code of a sum. -/
  add : Sample → Sample → Nat
  /-- The code of a difference. -/
  sub : Sample → Sample → Nat
  /-- The code of a product. -/
  mul : Sample → Sample → Nat
  /-- The code of the square of a square root: a magnitude is held as its square (`Magnitude`). -/
  sqrt : Sample → Nat
  /-- The comparison of R137: a magnitude exceeds a threshold. -/
  above : Magnitude → Rat → Bool
  /-- The comparison of R139: the first magnitude is greater than the second. -/
  greater : Magnitude → Magnitude → Bool
  /-- R141: the comparisons of the 256 magnitudes of a window are all false "in some other way than equality". -/
  noTone : List Magnitude → Bool
  deriving Inhabited

/-- The named parameters of R7 that are open or tunable. They are fixed for one machine: no step changes them. -/
structure Params where
  /-- `BIN_CAP`, bytes. -/
  binCap : Nat
  /-- `BOUT_CAP`, bytes. -/
  boutCap : Nat
  /-- `SIN_CAP`, samples. -/
  sinCap : Nat
  /-- `SOUT_CAP`, samples. -/
  soutCap : Nat
  /-- `SYNC_THRESHOLD` (R137). -/
  syncThreshold : Rat
  /-- `NUMERICS`. -/
  numerics : Numerics
  deriving DecidableEq, Repr

namespace Config

/-- By how much `BIN_CAP` is above 255; the type says `BIN_CAP ≤ 2^32 - 1` (R7). Log entry 3. -/
opaque binCapAbove : Fin 4294967041

/-- By how much `BOUT_CAP` is above 255 (R7). Log entry 3. -/
opaque boutCapAbove : Fin 4294967041

/-- By how much `SIN_CAP` is above 6615; the type says `SIN_CAP ≤ 2^32 - 1` (R7). Log entry 3. -/
opaque sinCapAbove : Fin 4294960681

/-- By how much `SOUT_CAP` is above 6615 (R7). Log entry 3. -/
opaque soutCapAbove : Fin 4294960681

/-- `NUMERICS` of the machine at hand: open (R7). Log entry 1. -/
opaque numerics : Numerics

/-- What each realisation of arithmetic other than the exact one computes: open (R7, U5). Log entry 1. -/
opaque coded : Nat → CodedArithmetic

/-- Free value: which real numbers the names of `Sample` stand for, as far as an order of sums shows it; `none` says that
they all stand for 0. Log entry 20. -/
opaque realOrder : Option Machine.RealOrder

/-- The parameters of the machine at hand: capacities open inside R7's ranges, the threshold at its normative 10
(R137, D25), the arithmetic open. -/
def params : Params where
  binCap := binCapAbove.val + 255
  boutCap := boutCapAbove.val + 255
  sinCap := sinCapAbove.val + 6615
  soutCap := soutCapAbove.val + 6615
  syncThreshold := 10
  numerics := numerics

/-- Free value: the `n`-th word a host reads from a result register while the block is busy (R37, U7). Log entry 8. -/
opaque busyWord : Nat → Word

/-- Free value: the `n`-th byte a host reads from an output buffer while the block is busy (R37, U7). Log entry 8. -/
opaque busyByte : Nat → Byte

/-- Free value: the `n`-th sample a host reads from `SOUT` while the block is busy (R37, U7). Log entry 8. -/
opaque busySample : Nat → Sample

/-- Free value: the `n`-th value a host reads from `MAG` while the block is busy (R37, U7). Log entry 8. -/
opaque busyMagnitude : Nat → Magnitude

end Config

end Sys2Proof
end

