-- ==== Sys2Proof/WellFormed.lean ====
section
/-!
DEFINITION. Well-formedness of what reaches the block from outside: command words (spec/30_encoding.md R50 to R53),
parameters (spec/00_scope.md R7) and real numbers in their buffer form. A command carries no operand, so every `Instr`
is well formed by itself; a WORD is not.
-/

namespace Sys2Proof

/-- Bits 31:8 of a command word are the field `ZERO` (R50). -/
def zeroFieldOk (w : Word) : Bool := w >>> 8 == 0#32

/-- The opcodes of R52, in the order of the table. -/
def listedOpcodes : List Byte :=
  [0x10, 0x11, 0x12, 0x20, 0x21, 0x22, 0x23, 0x30, 0x40, 0x41, 0x50, 0x51, 0x52, 0x60, 0x61, 0x62, 0x63, 0x70, 0x71]

/-- The field `OP` (bits 7:0) is listed in R52. -/
def opcodeOk (w : Word) : Bool := listedOpcodes.contains (w.setWidth 8)

/-- A legal command word (R51): the zero field is 0 and the opcode is listed. -/
def commandWordOk (w : Word) : Bool := zeroFieldOk w && opcodeOk w

/-- The ranges of R7 for the capacities. -/
def Params.ok (p : Params) : Bool :=
  decide (255 ≤ p.binCap ∧ p.binCap < 2 ^ 32 ∧ 255 ≤ p.boutCap ∧ p.boutCap < 2 ^ 32) &&
  decide (6615 ≤ p.sinCap ∧ p.sinCap < 2 ^ 32 ∧ 6615 ≤ p.soutCap ∧ p.soutCap < 2 ^ 32)

/-- The keys of a list of pairs rise strictly from a lower bound on. -/
def keysRiseFrom {α : Type} : Nat → List (Nat × α) → Bool
  | _, [] => true
  | lo, (k, _) :: rest => decide (lo ≤ k) && keysRiseFrom (k + 1) rest

/-- The numbers of a list rise, not strictly: a product of named reals in its one form. -/
def Product.ok : Product → Bool
  | [] => true
  | n :: rest => (rest.all fun k => decide (n ≤ k)) && Product.ok rest

/-- No product of named reals occurs twice. -/
def partsDistinct : Sample → Bool
  | [] => true
  | t :: rest => (rest.all fun u => decide (u.1 ≠ t.1)) && partsDistinct rest

/-- The buffer form of a number of `Trig`: keys rise, lie below 441, and no coefficient is 0. -/
def Trig.ok (x : Trig) : Bool := keysRiseFrom 0 x && x.all fun t => decide (t.1 < 441) && decide (t.2 ≠ 0)

/-- The buffer form of a real (see `Sample`): the products differ and are in their one form, and each has a coefficient in
buffer form that is not empty. -/
def Sample.ok (x : Sample) : Bool :=
  partsDistinct x && x.all fun t => Product.ok t.1 && Trig.ok t.2 && decide (t.2 ≠ [])

end Sys2Proof
end

