-- ==== Sys2Proof/Decode.lean ====
section
/-!
DEFINITION. Decoding and encoding of command words (spec/30_encoding.md R50 to R53). Decoding is total: a word matches
exactly one row of R52 or is illegal, with the reason by name.
-/

namespace Sys2Proof

/-- Why a word is illegal (R53). -/
inductive DecodeError where
  /-- A bit of 31:8 is set (R50). -/
  | zeroFieldSet
  /-- The opcode in bits 7:0 is not listed in R52. -/
  | unlistedOpcode
  deriving DecidableEq, Repr

/-- The rows of R52: opcode and command. -/
def opcodeTable : List (Byte × Instr) :=
  [(0x10, .gfmul), (0x11, .gfdiv), (0x12, .gfpmul),
   (0x20, .rsenc1), (0x21, .rsdec1), (0x22, .rsenc), (0x23, .rsdec),
   (0x30, .crc32),
   (0x40, .frame), (0x41, .parse),
   (0x50, .tone), (0x51, .preamb), (0x52, .mod),
   (0x60, .goertz), (0x61, .syncfind), (0x62, .detect), (0x63, .demod),
   (0x70, .encode), (0x71, .decode)]

/-- The command of an opcode (R52). -/
def commandOf (op : Byte) : Option Instr := opcodeTable.lookup op

/-- R50, R51, R53: the one format `C`. -/
def decode (w : Word) : Except DecodeError Instr :=
  if zeroFieldOk w then
    match commandOf (w.setWidth 8) with
    | some i => .ok i
    | none => .error .unlistedOpcode
  else .error .zeroFieldSet

/-- The opcode of a command (R52). -/
def opcodeOf : Instr → Byte
  | .gfmul => 0x10 | .gfdiv => 0x11 | .gfpmul => 0x12
  | .rsenc1 => 0x20 | .rsdec1 => 0x21 | .rsenc => 0x22 | .rsdec => 0x23
  | .crc32 => 0x30
  | .frame => 0x40 | .parse => 0x41
  | .tone => 0x50 | .preamb => 0x51 | .mod => 0x52
  | .goertz => 0x60 | .syncfind => 0x61 | .detect => 0x62 | .demod => 0x63
  | .encode => 0x70 | .decode => 0x71

/-- The command word of a command (R50). -/
def encode (i : Instr) : Word := (opcodeOf i).setWidth 32

/-- The command the decoder reads from an instruction of `nbits` bits numbered as spec/opcode_table.json numbers them.
A command is one 32-bit word (R50); `CMD` takes the whole word (R32), so there is no byte order to undo. -/
def decodeTableWord (nbits w : Nat) : Option Instr :=
  match decode (BitVec.ofNat 32 (w % 2 ^ nbits)) with
  | .ok i => some i
  | .error _ => none

end Sys2Proof
end

