-- ==== Sys2Proof/Machine/Constants.lean ====
section
/-!
DEFINITION. The constants both ends of the channel agree on (spec/00_scope.md R6), and the two lengths R7 fixes.
-/

namespace Sys2Proof.Machine

/-- `SAMPLE_RATE`, samples per second (R6). -/
def sampleRate : Nat := 44100

/-- `N`, samples per symbol (R6, R120). -/
def symbolLen : Nat := 1323

/-- `BASE_FREQ`, Hz (R6). -/
def baseFreq : Nat := 2000

/-- `FREQ_SPACING`, Hz (R6). -/
def freqSpacing : Nat := 50

/-- `SYNC_FREQ`, Hz (R6). -/
def syncFreq : Nat := 1000

/-- `AMP` (R6). -/
def amplitude : Rat := 7 / 10

/-- `PRE_LEN`, sync symbols per preamble (R6). -/
def preambleSymbols : Nat := 5

/-- The samples of a preamble, `5 · N` (R123). -/
def preambleLen : Nat := 6615

/-- The samples of the length field, `4 · N` (R140). -/
def lengthFieldLen : Nat := 5292

/-- `SYNC_MIN`, windows of five that must exceed the threshold (R6). -/
def syncMin : Nat := 4

/-- `R_RAMP`, samples (R7, R120). -/
def rampLen : Nat := 132

/-- `STRIDE`, samples (R7, R137). -/
def stride : Nat := 661

/-- `RS_N`, bytes of a codeword (R6). -/
def rsN : Nat := 255

/-- `RS_K`, message bytes of a codeword (R6). -/
def rsK : Nat := 223

/-- `NSYM`, parity bytes of a codeword (R6). -/
def nsym : Nat := 32

/-- `RS_TOL`, the largest accepted mismatch count (R6). -/
def rsTol : Nat := 16

/-- `CRC_POLY` (R6). -/
def crcPoly : Word := 0xEDB88320

/-- `CRC_INIT` (R6). -/
def crcInit : Word := 0xFFFFFFFF

/-- `CRC_XOROUT` (R6). -/
def crcXorOut : Word := 0xFFFFFFFF

/-- `MAGIC`, the bytes of "AEDC" (R6, R105). -/
def magic : List Byte := [0x41, 0x45, 0x44, 0x43]

/-- `PKT_MIN`, bytes (R6). -/
def packetMin : Nat := 14

/-- `NAME_CAP`, bytes (R7). -/
def nameCap : Nat := 255

end Sys2Proof.Machine
end

