-- ==== Sys2Proof/Machine/State.lean ====
section
/-!
DEFINITION. The state of the block (spec/10_state.md R10, R11, R16), its value after reset (spec/70 R190), the error
codes (spec/60_exceptions.md R166), and the reasons a step of the model can stop.
-/

namespace Sys2Proof.Machine

/-- The error codes of R166 but `OK`. An error is not a stop: it is a completion (R171). -/
inductive ErrCode where
  | illegal | arg | cap | div0 | name | len | noPreamble | noLen | short | magic | size
  deriving DecidableEq, Repr

/-- The five buffer spaces (R16), to name one in a fault. -/
inductive Space where
  | bin | bout | namebuf | sin | sout
  deriving DecidableEq, Repr

/-- Why a step of the model stops with a fault. -/
inductive Fault where
  /-- Raised by a command, or by a host read or copy, that reads a buffer element nobody has written: "reading it is a
  fault of the model" (R190). Safe: the hardware would go on with an unspecified value. -/
  | unwrittenElement (sp : Space)
  /-- Raised by a host action on an offset at or above the capacity of a space (R30): no such element exists. Safe. -/
  | noSuchElement (sp : Space)
  /-- Raised by a host action on an offset that is in no row and no reserved range of R11. Safe. -/
  | noSuchRegister (off : Nat)
  deriving DecidableEq, Repr

/-- Why a step of the model has no meaning. -/
inductive Refusal where
  /-- Raised by an arm of `exec` whose command has no meaning yet (no arm does). Safe. -/
  | notModelled (mnemonic : String)
  /-- Raised by a host write to `ARG0..3`, `BIN`, `SIN` or `NAMEBUF` while `STATUS.BUSY = 1`: "the model has no
  transition" (U7, R37, R197). Safe. -/
  | hostWriteWhileBusy
  /-- Raised by a host write to `SOUT`, to which R16 gives the host only reads and for which it states no effect.
  Safe. -/
  | hostWriteToSout
  deriving DecidableEq, Repr

/-- What a host read returned (the model's own field, log entry 12). -/
inductive HostData where
  | nothing
  | word (w : Word)
  | real (m : Magnitude)
  | byte (b : Byte)
  | sample (x : Sample)
  deriving DecidableEq, Repr

/-- The complete state of R10 (a) and (b), and the model's own fields. The tables of R10 (c) are constants (R20). -/
structure State where
  /-- `CMD`, offset 0x00 (R11, R13). -/
  cmd : Word
  /-- `STATUS`, offset 0x04 (R14). -/
  status : Word
  /-- `WARN`, offset 0x08 (R15). -/
  warn : Word
  /-- `ARG0`, offset 0x10. -/
  arg0 : Word
  /-- `ARG1`, offset 0x14. -/
  arg1 : Word
  /-- `ARG2`, offset 0x18. -/
  arg2 : Word
  /-- `ARG3`, offset 0x1C; no command uses it. -/
  arg3 : Word
  /-- `RES0`, offset 0x20. -/
  res0 : Word
  /-- `RES1`, offset 0x24. -/
  res1 : Word
  /-- `RES2`, offset 0x28. -/
  res2 : Word
  /-- `RES3`, offset 0x2C. -/
  res3 : Word
  /-- `MAG`, offset 0x30, one real. -/
  mag : Magnitude
  /-- `BIN` (R16): the elements that hold a value, by offset. -/
  bin : List Host.Cell
  /-- `BOUT`. -/
  bout : List Host.Cell
  /-- `NAMEBUF`. -/
  namebuf : List Host.Cell
  /-- `SIN`. -/
  sin : List (Nat × Sample)
  /-- `SOUT`. -/
  sout : List (Nat × Sample)
  /-- The implementation's parameters (R7): fixed, the model's way to hold them (log entry 3). -/
  params : Params
  /-- The model's own: the host's actions still to come, first one first (log entry 5). -/
  inbox : List HostEvent
  /-- The model's own: what the last host read returned (log entry 12). -/
  hostData : HostData
  /-- The model's own: the number of the next free value (log entry 8). -/
  free : Nat
  deriving DecidableEq, Repr

/-- The state at the end of reset (R190): every register 0, `MAG` real 0, no element of any buffer holding a value.
`params` is open (R7); `inbox`, `hostData` and `free` are the model's own (log entries 5, 8, 12: DESIGN CHOICE). -/
def State.reset : State where
  cmd := 0
  status := 0
  warn := 0
  arg0 := 0
  arg1 := 0
  arg2 := 0
  arg3 := 0
  res0 := 0
  res1 := 0
  res2 := 0
  res3 := 0
  mag := { square := [] }
  bin := []
  bout := []
  namebuf := []
  sin := []
  sout := []
  params := Config.params
  inbox := []
  hostData := .nothing
  free := 0

end Sys2Proof.Machine
end

