-- ==== Sys2Proof/Machine/Flags.lean ====
section
/-!
DEFINITION. The fields of `STATUS` (spec/10_state.md R14) and `WARN` (R15), and the error codes of
spec/60_exceptions.md R166.
-/

namespace Sys2Proof.Machine

/-- The codes of R166. -/
def ErrCode.code : ErrCode → Byte
  | .illegal => 0x01
  | .arg => 0x02
  | .cap => 0x03
  | .div0 => 0x04
  | .name => 0x05
  | .len => 0x06
  | .noPreamble => 0x07
  | .noLen => 0x08
  | .short => 0x09
  | .magic => 0x0A
  | .size => 0x0B

/-- `STATUS` at launch: BUSY = 1, DONE = 0, ERR = 0 (R14). -/
def statusLaunched : Word := 0x00000001

/-- `STATUS` at completion: `0x00000002 | (code << 8)` (R14); code 0 is `OK`. -/
def statusCompleted (code : Byte) : Word := 0x00000002 ||| (code.setWidth 32 <<< 8)

/-- `STATUS.BUSY`, bit 0 (R14). -/
def State.busy (s : State) : Bool := s.status.getLsbD 0

/-- `STATUS.DONE`, bit 1 (R14). -/
def State.done (s : State) : Bool := s.status.getLsbD 1

/-- `STATUS.ERR`, bits 15:8 (R14). -/
def State.err (s : State) : Byte := s.status.extractLsb' 8 8

/-- `W_TRUNC`, bit 0 of `WARN` (R15). -/
def warnTrunc : Word := 0x1

/-- `W_TONE`, bit 1 of `WARN` (R15). Under exact reals it is unreachable (R141, U10; log entry 13). -/
def warnTone : Word := 0x2

/-- `W_CRC`, bit 2 of `WARN` (R15). -/
def warnCrc : Word := 0x4

/-- The bit `b` if the warning was raised, no bit otherwise (R15: "A command sets bits as its rule says"). -/
def warnIf (raised : Bool) (b : Word) : Word := if raised then b else 0

end Sys2Proof.Machine
end

