-- ==== Sys2Proof/Machine/Operands.lean ====
section
/-!
DEFINITION. Operand forms: byte operands, tone selectors, windows and name lengths (spec/30_encoding.md R54, R55, R60),
and the little-endian integers of R32, R61 and spec/00_scope.md R8.
-/

namespace Sys2Proof.Machine

/-- A byte operand in a register; none when it is outside 0..255 (R71, R72: `E_ARG`). -/
def byteOperand (w : Word) : Option Byte := if w.toNat ≤ 255 then some (w.setWidth 8) else none

/-- A tone selector in a register; none when it is above 256 (R60: `E_ARG`). -/
def toneOperand (w : Word) : Option Nat := if w.toNat ≤ 256 then some w.toNat else none

/-- `freq(t)` in Hz (R60): data tones 0..255, and 256 the sync tone. -/
def freq (t : Nat) : Nat := if t = 256 then syncFreq else baseFreq + t * freqSpacing

/-- The window of `N` samples at `s` lies inside `len` samples (R135, R139); naturals do not wrap (R56). -/
def windowFits (s len : Word) : Bool := decide (s.toNat + symbolLen ≤ len.toNat)

/-- The bytes of the name that are used: a request above 255 is truncated (R106). -/
def nameLen (w : Word) : Nat := min w.toNat nameCap

/-- `le32`: four bytes, the least significant first (R8, R32). -/
def le32 (v : Word) : List Byte :=
  [v.setWidth 8, (v >>> 8).setWidth 8, (v >>> 16).setWidth 8, (v >>> 24).setWidth 8]

/-- `le32` of a length, position or count below 2^32 (R56). -/
def le32Nat (n : Nat) : List Byte := le32 (BitVec.ofNat 32 n)

/-- `unle32`: `b[0] + 256·b[1] + 65536·b[2] + 16777216·b[3]` (R8). -/
def unle32 (b : List Byte) : Nat :=
  (b.getD 0 0).toNat + 256 * (b.getD 1 0).toNat + 65536 * (b.getD 2 0).toNat + 16777216 * (b.getD 3 0).toNat

/-- The subsequence of `len` elements from `off` on: `a[off..off+len)` (R8). -/
def slice {α : Type} (a : List α) (off len : Nat) : List α := (a.drop off).take len

/-- A length, count or position in a result register (R56). -/
def lenWord (n : Nat) : Word := BitVec.ofNat 32 n

/-- A byte in a result register: `zext_32` (R8). -/
def byteWord (b : Byte) : Word := b.setWidth 32

/-- `ceil_div` (R8). -/
def ceilDiv (a b : Nat) : Nat := (a + b - 1) / b

end Sys2Proof.Machine
end

