-- ==== Sys2Proof/Machine/Ops.lean ====
section
/-!
DEFINITION. The named operations over buffers and registers: `MemRead` and `MemWrite` (spec/20_memory.md R30), launch
(spec/10_state.md R13, R14), completion with `OK`, and the one operation that raises an error (spec/60_exceptions.md
R171; its return is the next launch, R172). Commit is all-or-nothing (R36): each operation below that commits gets the
complete result and makes one new state.
-/

namespace Sys2Proof.Machine

/-- What a command answers. -/
abbrev Answer := Host.Outcome State Fault Refusal

/-! ## Buffers: lists of (offset, element), offsets rising; an unlisted element holds no value (R190). -/

/-- The element at one offset; none when nobody has written it. -/
def readElem {α : Type} (m : List (Nat × α)) (off : Nat) : Option α := m.lookup off

/-- `MemRead(SPACE, off, n)` (R30): the `n` elements from `off` on; none when one of them holds no value. -/
def readRun {α : Type} : List (Nat × α) → Nat → Nat → Option (List α)
  | _, _, 0 => some []
  | [], _, _ + 1 => none
  | (a, v) :: m, off, n + 1 =>
    if a < off then readRun m off (n + 1)
    else if a = off then (readRun m (off + 1) n).map (v :: ·)
    else none

/-- Elements with their offsets, the first at `off`. -/
def cellsFrom {α : Type} : Nat → List α → List (Nat × α)
  | _, [] => []
  | off, x :: xs => (off, x) :: cellsFrom (off + 1) xs

/-- `MemWrite(SPACE, off, seq)` (R30): `seq[i]` at `off + i`; all other elements as they were (R36). -/
def writeRun {α : Type} (m : List (Nat × α)) (off : Nat) : List α → List (Nat × α)
  | [] => m
  | x :: xs =>
    m.filter (fun c => c.1 < off) ++ cellsFrom off (x :: xs) ++ m.filter (fun c => off + (x :: xs).length ≤ c.1)

/-- The canonical form of a buffer of `cap` elements: offsets rise strictly and lie below the capacity. An unlisted
element holds no value, so no entry can equal what an unlisted one reads as. -/
def bufferOk {α : Type} (cap : Nat) (m : List (Nat × α)) : Bool :=
  keysRiseFrom 0 m && m.all fun c => decide (c.1 < cap)

/-- The canonical form of all five buffers of a state (R16). -/
def Memory.wf (s : State) : Bool :=
  bufferOk s.params.binCap s.bin && bufferOk s.params.boutCap s.bout && bufferOk nameCap s.namebuf &&
  bufferOk s.params.sinCap s.sin && bufferOk s.params.soutCap s.sout

/-! ## Launch and completion -/

/-- Completion with `OK` (R14): the state holds the results already; `STATUS` is written last. -/
def complete (s : State) : State := { s with status := statusCompleted 0 }

/-- Error completion (R171): `STATUS <- 0x00000002 | (E << 8)`; `WARN` keeps the bits already set; nothing else
changes. -/
def raiseErr (e : ErrCode) (s : State) : State := { s with status := statusCompleted e.code }

/-- R13, R14, R15: the launch of the word `w`. This is also how the block returns from an error: the launch clears `ERR`,
`DONE` and `WARN`, and nothing else needs acknowledging (R172). -/
def beginCommand (w : Word) (s : State) : State := { s with cmd := w, status := statusLaunched, warn := 0 }

/-- The write of `w` to `CMD` while idle (R13): the word of a command is launched; an illegal word "launches a command that
completes at once" with `E_ILLEGAL` (R53, R170 (1); R166: raised by launch). -/
def launch (w : Word) (s : State) : State :=
  match decode w with
  | .ok _ => beginCommand w s
  | .error _ => raiseErr .illegal (beginCommand w s)

/-- A command that raises `e` (R36, R171). -/
def fail (e : ErrCode) (s : State) : Answer := .next (raiseErr e s)

/-- A command that ends `OK` with its results in `s` (R36, R165). -/
def succeed (s : State) : Answer := .next (complete s)

/-- Set the warning bits `bits` (R15, R168). -/
def warn (bits : Word) (s : State) : State := { s with warn := s.warn ||| bits }

/-! ## Inputs, with their capacity checks (R55, R170 (3)) and the fault of R190 -/

/-- `MemRead(BIN, 0, n)`: `E_CAP` when `n > BIN_CAP`. -/
def withBin (n : Nat) (s : State) (k : List Byte → Answer) : Answer :=
  if s.params.binCap < n then fail .cap s
  else
    match readRun s.bin 0 n with
    | none => .fault (.unwrittenElement .bin)
    | some bs => k bs

/-- `MemRead(NAMEBUF, 0, n)`, with `n ≤ 255` already (R106). -/
def withName (n : Nat) (s : State) (k : List Byte → Answer) : Answer :=
  match readRun s.namebuf 0 n with
  | none => .fault (.unwrittenElement .namebuf)
  | some bs => k bs

/-- `MemRead(SIN, 0, n)`: `E_CAP` when `n > SIN_CAP`. -/
def withSin (n : Nat) (s : State) (k : List Sample → Answer) : Answer :=
  if s.params.sinCap < n then fail .cap s
  else
    match readRun s.sin 0 n with
    | none => .fault (.unwrittenElement .sin)
    | some xs => k xs

/-! ## Outputs, with their capacity checks (R55, R170 (5)) -/

/-- Commit bytes to `BOUT` from offset 0, then complete; `E_CAP` when they do not fit. `s` is the state on an error,
`t` the state that holds the other results. -/
def commitBytes (out : List Byte) (s t : State) : Answer :=
  if s.params.boutCap < out.length then fail .cap s else succeed { t with bout := writeRun t.bout 0 out }

/-- Commit samples to `SOUT` from offset 0, then complete; `E_CAP` when they do not fit. -/
def commitSamples (out : List Sample) (s t : State) : Answer :=
  if s.params.soutCap < out.length then fail .cap s else succeed { t with sout := writeRun t.sout 0 out }

end Sys2Proof.Machine
end

