-- ==== Sys2Proof/Machine/Crc.lean ====
section
/-!
DEFINITION. The CRC32 generator (spec/42_crc32.md R100 to R103) and the command `CRC32`.
-/

namespace Sys2Proof.Machine

/-- One conditional right shift (R100): the bit tested is the one shifted out. -/
def crcShift (c : Word) : Word := if c &&& 1 ≠ 0 then (c >>> 1) ^^^ crcPoly else c >>> 1

/-- `n` conditional shifts. -/
def crcShifts : Nat → Word → Word
  | 0, c => c
  | n + 1, c => crcShifts n (crcShift c)

/-- One byte (R100): into bits 7:0, then eight shifts. -/
def crcByte (c : Word) (b : Byte) : Word := crcShifts 8 (c ^^^ b.setWidth 32)

/-- `crc32` (R100), the bit-serial reference form. -/
def crc32 (data : List Byte) : Word := data.foldl crcByte crcInit ^^^ crcXorOut

/-- `CRC32` (R100): `RES0 <- crc32(data)`. -/
def execCrc32 (s : State) : Answer :=
  withBin s.arg0.toNat s fun data => succeed { s with res0 := crc32 data }

end Sys2Proof.Machine
end

