-- ==== Sys2Proof/Machine/RealNum.lean ====
section
/-!
DEFINITION. Exact arithmetic on the reals of `Trig` (spec/00_scope.md R8: `+`, `·`, comparison, `sin`, `cos` on exact
reals). Nothing is rounded: `sign` computes with rational approximations only until the sign of the exact number is
certain. Log entries 1 and 17.
-/

namespace Sys2Proof.Machine.RealNum

/-- `q · cos (π·n/882)`, folded to an angle in `[0, π/2)`: `cos` has period 1764 in `n`, `cos (2π - x) = cos x`,
`cos (π - x) = -cos x` and `cos (π/2) = 0`. -/
def cosTerm (q : Rat) (n : Nat) : Trig :=
  if q = 0 then []
  else
    let r := n % 1764
    let m := if 882 < r then 1764 - r else r
    if m < 441 then [(m, q)] else if m = 441 then [] else [(882 - m, -q)]

/-- `q · sin (π·n/882)`, since `sin x = cos (x + 3π/2)` and `3π/2` is the angle number 1323. -/
def sinTerm (q : Rat) (n : Nat) : Trig := cosTerm q (n + 1323)

/-- The rational number `q`. -/
def ofRat (q : Rat) : Trig := cosTerm q 0

/-- Merge the term `(k, p)`, followed by a list that `rest` merges, into a list. -/
def addTerm (k : Nat) (p : Rat) (tail : Trig) (rest : Trig → Trig) : Trig → Trig
  | [] => (k, p) :: tail
  | (j, q) :: ys =>
    if k < j then (k, p) :: rest ((j, q) :: ys)
    else if j < k then (j, q) :: addTerm k p tail rest ys
    else if p + q = 0 then rest ys
    else (k, p + q) :: rest ys

/-- Sum: terms of one angle are added, and dropped when they cancel. -/
def add : Trig → Trig → Trig
  | [] => fun ys => ys
  | (k, p) :: xs => addTerm k p xs (add xs)

/-- Negation. -/
def neg (x : Trig) : Trig := x.map fun t => (t.1, -t.2)

/-- Difference. -/
def sub (x y : Trig) : Trig := add x (neg y)

/-- Product with a rational. -/
def scale (r : Rat) (x : Trig) : Trig := if r = 0 then [] else x.map fun t => (t.1, r * t.2)

/-- Add neighbours of a list of numbers. -/
def addPairs : List Trig → List Trig
  | x :: y :: rest => add x y :: addPairs rest
  | short => short

/-- Sum of a list of numbers; `n` rounds of pairing first, which changes only how many additions it takes. -/
def sumRounds : Nat → List Trig → Trig
  | 0, xs => xs.foldr add []
  | n + 1, xs => sumRounds n (addPairs xs)

/-- Sum of a list of numbers. -/
def sum (xs : List Trig) : Trig := sumRounds 10 xs

/-- Product with `p · cos (π·j/882)`, by `2·cos a·cos b = cos (a + b) + cos (a - b)`; `1763 ≡ -1` modulo 1764. -/
def mulTerm (j : Nat) (p : Rat) (y : Trig) : Trig :=
  sum (y.flatMap fun t => [cosTerm (p * t.2 / 2) (t.1 + j), cosTerm (p * t.2 / 2) (t.1 + 1763 * j)])

/-- Product. -/
def mul (x y : Trig) : Trig := sum (x.map fun t => mulTerm t.1 t.2 y)

/-- Any list of terms, in the form kept in buffers (`Trig.ok`). -/
def normalise (x : Trig) : Trig := sum (x.map fun t => cosTerm t.2 t.1)

/-- `Σ_(m<n) (-1)^m / ((2m+1)·d^(2m+1))`, the partial sums of the series of `arctan (1/d)`. -/
def arctanInv (d : Rat) : Nat → Rat
  | 0 => 0
  | n + 1 => arctanInv d n + (-1) ^ n / ((2 * n + 1) * d ^ (2 * n + 1))

/-- A rational within `2^-(p+4)` of `π`, by Machin's formula `π = 16·arctan (1/5) - 4·arctan (1/239)`. -/
def piApprox (p : Nat) : Rat :=
  (((16 * arctanInv 5 (p / 4 + 4) - 4 * arctanInv 239 (p / 4 + 4)) * 2 ^ (p + 8)).floor : Rat) / 2 ^ (p + 8)

/-- `Σ_(m<n) (-1)^m·x^(2m) / (2m)!`, the partial sums of the series of `cos x`. -/
def cosSeries (x : Rat) : Nat → Rat
  | 0 => 0
  | n + 1 => cosSeries x n + (-1) ^ n * x ^ (2 * n) / ((2 * n).factorial : Rat)

/-- An integer within 2 of `2^p · cos (π·k/882)`, for `k ≤ 441`. -/
def cosFixed (p k : Nat) : Int := (2 ^ p * cosSeries (piApprox p * k / 882) (p / 4 + 4)).floor

/-- A common denominator of the coefficients. -/
def commonDen (x : Trig) : Nat := x.foldr (fun t d => Nat.lcm t.2.den d) 1

/-- The coefficients times the common denominator: integers. -/
def intCoeffs (x : Trig) : List (Nat × Int) := x.map fun t => (t.1, t.2.num * (commonDen x / t.2.den : Nat))

/-- The sum of the sizes of integer coefficients. -/
def height (cs : List (Nat × Int)) : Nat := (cs.map fun t => t.2.natAbs).sum

/-- An integer within `2 · height` of `2^p` times the number with integer coefficients `cs`. -/
def approx (p : Nat) (cs : List (Nat × Int)) : Int := (cs.map fun t => t.2 * cosFixed p t.1).sum

/-- The sign of the number with integer coefficients `cs` as far as `p` bits show it; 0 where they do not. -/
def signAt (p : Nat) (cs : List (Nat × Int)) : Int :=
  if 2 * (height cs : Int) < approx p cs then 1 else if approx p cs < -(2 * (height cs : Int)) then -1 else 0

/-- Enough bits to tell a number with integer coefficients of total size `h` from 0. Twice such a number is an
algebraic integer of `ℚ(e^(2πi/1764))`, a field of degree 504, and its conjugates are at most `2h` in size; their
product is a nonzero integer, so the number is at least `1 / (2·(2h)^503)` away from 0 or it is 0. Log entry 17. -/
def enoughBits (h : Nat) : Nat := 504 * ((2 * h).log2 + 1) + 2

/-- The sign of an exact real: 1, 0 or -1. 64 bits decide all but near ties; `enoughBits` decide the rest. -/
def sign (x : Trig) : Int :=
  let cs := intCoeffs x
  if signAt 64 cs = 0 then signAt (enoughBits (height cs)) cs else signAt 64 cs

/-- Strict order of exact reals. -/
def lt (x y : Trig) : Bool := decide (sign (sub y x) = 1)

end Sys2Proof.Machine.RealNum
end

