-- ==== Sys2Proof/Laws/RealNum.lean ====
section
/-!
SUPPORT. The exact arithmetic of Machine/RealNum.lean computes in the reals: `trigValue` takes each operation to the
operation of `ℝ` it stands for.
-/

namespace Sys2Proof.Machine

open RealNum

@[simp] theorem trigValue_nil : trigValue [] = 0 := by simp [trigValue]

@[simp] theorem trigValue_cons (t : Nat × Rat) (x : Trig) :
    trigValue (t :: x) = (t.2 : ℝ) * Real.cos (Real.pi * t.1 / 882) + trigValue x := by simp [trigValue]

theorem trigValue_append (x y : Trig) : trigValue (x ++ y) = trigValue x + trigValue y := by
  simp [trigValue]

/-- The angle number may be taken modulo 1764. -/
theorem cos_angle_mod (n : Nat) :
    Real.cos (Real.pi * (n % 1764 : Nat) / 882) = Real.cos (Real.pi * n / 882) := by
  conv_rhs => rw [← Nat.mod_add_div n 1764]
  rw [← Real.cos_add_nat_mul_two_pi _ (n / 1764)]
  congr 1
  push_cast
  ring

/-- The angle number may be reflected at 882. -/
theorem cos_angle_reflect {r : Nat} (h : r ≤ 1764) :
    Real.cos (Real.pi * (1764 - r : Nat) / 882) = Real.cos (Real.pi * r / 882) := by
  rw [← Real.cos_two_pi_sub]
  congr 1
  rw [Nat.cast_sub h]
  push_cast
  ring

/-- The angle number reflects with a change of sign at 441. -/
theorem cos_angle_flip {r : Nat} (h : r ≤ 882) :
    Real.cos (Real.pi * (882 - r : Nat) / 882) = -Real.cos (Real.pi * r / 882) := by
  rw [← Real.cos_pi_sub]
  congr 1
  rw [Nat.cast_sub h]
  push_cast
  ring

theorem cos_angle_quarter : Real.cos (Real.pi * (441 : Nat) / 882) = 0 := by
  rw [← Real.cos_pi_div_two]
  congr 1
  push_cast
  ring

@[simp] theorem trigValue_cosTerm (q : Rat) (n : Nat) :
    trigValue (cosTerm q n) = (q : ℝ) * Real.cos (Real.pi * n / 882) := by
  rw [← cos_angle_mod n]
  unfold cosTerm
  have hr : n % 1764 < 1764 := Nat.mod_lt _ (by norm_num)
  generalize n % 1764 = r at hr
  by_cases hq : q = 0
  · simp [hq]
  have fold : ∀ m : Nat, m ≤ 882 →
      trigValue (if m < 441 then [(m, q)] else if m = 441 then [] else [(882 - m, -q)]) =
        (q : ℝ) * Real.cos (Real.pi * m / 882) := by
    intro m hm
    split
    · simp
    · split
      · next h => subst h; rw [cos_angle_quarter]; simp
      · simp [cos_angle_flip hm]
  simp only [hq, if_false]
  split
  · rw [fold _ (by omega), cos_angle_reflect (by omega)]
  · rw [fold _ (by omega)]

@[simp] theorem trigValue_sinTerm (q : Rat) (n : Nat) :
    trigValue (sinTerm q n) = (q : ℝ) * Real.sin (Real.pi * n / 882) := by
  rw [sinTerm, trigValue_cosTerm]
  congr 1
  rw [← Real.cos_pi_div_two_sub, ← Real.cos_neg, ← Real.cos_add_two_pi]
  congr 1
  push_cast
  ring

@[simp] theorem trigValue_ofRat (q : Rat) : trigValue (ofRat q) = (q : ℝ) := by
  simp [ofRat]

theorem trigValue_addTerm (k : Nat) (p : Rat) (tail : Trig) (rest : Trig → Trig)
    (hrest : ∀ ys, trigValue (rest ys) = trigValue tail + trigValue ys) (ys : Trig) :
    trigValue (addTerm k p tail rest ys) = trigValue ((k, p) :: tail) + trigValue ys := by
  induction ys with
  | nil => simp [addTerm]
  | cons t ys ih =>
    obtain ⟨j, q⟩ := t
    rw [addTerm]
    split
    · simp [hrest]; ring
    · split
      · simp [ih]; ring
      · have hk : k = j := by omega
        subst hk
        split
        · next h =>
          have hpq : (p : ℝ) + q = 0 := by exact_mod_cast h
          have : (p : ℝ) = -q := by linarith
          rw [hrest]; simp [this]; ring
        · simp [hrest]; ring

@[simp] theorem trigValue_add (x y : Trig) : trigValue (add x y) = trigValue x + trigValue y := by
  induction x generalizing y with
  | nil => simp [add]
  | cons t x ih => exact trigValue_addTerm t.1 t.2 x (add x) ih y

@[simp] theorem trigValue_neg (x : Trig) : trigValue (neg x) = -trigValue x := by
  induction x with
  | nil => simp [neg]
  | cons t x ih =>
    have : neg (t :: x) = (t.1, -t.2) :: neg x := rfl
    rw [this]; simp [ih]; ring

@[simp] theorem trigValue_sub (x y : Trig) : trigValue (sub x y) = trigValue x - trigValue y := by
  simp [sub, sub_eq_add_neg]

@[simp] theorem trigValue_scale (r : Rat) (x : Trig) : trigValue (scale r x) = (r : ℝ) * trigValue x := by
  unfold scale
  split
  · next h => simp [h]
  · induction x with
    | nil => simp
    | cons t x ih => simp [ih]; ring

theorem trigValue_addPairs : (xs : List Trig) → ((addPairs xs).map trigValue).sum = (xs.map trigValue).sum
  | [] => rfl
  | [_] => rfl
  | x :: y :: rest => by simp [addPairs, trigValue_addPairs rest]; ring

theorem trigValue_sumRounds (n : Nat) (xs : List Trig) : trigValue (sumRounds n xs) = (xs.map trigValue).sum := by
  induction n generalizing xs with
  | zero =>
    induction xs with
    | nil => simp [sumRounds]
    | cons x xs ih => simp only [sumRounds, List.foldr_cons, trigValue_add, List.map_cons, List.sum_cons] at ih ⊢; rw [ih]
  | succ n ih => rw [sumRounds, ih, trigValue_addPairs]

@[simp] theorem trigValue_sum (xs : List Trig) : trigValue (sum xs) = (xs.map trigValue).sum := trigValue_sumRounds 10 xs

@[simp] theorem trigValue_mulTerm (j : Nat) (p : Rat) (y : Trig) :
    trigValue (mulTerm j p y) = (p : ℝ) * Real.cos (Real.pi * j / 882) * trigValue y := by
  rw [mulTerm, trigValue_sum]
  induction y with
  | nil => simp
  | cons t y ih =>
    have prod : Real.cos (Real.pi * (t.1 + j : Nat) / 882) + Real.cos (Real.pi * (t.1 + 1763 * j : Nat) / 882) =
        2 * (Real.cos (Real.pi * j / 882) * Real.cos (Real.pi * t.1 / 882)) := by
      have h1 : Real.cos (Real.pi * (t.1 + 1763 * j : Nat) / 882) =
          Real.cos (Real.pi * t.1 / 882 - Real.pi * j / 882) := by
        rw [← Real.cos_add_nat_mul_two_pi (Real.pi * t.1 / 882 - Real.pi * j / 882) j]
        congr 1; push_cast; ring
      have h2 : Real.cos (Real.pi * (t.1 + j : Nat) / 882) =
          Real.cos (Real.pi * t.1 / 882 + Real.pi * j / 882) := by
        congr 1; push_cast; ring
      rw [h1, h2, Real.cos_add, Real.cos_sub]; ring
    simp only [List.flatMap_cons, List.map_append, List.sum_append, ih, List.map_cons, List.map_nil, List.sum_cons,
      List.sum_nil, trigValue_cosTerm, trigValue_cons]
    push_cast at prod ⊢
    linear_combination ((p : ℝ) * t.2 / 2) * prod

@[simp] theorem trigValue_mul (x y : Trig) : trigValue (mul x y) = trigValue x * trigValue y := by
  rw [mul, trigValue_sum]
  induction x with
  | nil => simp
  | cons t x ih => simp only [List.map_cons, List.sum_cons, ih, trigValue_mulTerm, trigValue_cons]; ring

@[simp] theorem trigValue_normalise (x : Trig) : trigValue (normalise x) = trigValue x := by
  rw [normalise, trigValue_sum]
  induction x with
  | nil => simp
  | cons t x ih => simp only [List.map_cons, List.sum_cons, ih, trigValue_cosTerm, trigValue_cons]

end Sys2Proof.Machine
end

