-- ==== Sys2Proof/Laws/RealSign.lean ====
section
/-!
SUPPORT. `RealNum.sign` is the sign of the real number, exactly: the rational approximations are as good as their
docstrings say, and the precision `enoughBits` tells every nonzero number from 0 (log entry 17).
-/

namespace Sys2Proof.Machine

open RealNum

/-- The partial sums of the arctangent series, with the error of what is left out. -/
theorem arctanInv_error (d : Rat) (hd : 5 ≤ d) (n : Nat) :
    |(arctanInv d n : ℝ) - Real.arctan (d : ℝ)⁻¹| ≤ (d : ℝ)⁻¹ ^ (2 * n + 1) * 2 := by
  have hd' : (5 : ℝ) ≤ d := by exact_mod_cast hd
  have hpos : (0 : ℝ) < (d : ℝ)⁻¹ := by positivity
  have hx : (d : ℝ)⁻¹ ≤ 1 / 5 := by rw [inv_le_comm₀ (by linarith) (by norm_num)]; simpa using hd'
  have hsum : ∀ n, (arctanInv d n : ℝ) =
      ∑ m ∈ Finset.range n, (-1) ^ m * (d : ℝ)⁻¹ ^ (2 * m + 1) / ((2 * m + 1 : ℕ) : ℝ) := by
    intro n
    induction n with
    | zero => simp [arctanInv]
    | succ n ih =>
      rw [Finset.sum_range_succ, ← ih, arctanInv]
      push_cast
      rw [inv_pow]
      field_simp
  have hs := Real.hasSum_arctan (x := (d : ℝ)⁻¹) (by rw [Real.norm_eq_abs, abs_of_pos hpos]; linarith)
  have hb := norm_sub_le_of_geometric_bound_of_hasSum (r := (d : ℝ)⁻¹ ^ 2) (C := (d : ℝ)⁻¹)
    (by nlinarith) (f := fun m => (-1) ^ m * (d : ℝ)⁻¹ ^ (2 * m + 1) / ((2 * m + 1 : ℕ) : ℝ)) (by
      intro m
      rw [norm_div, norm_mul, norm_pow, norm_neg, norm_one, one_pow, one_mul, Real.norm_eq_abs,
        abs_of_pos (by positivity), Real.norm_eq_abs, abs_of_pos (by positivity)]
      have e : (d : ℝ)⁻¹ ^ (2 * m + 1) = (d : ℝ)⁻¹ * ((d : ℝ)⁻¹ ^ 2) ^ m := by ring
      rw [← e]
      apply div_le_self (by positivity)
      push_cast; nlinarith [Nat.cast_nonneg (α := ℝ) m]) hs n
  rw [← hsum, Real.norm_eq_abs] at hb
  refine hb.trans ?_
  have e : (d : ℝ)⁻¹ ^ (2 * n + 1) = (d : ℝ)⁻¹ * ((d : ℝ)⁻¹ ^ 2) ^ n := by ring
  rw [e, div_le_iff₀ (by nlinarith)]
  have h0 : (0:ℝ) ≤ (d : ℝ)⁻¹ * ((d : ℝ)⁻¹ ^ 2) ^ n := by positivity
  have h1 : (1:ℝ) ≤ 2 * (1 - (d : ℝ)⁻¹ ^ 2) := by nlinarith
  nlinarith [mul_le_mul_of_nonneg_left h1 h0]

theorem piApprox_error (p : Nat) : |(piApprox p : ℝ) - Real.pi| ≤ 1 / 2 ^ (p + 4) := by
  set n := p / 4 + 4 with hn
  have h5 := arctanInv_error 5 (by norm_num) n
  have h239 := arctanInv_error 239 (by norm_num) n
  have hm := Real.four_mul_arctan_inv_5_sub_arctan_inv_239
  push_cast at h5 h239
  have b5 : ((5 : ℝ)⁻¹) ^ (2 * n + 1) ≤ 1 / 2 ^ (p + 12) := by
    have h25 : ((5 : ℝ)⁻¹) ^ (2 * n + 1) = 5⁻¹ * (1 / 25) ^ n := by
      rw [pow_succ, pow_mul]; norm_num; ring
    have h16 : (1 / 25 : ℝ) ^ n ≤ (1 / 25) ^ 4 * (1 / 16) ^ (p / 4) := by
      rw [hn, add_comm (p/4), pow_add]
      gcongr; norm_num
    have hp : (1 / 16 : ℝ) ^ (p / 4) ≤ 8 / 2 ^ p := by
      have : (2:ℝ) ^ p ≤ 8 * 16 ^ (p / 4) := by
        rw [show (16:ℝ) = 2 ^ 4 by norm_num, show (8:ℝ) = 2 ^ 3 by norm_num, ← pow_mul, ← pow_add]
        exact pow_le_pow_right₀ (by norm_num) (by omega)
      rw [div_pow, one_pow, div_le_div_iff₀ (by positivity) (by positivity)]
      linarith
    rw [h25]
    calc 5⁻¹ * (1 / 25 : ℝ) ^ n ≤ 5⁻¹ * ((1 / 25) ^ 4 * (8 / 2 ^ p)) := by gcongr; exact h16.trans (by gcongr)
      _ ≤ 1 / 2 ^ (p + 12) := by
        rw [pow_add]; field_simp; norm_num
  have b239 : ((239 : ℝ)⁻¹) ^ (2 * n + 1) ≤ ((5 : ℝ)⁻¹) ^ (2 * n + 1) := by gcongr; norm_num
  set A : ℚ := 16 * arctanInv 5 n - 4 * arctanInv 239 n with hA
  have hAerr : |(A : ℝ) - Real.pi| ≤ 40 / 2 ^ (p + 12) := by
    have e : (A : ℝ) - Real.pi = 16 * ((arctanInv 5 n : ℝ) - Real.arctan 5⁻¹) - 4 * ((arctanInv 239 n : ℝ) - Real.arctan 239⁻¹) := by
      rw [hA]; push_cast; linarith
    rw [e]
    refine (abs_sub _ _).trans ?_
    rw [abs_mul, abs_mul, abs_of_pos (by norm_num : (0:ℝ) < 16), abs_of_pos (by norm_num : (0:ℝ) < 4)]
    have : (40:ℝ) / 2 ^ (p + 12) = 40 * (1 / 2 ^ (p + 12)) := by ring
    rw [this]
    linarith
  have hfl : |(piApprox p : ℝ) - A| ≤ 1 / 2 ^ (p + 8) := by
    have hdef : piApprox p = ((A * 2 ^ (p + 8)).floor : ℚ) / 2 ^ (p + 8) := rfl
    have h1 : ((A * 2 ^ (p + 8)).floor : ℚ) ≤ A * 2 ^ (p + 8) := Int.floor_le _
    have h2 : A * 2 ^ (p + 8) < (A * 2 ^ (p + 8)).floor + 1 := Int.lt_floor_add_one _
    have h1' : ((A * 2 ^ (p + 8)).floor : ℝ) ≤ A * 2 ^ (p + 8) := by exact_mod_cast h1
    have h2' : (A : ℝ) * 2 ^ (p + 8) < (A * 2 ^ (p + 8)).floor + 1 := by exact_mod_cast h2
    rw [hdef]; push_cast
    rw [abs_sub_le_iff]
    have hp : (0:ℝ) < 2 ^ (p + 8) := by positivity
    constructor
    · rw [sub_le_iff_le_add, div_le_iff₀ hp, add_mul, div_mul_cancel₀ _ hp.ne']; linarith
    · rw [sub_le_iff_le_add, ← add_div, le_div_iff₀ hp]; linarith
  have := abs_sub_le (piApprox p : ℝ) A Real.pi
  have e1 : (40:ℝ) / 2 ^ (p + 12) = 40 / 256 * (1 / 2 ^ (p + 4)) := by rw [show p + 12 = (p + 4) + 8 by ring, pow_add]; field_simp; norm_num
  have e2 : (1:ℝ) / 2 ^ (p + 8) = 1 / 16 * (1 / 2 ^ (p + 4)) := by rw [show p + 8 = (p + 4) + 4 by ring, pow_add]; field_simp; norm_num
  have hpos : (0:ℝ) < 1 / 2 ^ (p + 4) := by positivity
  rw [e1] at hAerr; rw [e2] at hfl
  linarith

theorem cosSeries_eq_re (x : Rat) (n : Nat) :
    ((cosSeries x n : ℝ) : ℝ) = (∑ m ∈ Finset.range (2 * n), (((x : ℝ) : ℂ) * Complex.I) ^ m / (m.factorial : ℂ)).re := by
  induction n with
  | zero => simp [cosSeries]
  | succ n ih =>
    rw [show 2 * (n + 1) = 2 * n + 1 + 1 by ring, Finset.sum_range_succ, Finset.sum_range_succ, Complex.add_re,
      Complex.add_re, ← ih, cosSeries]
    have h1 : ((((x : ℝ) : ℂ) * Complex.I) ^ (2 * n) / ((2 * n).factorial : ℂ)) =
        (((-1) ^ n * (x : ℝ) ^ (2 * n) / ((2 * n).factorial : ℝ) : ℝ) : ℂ) := by
      rw [mul_pow, pow_mul Complex.I, Complex.I_sq]; push_cast; ring
    have h2 : ((((x : ℝ) : ℂ) * Complex.I) ^ (2 * n + 1) / ((2 * n + 1).factorial : ℂ)) =
        (((-1) ^ n * (x : ℝ) ^ (2 * n + 1) / ((2 * n + 1).factorial : ℝ) : ℝ) : ℂ) * Complex.I := by
      rw [mul_pow, pow_succ Complex.I, pow_mul Complex.I, Complex.I_sq]; push_cast; ring
    rw [h1, h2, Complex.ofReal_re, Complex.re_ofReal_mul, Complex.I_re, mul_zero, add_zero]
    push_cast; ring

theorem cosSeries_error (x : Rat) (hx : |(x : ℝ)| ≤ 1.65) (p : Nat) :
    |(cosSeries x (p / 4 + 4) : ℝ) - Real.cos x| ≤ 1 / 2 ^ (p + 5) := by
  set n := p / 4 + 4 with hn
  have hz : ‖((x : ℝ) : ℂ) * Complex.I‖ = |(x : ℝ)| := by simp
  have hb := Complex.exp_bound' (x := ((x : ℝ) : ℂ) * Complex.I) (n := 2 * n) (by
    rw [hz, div_le_iff₀ (by positivity)]
    have : (8 : ℝ) ≤ ((2 * n : ℕ) : ℝ) := by exact_mod_cast (by omega : 8 ≤ 2 * n)
    rw [Nat.cast_succ]; linarith)
  rw [hz] at hb
  have hre := (Complex.abs_re_le_norm _).trans hb
  rw [Complex.sub_re, ← cosSeries_eq_re, Complex.exp_ofReal_mul_I_re, abs_sub_comm] at hre
  refine hre.trans ?_
  have key : ∀ k : Nat, (1.65 : ℝ) ^ (2 * (k + 4)) / (2 * (k + 4)).factorial * 2 ≤ 1 / 2 ^ (4 * k + 8) := by
    intro k
    induction k with
    | zero => norm_num [Nat.factorial]
    | succ k ih =>
      have e : 2 * (k + 1 + 4) = (2 * (k + 4) + 1) + 1 := by ring
      rw [e, Nat.factorial_succ, Nat.factorial_succ, pow_succ, pow_succ]
      have hf : (0:ℝ) < ((2 * (k + 4)).factorial : ℝ) := by positivity
      have e2 : (1:ℝ) / 2 ^ (4 * (k + 1) + 8) = 1 / 2 ^ (4 * k + 8) * (1 / 16) := by
        rw [show 4 * (k + 1) + 8 = (4 * k + 8) + 4 by ring, pow_add]; field_simp; norm_num
      rw [e2]
      have e3 : (1.65:ℝ) ^ (2 * (k + 4)) * 1.65 * 1.65 /
          ((2 * (k + 4) + 1 + 1) * ((2 * (k + 4) + 1) * (2 * (k + 4)).factorial) : ℕ) * 2 =
          ((1.65:ℝ) ^ (2 * (k + 4)) / (2 * (k + 4)).factorial * 2) * (1.65 * 1.65 / ((2 * (k + 4) + 1 + 1) * (2 * (k + 4) + 1))) := by
        push_cast; field_simp
      rw [e3]
      have hk : (0:ℝ) ≤ (k:ℝ) := Nat.cast_nonneg k
      have : (1.65 * 1.65 / ((2 * (k + 4) + 1 + 1) * (2 * (k + 4) + 1)) : ℝ) ≤ 1 / 16 := by
        rw [div_le_div_iff₀ (by positivity) (by norm_num)]; nlinarith
      gcongr
  have h1 : |(x : ℝ)| ^ (2 * n) / (2 * n).factorial * 2 ≤ (1.65 : ℝ) ^ (2 * n) / (2 * n).factorial * 2 := by gcongr
  refine h1.trans ((key (p / 4)).trans ?_)
  apply one_div_le_one_div_of_le (by positivity)
  exact pow_le_pow_right₀ (by norm_num) (by omega)

theorem cosFixed_error (p k : Nat) (hk : k ≤ 441) :
    |(cosFixed p k : ℝ) - 2 ^ p * Real.cos (Real.pi * k / 882)| ≤ 2 := by
  have hpi := piApprox_error p
  have hk' : (k : ℝ) ≤ 441 := by exact_mod_cast hk
  set y : ℚ := piApprox p * k / 882 with hy
  have hyr : (y : ℝ) = piApprox p * k / 882 := by rw [hy]; push_cast; ring
  have hle : (1:ℝ) / 2 ^ (p + 4) ≤ 1 / 16 := by
    apply one_div_le_one_div_of_le (by norm_num)
    rw [pow_add]; have : (1:ℝ) ≤ 2 ^ p := one_le_pow₀ (by norm_num); norm_num; linarith
  have hdiff : |(y : ℝ) - Real.pi * k / 882| ≤ 1 / 2 ^ (p + 5) := by
    have : (y : ℝ) - Real.pi * k / 882 = ((piApprox p : ℝ) - Real.pi) * (k / 882) := by rw [hyr]; ring
    rw [this, abs_mul, abs_of_nonneg (by positivity : (0:ℝ) ≤ k / 882)]
    have e : (1:ℝ) / 2 ^ (p + 5) = 1 / 2 ^ (p + 4) * (1 / 2) := by rw [show p + 5 = p + 4 + 1 by ring, pow_succ]; field_simp
    rw [e]
    apply mul_le_mul hpi (by linarith) (by positivity) (by positivity)
  have hybound : |(y : ℝ)| ≤ 1.65 := by
    have h2 := Real.pi_lt_d2
    have h3 := Real.pi_gt_three
    have hpb := abs_le.mp (hpi.trans hle)
    have h0 : (0:ℝ) ≤ piApprox p := by linarith [hpb.1]
    rw [hyr, abs_of_nonneg (by positivity)]
    have : (piApprox p : ℝ) * k ≤ (3.15 + 1/16) * 441 := by
      apply mul_le_mul _ hk' (by positivity) (by norm_num); linarith [hpb.2]
    linarith
  have hser := cosSeries_error y hybound p
  have hlip : |Real.cos y - Real.cos (Real.pi * k / 882)| ≤ 1 / 2 ^ (p + 5) :=
    (Real.abs_cos_sub_cos_le _ _).trans hdiff
  set C : ℚ := cosSeries y (p / 4 + 4) with hC
  have hdef : cosFixed p k = (2 ^ p * C).floor := rfl
  have h1 : ((2 ^ p * C).floor : ℚ) ≤ 2 ^ p * C := Int.floor_le _
  have h2 : 2 ^ p * C < (2 ^ p * C).floor + 1 := Int.lt_floor_add_one _
  have h1' : ((2 ^ p * C).floor : ℝ) ≤ 2 ^ p * C := by exact_mod_cast h1
  have h2' : (2 : ℝ) ^ p * C < (2 ^ p * C).floor + 1 := by exact_mod_cast h2
  have htot : |(C : ℝ) - Real.cos (Real.pi * k / 882)| ≤ 1 / 2 ^ (p + 4) := by
    refine (abs_sub_le _ (Real.cos y) _).trans ?_
    have e : (1:ℝ) / 2 ^ (p + 4) = 1 / 2 ^ (p + 5) + 1 / 2 ^ (p + 5) := by rw [show p + 5 = p + 4 + 1 by ring, pow_succ _ (p + 4)]; field_simp; norm_num
    rw [e]; linarith
  have hmul : |2 ^ p * (C : ℝ) - 2 ^ p * Real.cos (Real.pi * k / 882)| ≤ 1 / 16 := by
    rw [← mul_sub, abs_mul, abs_of_pos (by positivity : (0:ℝ) < 2 ^ p)]
    calc 2 ^ p * |(C : ℝ) - Real.cos (Real.pi * k / 882)| ≤ 2 ^ p * (1 / 2 ^ (p + 4)) := by gcongr
      _ = 1 / 16 := by rw [pow_add]; field_simp; norm_num
  rw [hdef]
  rw [abs_le] at hmul ⊢
  constructor <;> linarith [hmul.1, hmul.2]

/-- The number with integer coefficients `cs`. -/
noncomputable def realOfInts (cs : List (Nat × Int)) : ℝ :=
  (cs.map fun t => (t.2 : ℝ) * Real.cos (Real.pi * t.1 / 882)).sum

theorem commonDen_pos (x : Trig) : 0 < commonDen x := by
  induction x with
  | nil => exact Nat.one_pos
  | cons t x ih => exact Nat.lcm_pos t.2.den_pos ih

theorem den_dvd_commonDen (x : Trig) : ∀ t ∈ x, t.2.den ∣ commonDen x := by
  induction x with
  | nil => simp
  | cons t x ih =>
    intro u hu
    rcases List.mem_cons.mp hu with rfl | hu
    · exact Nat.dvd_lcm_left _ _
    · exact (ih u hu).trans (Nat.dvd_lcm_right _ _)

theorem realOfInts_intCoeffs (x : Trig) : realOfInts (intCoeffs x) = commonDen x * trigValue x := by
  have key : ∀ y : Trig, (∀ t ∈ y, t.2.den ∣ commonDen x) →
      realOfInts (y.map fun t => (t.1, t.2.num * (commonDen x / t.2.den : Nat))) = commonDen x * trigValue y := by
    intro y
    induction y with
    | nil => simp [realOfInts]
    | cons t y ih =>
      intro h
      have hd := h t (by simp)
      have ih' := ih fun u hu => h u (by simp [hu])
      have hc : ((t.2.num * (commonDen x / t.2.den : Nat) : Int) : ℝ) = commonDen x * (t.2 : ℝ) := by
        have hden : (t.2.den : ℝ) ≠ 0 := by exact_mod_cast t.2.den_pos.ne'
        rw [Int.cast_mul, Int.cast_natCast, Nat.cast_div hd hden, Rat.cast_def]
        field_simp
      simp only [realOfInts, List.map_cons, List.sum_cons, trigValue_cons] at ih' ⊢
      rw [ih', hc]; ring
  exact key x (den_dvd_commonDen x)

/-- `approx` is within twice the height of the number it approximates. -/
theorem approx_error (p : Nat) (cs : List (Nat × Int)) (h : ∀ t ∈ cs, t.1 ≤ 441) :
    |(approx p cs : ℝ) - 2 ^ p * realOfInts cs| ≤ 2 * height cs := by
  induction cs with
  | nil => simp [approx, realOfInts, height]
  | cons t cs ih =>
    have ih' := ih fun u hu => h u (by simp [hu])
    have ht := cosFixed_error p t.1 (h t (by simp))
    have e : (approx p (t :: cs) : ℝ) - 2 ^ p * realOfInts (t :: cs) =
        (t.2 : ℝ) * ((cosFixed p t.1 : ℝ) - 2 ^ p * Real.cos (Real.pi * t.1 / 882)) +
        ((approx p cs : ℝ) - 2 ^ p * realOfInts cs) := by
      simp only [approx, realOfInts, List.map_cons, List.sum_cons]; push_cast; ring
    have eh : (height (t :: cs) : ℝ) = |(t.2 : ℝ)| + height cs := by
      simp only [height, List.map_cons, List.sum_cons]; push_cast; rw [Nat.cast_natAbs]; push_cast; ring
    rw [e, eh]
    refine (abs_add_le _ _).trans ?_
    rw [abs_mul]
    have := mul_le_mul_of_nonneg_left ht (abs_nonneg (t.2 : ℝ))
    linarith

theorem realOfInts_le_height (cs : List (Nat × Int)) : |realOfInts cs| ≤ height cs := by
  induction cs with
  | nil => simp [realOfInts, height]
  | cons t cs ih =>
    simp only [realOfInts, height, List.map_cons, List.sum_cons] at ih ⊢
    push_cast
    refine (abs_add_le _ _).trans ?_
    rw [abs_mul, Nat.cast_natAbs, Int.cast_abs]
    have := mul_le_mul_of_nonneg_left (Real.abs_cos_le_one (Real.pi * t.1 / 882)) (abs_nonneg (t.2 : ℝ))
    push_cast at ih
    linarith

/-- Twice a number with integer coefficients, at any root of unity. -/
noncomputable def doubledPoly (cs : List (Nat × Int)) : Polynomial ℤ :=
  (cs.map fun t => Polynomial.C t.2 * (Polynomial.X ^ t.1 + Polynomial.X ^ (1763 * t.1))).sum

theorem norm_aeval_doubledPoly_le (cs : List (Nat × Int)) (μ : ℂ) (hμ : ‖μ‖ = 1) :
    ‖Polynomial.aeval μ (doubledPoly cs)‖ ≤ 2 * height cs := by
  induction cs with
  | nil => simp [doubledPoly, height]
  | cons t cs ih =>
    simp only [doubledPoly, height, List.map_cons, List.sum_cons] at ih ⊢
    rw [map_add]
    refine (norm_add_le _ _).trans ?_
    push_cast at ih ⊢
    have : ‖Polynomial.aeval μ (Polynomial.C t.2 * (Polynomial.X ^ t.1 + Polynomial.X ^ (1763 * t.1)))‖ ≤ 2 * |(t.2 : ℝ)| := by
      simp only [map_mul, map_add, map_pow, Polynomial.aeval_X, Polynomial.aeval_C, norm_mul]
      have h1 : ‖μ ^ t.1 + μ ^ (1763 * t.1)‖ ≤ 2 := by
        refine (norm_add_le _ _).trans ?_
        rw [norm_pow, norm_pow, hμ]; norm_num
      have h2 : ‖(algebraMap ℤ ℂ) t.2‖ = |(t.2 : ℝ)| := by simp
      rw [h2]
      nlinarith [abs_nonneg (t.2 : ℝ)]
    rw [Nat.cast_natAbs]; push_cast
    linarith

theorem aeval_doubledPoly (cs : List (Nat × Int)) :
    Polynomial.aeval (Complex.exp (2 * Real.pi * Complex.I / (1764 : ℕ))) (doubledPoly cs) = ((2 * realOfInts cs : ℝ) : ℂ) := by
  induction cs with
  | nil => simp [doubledPoly, realOfInts]
  | cons t cs ih =>
    simp only [doubledPoly, realOfInts, List.map_cons, List.sum_cons] at ih ⊢
    rw [map_add, ih]
    have h1 : Complex.exp (2 * Real.pi * Complex.I / (1764 : ℕ)) ^ t.1 = Complex.exp ((Real.pi * t.1 / 882 : ℝ) * Complex.I) := by
      rw [← Complex.exp_nat_mul]; congr 1; push_cast; ring
    have h2 : Complex.exp (2 * Real.pi * Complex.I / (1764 : ℕ)) ^ (1763 * t.1) =
        Complex.exp (-((Real.pi * t.1 / 882 : ℝ) * Complex.I)) := by
      rw [← Complex.exp_nat_mul, ← Complex.exp_periodic.nat_mul t.1 (-((Real.pi * t.1 / 882 : ℝ) * Complex.I))]
      congr 1; push_cast; ring
    have h3 : Complex.exp ((Real.pi * t.1 / 882 : ℝ) * Complex.I) + Complex.exp (-((Real.pi * t.1 / 882 : ℝ) * Complex.I)) =
        ((2 * Real.cos (Real.pi * t.1 / 882) : ℝ) : ℂ) := by
      rw [Complex.ofReal_mul, Complex.ofReal_cos, Complex.cos]; push_cast
      rw [neg_mul]; ring
    simp only [map_mul, map_add, map_pow, Polynomial.aeval_X, Polynomial.aeval_C]
    rw [h1, h2, h3]
    push_cast
    simp
    ring

theorem isIntegral_aeval_doubledPoly {K : Type*} [Field K] [Algebra ℚ K] {z : K} (hz : IsIntegral ℤ z)
    (cs : List (Nat × Int)) : IsIntegral ℤ (Polynomial.aeval z (doubledPoly cs)) := by
  induction cs with
  | nil => simpa [doubledPoly] using isIntegral_zero
  | cons t cs ih =>
    simp only [doubledPoly, List.map_cons, List.sum_cons, map_add, map_mul, map_pow, Polynomial.aeval_X,
      Polynomial.aeval_C] at ih ⊢
    exact (isIntegral_algebraMap.mul ((hz.pow _).add (hz.pow _))).add ih

open Polynomial in
theorem one_le_doubled_norm {K : Type} [Field K] [Algebra ℚ K] [IsCyclotomicExtension {1764} ℚ K]
    (cs : List (Nat × Int)) (h : realOfInts cs ≠ 0) :
    1 ≤ |2 * realOfInts cs| * (2 * height cs : ℝ) ^ 503 := by
  classical
  have hirr : Irreducible (cyclotomic 1764 ℚ) := cyclotomic.irreducible_rat (by norm_num)
  have fin : FiniteDimensional ℚ K := IsCyclotomicExtension.finiteDimensional {1764} ℚ K
  obtain ⟨ζ, hζ⟩ : ∃ ζ : K, IsPrimitiveRoot ζ 1764 := ⟨_, IsCyclotomicExtension.zeta_spec 1764 ℚ K⟩
  have hμ₀ : IsPrimitiveRoot (Complex.exp (2 * Real.pi * Complex.I / (1764 : ℕ))) 1764 :=
    Complex.isPrimitiveRoot_exp 1764 (by norm_num)
  obtain ⟨σ₀, hσ₀⟩ : ∃ σ₀ : K →ₐ[ℚ] ℂ, σ₀ ζ = Complex.exp (2 * Real.pi * Complex.I / (1764 : ℕ)) := by
    refine ⟨(hζ.embeddingsEquivPrimitiveRoots ℂ hirr).symm ⟨_, (mem_primitiveRoots (by norm_num)).2 hμ₀⟩, ?_⟩
    rw [← hζ.embeddingsEquivPrimitiveRoots_apply_coe ℂ hirr, Equiv.apply_symm_apply]
  obtain ⟨α, hαdef⟩ : ∃ α : K, α = aeval ζ (doubledPoly cs) := ⟨_, rfl⟩
  have hα : ∀ σ : K →ₐ[ℚ] ℂ, σ α = aeval (σ ζ) (doubledPoly cs) := by
    intro σ
    rw [hαdef]
    exact (Polynomial.aeval_algHom_apply (σ.restrictScalars ℤ) ζ (doubledPoly cs)).symm
  have hσnorm : ∀ σ : K →ₐ[ℚ] ℂ, ‖σ ζ‖ = 1 := by
    intro σ
    have hp : (σ ζ) ^ 1764 = 1 := by rw [← map_pow, hζ.pow_eq_one, map_one]
    exact Complex.norm_eq_one_of_pow_eq_one hp (by norm_num)
  have hval : σ₀ α = ((2 * realOfInts cs : ℝ) : ℂ) := by rw [hα, hσ₀]; exact aeval_doubledPoly cs
  have hα0 : α ≠ 0 := by
    intro h0
    rw [h0, map_zero] at hval
    have : (2 * realOfInts cs : ℝ) = 0 := by exact_mod_cast hval.symm
    exact h (by linarith)
  have hint : IsIntegral ℤ α := by
    rw [hαdef]; exact isIntegral_aeval_doubledPoly (hζ.isIntegral (by norm_num)) cs
  obtain ⟨n, hn⟩ : ∃ n : ℤ, (n : ℚ) = Algebra.norm ℚ α := by
    obtain ⟨n, hn⟩ := IsIntegrallyClosed.isIntegral_iff.mp (Algebra.isIntegral_norm ℚ hint)
    exact ⟨n, by simpa using hn⟩
  have hn0 : n ≠ 0 := by
    intro h0
    rw [h0, Int.cast_zero] at hn
    exact (Algebra.norm_ne_zero_iff.mpr hα0) hn.symm
  have hprod : ((n : ℂ)) = ∏ σ : K →ₐ[ℚ] ℂ, σ α := by
    rw [← Algebra.norm_eq_prod_embeddings ℚ ℂ α, ← hn]; simp
  have habs : (1 : ℝ) ≤ ‖(n : ℂ)‖ := by
    rw [Complex.norm_intCast]; exact_mod_cast Int.one_le_abs hn0
  have hcard : Fintype.card (K →ₐ[ℚ] ℂ) = 504 := by
    rw [AlgHom.card ℚ K ℂ, IsCyclotomicExtension.finrank K hirr]
    decide +kernel
  rw [hprod, norm_prod, ← Finset.mul_prod_erase Finset.univ _ (Finset.mem_univ σ₀), hval] at habs
  have hle : ∏ σ ∈ Finset.univ.erase σ₀, ‖σ α‖ ≤ (2 * height cs : ℝ) ^ 503 := by
    have := Finset.prod_le_prod (s := Finset.univ.erase σ₀) (f := fun σ => ‖σ α‖) (g := fun _ => (2 * height cs : ℝ))
      (fun _ _ => norm_nonneg _) (fun σ _ => by
        rw [hα]; exact norm_aeval_doubledPoly_le cs _ (hσnorm σ))
    rw [Finset.prod_const, Finset.card_erase_of_mem (Finset.mem_univ _), Finset.card_univ, hcard] at this
    exact this
  rw [Complex.norm_real, Real.norm_eq_abs] at habs
  exact habs.trans (mul_le_mul_of_nonneg_left hle (abs_nonneg _))

/-- Twice a nonzero number with integer coefficients of total size `h` is at least `(2h)^-503` away from 0. -/
theorem realOfInts_away_from_zero (cs : List (Nat × Int)) (h : realOfInts cs ≠ 0) :
    1 ≤ |2 * realOfInts cs| * (2 * height cs : ℝ) ^ 503 :=
  have : NeZero ((1764 : ℕ) : ℚ) := ⟨by norm_num⟩
  @one_le_doubled_norm (CyclotomicField 1764 ℚ) _ (CyclotomicField.algebra 1764 ℚ)
    (CyclotomicField.isCyclotomicExtension 1764 ℚ) cs h

/-- What `signAt` answers is right, and 0 says that the number is small. -/
theorem signAt_sound (p : Nat) (cs : List (Nat × Int)) (h : ∀ t ∈ cs, t.1 ≤ 441) :
    (signAt p cs = 1 ∧ 0 < realOfInts cs) ∨ (signAt p cs = -1 ∧ realOfInts cs < 0) ∨
      (signAt p cs = 0 ∧ 2 ^ p * |realOfInts cs| ≤ 4 * height cs) := by
  have he := abs_le.mp (approx_error p cs h)
  have hp : (0:ℝ) < 2 ^ p := by positivity
  unfold signAt
  split
  · next h1 =>
    have h1' : (2 * (height cs : ℝ)) < approx p cs := by exact_mod_cast h1
    refine .inl ⟨rfl, ?_⟩
    by_contra hneg
    nlinarith [he.1, he.2, mul_nonpos_of_nonneg_of_nonpos hp.le (not_lt.mp hneg)]
  · next h1 =>
    have h1' : (approx p cs : ℝ) ≤ 2 * (height cs : ℝ) := by exact_mod_cast not_lt.mp h1
    split
    · next h2 =>
      have h2' : (approx p cs : ℝ) < -(2 * (height cs : ℝ)) := by exact_mod_cast h2
      refine .inr (.inl ⟨rfl, ?_⟩)
      by_contra hneg
      nlinarith [he.1, he.2, mul_nonneg hp.le (not_lt.mp hneg)]
    · next h2 =>
      have h2' : -(2 * (height cs : ℝ)) ≤ approx p cs := by exact_mod_cast not_lt.mp h2
      refine .inr (.inr ⟨rfl, ?_⟩)
      rw [← abs_of_pos hp, ← abs_mul, abs_le]
      constructor <;> linarith [he.1, he.2]

/-- A number that `enoughBits` bits do not tell from 0 is 0. -/
theorem enoughBits_enough (cs : List (Nat × Int)) 
    (h : 2 ^ enoughBits (height cs) * |realOfInts cs| ≤ 4 * height cs) : realOfInts cs = 0 := by
  by_contra hne
  have hb := realOfInts_away_from_zero cs hne
  set H := height cs with hH
  have hpow : (2 * (H:ℝ)) < 2 ^ ((2 * H).log2 + 1) := by exact_mod_cast Nat.lt_log2_self
  have hHpos : (0:ℝ) < 2 * H := by
    rcases Nat.eq_zero_or_pos H with h0 | h0
    · rw [h0] at hb; norm_num at hb
    · positivity
  have hbits : (4:ℝ) * (2 * H) ^ 504 < 2 ^ enoughBits H := by
    rw [enoughBits, pow_add, mul_comm 504, pow_mul]
    have hlt := pow_lt_pow_left₀ hpow hHpos.le (by norm_num : 504 ≠ 0)
    generalize (2 * (H:ℝ)) ^ 504 = M at *
    generalize ((2:ℝ) ^ ((2 * H).log2 + 1)) ^ 504 = B at *
    norm_num
    linarith
  have h503 : (0:ℝ) < (2 * H) ^ 503 := by positivity
  rw [abs_mul, abs_of_pos (by norm_num : (0:ℝ) < 2)] at hb
  have e : (2 * (H:ℝ)) ^ 504 = 2 * H * (2 * H) ^ 503 := pow_succ' _ 503
  rw [e] at hbits
  generalize (2 * (H:ℝ)) ^ 503 = M at *
  generalize (2:ℝ) ^ enoughBits H = B at *
  have h1 : B * |realOfInts cs| * M ≤ 4 * H * M := mul_le_mul_of_nonneg_right h h503.le
  have h2 : B * 1 ≤ B * (2 * |realOfInts cs| * M) := mul_le_mul_of_nonneg_left hb (by nlinarith)
  nlinarith

/-- `sign` is the sign of the real number, for angles in the first quadrant. -/
theorem sign_spec (x : Trig) (hx : ∀ t ∈ x, t.1 ≤ 441) :
    (sign x = 1 ∧ 0 < trigValue x) ∨ (sign x = -1 ∧ trigValue x < 0) ∨ (sign x = 0 ∧ trigValue x = 0) := by
  have hcs : ∀ t ∈ intCoeffs x, t.1 ≤ 441 := by
    intro t ht
    obtain ⟨u, hu, rfl⟩ := List.mem_map.mp ht
    exact hx u hu
  have hD : (0:ℝ) < commonDen x := by exact_mod_cast commonDen_pos x
  have hr := realOfInts_intCoeffs x
  have hposx : 0 < realOfInts (intCoeffs x) → 0 < trigValue x := fun h => by
    rw [hr] at h; exact (pos_iff_pos_of_mul_pos h).mp hD
  have hnegx : realOfInts (intCoeffs x) < 0 → trigValue x < 0 := fun h => by
    rw [hr] at h; by_contra hc; nlinarith [mul_nonneg hD.le (not_lt.mp hc)]
  unfold sign
  rcases signAt_sound 64 _ hcs with ⟨h, h'⟩ | ⟨h, h'⟩ | ⟨h, -⟩
  · simp [h, hposx h']
  · simp [h, hnegx h']
  · simp only [h, if_true]
    rcases signAt_sound (enoughBits (height (intCoeffs x))) _ hcs with ⟨h, h'⟩ | ⟨h, h'⟩ | ⟨h, h'⟩
    · exact .inl ⟨h, hposx h'⟩
    · exact .inr (.inl ⟨h, hnegx h'⟩)
    · refine .inr (.inr ⟨h, ?_⟩)
      have h0 := enoughBits_enough _ h'
      rw [hr] at h0
      exact (mul_eq_zero.mp h0).resolve_left hD.ne'

/-- The strict order of exact reals, for angles in the first quadrant. -/
theorem lt_iff (x y : Trig) (h : ∀ t ∈ sub y x, t.1 ≤ 441) : lt x y = true ↔ trigValue x < trigValue y := by
  have hs := sign_spec (sub y x) h
  rw [trigValue_sub] at hs
  rw [lt, decide_eq_true_iff]
  rcases hs with ⟨h1, h2⟩ | ⟨h1, h2⟩ | ⟨h1, h2⟩ <;> rw [h1] <;> constructor <;> intro h3 <;> linarith

end Sys2Proof.Machine
end

