-- ==== Sys2Proof/Laws/RealForm.lean ====
section
/-!
SUPPORT. Every operation on numbers of `Trig` keeps, or makes, the buffer form `Trig.ok`: angles rise, lie below 441, no
coefficient is 0.
-/

namespace Sys2Proof.Machine

open RealNum

/-- `keysRiseFrom` in terms of all pairs. -/
theorem keysRiseFrom_iff {α : Type} (lo : Nat) (m : List (Nat × α)) :
    keysRiseFrom lo m = true ↔ m.Pairwise (fun c d => c.1 < d.1) ∧ ∀ c ∈ m, lo ≤ c.1 := by
  induction m generalizing lo with
  | nil => simp [keysRiseFrom]
  | cons c m ih =>
    obtain ⟨k, v⟩ := c
    simp only [keysRiseFrom, Bool.and_eq_true, decide_eq_true_eq, ih, List.pairwise_cons, List.forall_mem_cons]
    constructor
    · rintro ⟨h1, h2, h3⟩
      exact ⟨⟨fun d hd => h3 d hd, h2⟩, h1, fun d hd => by have := h3 d hd; omega⟩
    · rintro ⟨⟨h1, h2⟩, h3, h4⟩
      exact ⟨h3, h2, fun d hd => h1 d hd⟩

/-- The buffer form with angles from `lo` on. -/
def okFrom (lo : Nat) (x : Trig) : Prop := keysRiseFrom lo x = true ∧ ∀ t ∈ x, t.1 < 441 ∧ t.2 ≠ 0

theorem ok_iff (x : Trig) : Trig.ok x = true ↔ okFrom 0 x := by
  simp [Trig.ok, okFrom]

theorem okFrom_nil (lo : Nat) : okFrom lo [] := by simp [okFrom, keysRiseFrom]

theorem okFrom_cons (lo k : Nat) (q : Rat) (x : Trig) :
    okFrom lo ((k, q) :: x) ↔ lo ≤ k ∧ k < 441 ∧ q ≠ 0 ∧ okFrom (k + 1) x := by
  simp only [okFrom, keysRiseFrom, Bool.and_eq_true, decide_eq_true_eq, List.forall_mem_cons]
  tauto

theorem okFrom_mono {lo lo' : Nat} (h : lo ≤ lo') {x : Trig} (hx : okFrom lo' x) : okFrom lo x := by
  cases x with
  | nil => exact okFrom_nil lo
  | cons t x =>
    obtain ⟨k, q⟩ := t
    rw [okFrom_cons] at hx ⊢
    exact ⟨h.trans hx.1, hx.2⟩

/-- Every angle of a number in buffer form is in the first quadrant. -/
theorem ok_keys {x : Trig} (h : Trig.ok x = true) : ∀ t ∈ x, t.1 ≤ 441 := fun t ht =>
  (((ok_iff x).mp h).2 t ht).1.le

theorem okFrom_addTerm (k : Nat) (p : Rat) (tail : Trig) (rest : Trig → Trig) (hk : k < 441) (hp : p ≠ 0)
    (htail : okFrom (k + 1) tail) (hrest : ∀ ys, okFrom (k + 1) ys → okFrom (k + 1) (rest ys)) :
    ∀ (ys : Trig) (lo : Nat), lo ≤ k → okFrom lo ys → okFrom lo (addTerm k p tail rest ys)
  | [], lo, hlo, _ => by rw [addTerm, okFrom_cons]; exact ⟨hlo, hk, hp, htail⟩
  | (j, q) :: ys, lo, hlo, hys => by
    rw [okFrom_cons] at hys
    rw [addTerm]
    split
    · next h => rw [okFrom_cons]; exact ⟨hlo, hk, hp, hrest _ ((okFrom_cons _ _ _ _).mpr ⟨h, hys.2⟩)⟩
    · split
      · next h =>
        rw [okFrom_cons]
        exact ⟨hys.1, hys.2.1, hys.2.2.1, okFrom_addTerm k p tail rest hk hp htail hrest ys _ h hys.2.2.2⟩
      · have e : j = k := by omega
        subst e
        split
        · exact okFrom_mono (by omega) (hrest _ hys.2.2.2)
        · next h => rw [okFrom_cons]; exact ⟨hlo, hk, h, hrest _ hys.2.2.2⟩

theorem okFrom_add (x : Trig) : ∀ (lo : Nat) (y : Trig), okFrom lo x → okFrom lo y → okFrom lo (add x y) := by
  induction x with
  | nil => exact fun lo y _ h => h
  | cons t x ih =>
    obtain ⟨k, p⟩ := t
    intro lo y hx hy
    rw [okFrom_cons] at hx
    exact okFrom_addTerm k p x (add x) hx.2.1 hx.2.2.1 hx.2.2.2 (fun ys h => ih _ ys hx.2.2.2 h) y lo hx.1 hy

theorem ok_add {x y : Trig} (hx : Trig.ok x = true) (hy : Trig.ok y = true) : Trig.ok (add x y) = true := by
  rw [ok_iff] at *; exact okFrom_add x 0 y hx hy

theorem okFrom_neg (x : Trig) : ∀ lo : Nat, okFrom lo x → okFrom lo (neg x) := by
  induction x with
  | nil => exact fun lo _ => okFrom_nil lo
  | cons t x ih =>
    obtain ⟨k, p⟩ := t
    intro lo hx
    rw [okFrom_cons] at hx
    have e : neg ((k, p) :: x) = (k, -p) :: neg x := rfl
    rw [e, okFrom_cons]
    exact ⟨hx.1, hx.2.1, neg_ne_zero.mpr hx.2.2.1, ih _ hx.2.2.2⟩

theorem ok_neg {x : Trig} (hx : Trig.ok x = true) : Trig.ok (neg x) = true := by
  rw [ok_iff] at *; exact okFrom_neg x 0 hx

theorem ok_sub {x y : Trig} (hx : Trig.ok x = true) (hy : Trig.ok y = true) : Trig.ok (sub x y) = true :=
  ok_add hx (ok_neg hy)

theorem ok_cosTerm (q : Rat) (n : Nat) : Trig.ok (cosTerm q n) = true := by
  rw [ok_iff, cosTerm]
  split
  · exact okFrom_nil 0
  · next hq =>
    have single : ∀ (k : Nat) (r : Rat), k < 441 → r ≠ 0 → okFrom 0 [(k, r)] := fun k r hk hr =>
      (okFrom_cons _ _ _ _).mpr ⟨Nat.zero_le _, hk, hr, okFrom_nil _⟩
    have hlt : n % 1764 < 1764 := Nat.mod_lt _ (by norm_num)
    dsimp only
    generalize n % 1764 = r at hlt
    split <;> split
    · exact single _ _ ‹_› hq
    · split
      · exact okFrom_nil 0
      · exact single _ _ (by omega) (neg_ne_zero.mpr hq)
    · exact single _ _ ‹_› hq
    · split
      · exact okFrom_nil 0
      · exact single _ _ (by omega) (neg_ne_zero.mpr hq)

theorem ok_sinTerm (q : Rat) (n : Nat) : Trig.ok (sinTerm q n) = true := ok_cosTerm q _

theorem ok_ofRat (q : Rat) : Trig.ok (ofRat q) = true := ok_cosTerm q 0

theorem ok_addPairs : (xs : List Trig) → (∀ x ∈ xs, Trig.ok x = true) → ∀ x ∈ addPairs xs, Trig.ok x = true
  | [], h => h
  | [_], h => h
  | a :: b :: rest, h => by
    intro x hx
    rw [addPairs] at hx
    rcases List.mem_cons.mp hx with rfl | hx
    · exact ok_add (h a (by simp)) (h b (by simp))
    · exact ok_addPairs rest (fun y hy => h y (by simp [hy])) x hx

theorem ok_sumRounds (n : Nat) (xs : List Trig) (h : ∀ x ∈ xs, Trig.ok x = true) : Trig.ok (sumRounds n xs) = true := by
  induction n generalizing xs with
  | zero =>
    induction xs with
    | nil => rfl
    | cons x xs ih => exact ok_add (h x (by simp)) (ih fun y hy => h y (by simp [hy]))
  | succ n ih => exact ih _ (ok_addPairs xs h)

theorem ok_sum (xs : List Trig) (h : ∀ x ∈ xs, Trig.ok x = true) : Trig.ok (sum xs) = true := ok_sumRounds 10 xs h

theorem ok_mulTerm (j : Nat) (p : Rat) (y : Trig) : Trig.ok (mulTerm j p y) = true := by
  apply ok_sum
  intro x hx
  simp only [List.mem_flatMap, List.mem_cons, List.not_mem_nil, or_false] at hx
  obtain ⟨t, -, rfl | rfl⟩ := hx <;> exact ok_cosTerm _ _

theorem ok_mul (x y : Trig) : Trig.ok (mul x y) = true := by
  apply ok_sum
  intro z hz
  obtain ⟨t, -, rfl⟩ := List.mem_map.mp hz
  exact ok_mulTerm _ _ _

theorem ok_normalise (x : Trig) : Trig.ok (normalise x) = true := by
  apply ok_sum
  intro z hz
  obtain ⟨t, -, rfl⟩ := List.mem_map.mp hz
  exact ok_cosTerm _ _

end Sys2Proof.Machine
end

