-- ==== Sys2Proof/Machine/RealSum.lean ====
section
/-!
DEFINITION. Exact arithmetic on the reals of `Sample` (spec/00_scope.md R8): sums of products of named reals with
coefficients in `Trig`. Nothing is rounded and no name is looked into. Log entry 20.
-/

namespace Sys2Proof.Machine.RealSum

/-- An exact number as a sum. -/
def ofTrig (c : Trig) : Sample := if c = [] then [] else [([], c)]

/-- The real number number `n`. -/
def named (n : Nat) : Sample := [([n], [(0, 1)])]

/-- Insert a number into a sorted list. -/
def insertName (n : Nat) : Product → Product
  | [] => [n]
  | k :: rest => if n ≤ k then n :: k :: rest else k :: insertName n rest

/-- The product of two products of named reals, sorted. -/
def mulProduct (a b : Product) : Product := (a ++ b).foldr insertName []

/-- Add `c` times the product `m`; a part whose coefficients cancel is dropped. -/
def addPart (m : Product) (c : Trig) : Sample → Sample
  | [] => if c = [] then [] else [(m, c)]
  | (n, d) :: rest =>
    if m = n then
      let e := RealNum.add c d
      if e = [] then rest else (n, e) :: rest
    else (n, d) :: addPart m c rest

/-- Sum: the parts of the first are added to the second, one after another. -/
def add (x y : Sample) : Sample := x.foldl (fun sum t => addPart t.1 t.2 sum) y

/-- Negation. -/
def neg (x : Sample) : Sample := x.map fun t => (t.1, RealNum.neg t.2)

/-- Difference. -/
def sub (x y : Sample) : Sample := add x (neg y)

/-- The terms of a product. -/
def mulTerms (x y : Sample) : Sample :=
  x.flatMap fun t => y.map fun u => (mulProduct t.1 u.1, RealNum.mul t.2 u.2)

/-- Product. -/
def mul (x y : Sample) : Sample := add (mulTerms x y) []

/-- Any list of parts, in the form kept in buffers (`Sample.ok`). -/
def normalise (x : Sample) : Sample := add (x.map fun t => (mulProduct t.1 [], RealNum.normalise t.2)) []

/-- The part without named reals. -/
def constantPart (x : Sample) : Trig :=
  (x.filter fun t => decide (t.1 = [])).foldr (fun t acc => RealNum.add t.2 acc) []

end Sys2Proof.Machine.RealSum
end

