-- ==== Sys2Proof/Laws/RealOrder.lean ====
section
/-!
SUPPORT. The sign of the part without named reals is the sign of the whole when every name stands for 0: there is an order
of sums as Machine/NamedReals.lean asks for one.
-/

namespace Sys2Proof.Machine

open RealNum

theorem productValue_zero (m : Product) : productValue (fun _ => 0) m = if m = [] then 1 else 0 := by
  cases m <;> simp [productValue]

theorem sampleValue_zero (x : Sample) : sampleValue (fun _ => 0) x = trigValue (RealSum.constantPart x) := by
  induction x with
  | nil => simp [sampleValue, RealSum.constantPart]
  | cons t x ih =>
    simp only [sampleValue, RealSum.constantPart, List.map_cons, List.sum_cons, productValue_zero] at ih ⊢
    rw [ih]
    by_cases h : t.1 = [] <;> simp [h]

theorem positive_constantPart_iff (x : Sample) :
    decide (sign (normalise (RealSum.constantPart x)) = 1) = true ↔ 0 < sampleValue (fun _ => 0) x := by
  rw [decide_eq_true_iff, sampleValue_zero, ← trigValue_normalise]
  have h := sign_spec (normalise (RealSum.constantPart x)) (ok_keys (ok_normalise _))
  generalize sign (normalise (RealSum.constantPart x)) = σ at h ⊢
  rcases h with ⟨rfl, h⟩ | ⟨rfl, h⟩ | ⟨rfl, h⟩
  · exact iff_of_true rfl h
  · exact iff_of_false (by decide) (not_lt.mpr h.le)
  · exact iff_of_false (by decide) (by rw [h]; exact lt_irrefl 0)

end Sys2Proof.Machine
end

