-- ==== Sys2Proof/Machine/NamedReals.lean ====
section
/-!
DEFINITION. The order of the reals of `Sample` (spec/00_scope.md R8: comparison on exact reals), and which real each name
stands for. A sum without named reals is compared by computing its sign; a sum with named reals as the reals behind the
names compare, which is open: log entry 20.
-/

namespace Sys2Proof.Machine

/-- The order in which every name stands for 0. -/
def zeroOrder : RealOrder where
  positive x := decide (RealNum.sign (RealNum.normalise (RealSum.constantPart x)) = 1)
  consistent := ⟨fun _ => 0, positive_constantPart_iff⟩

/-- The order of the machine at hand. -/
def machineOrder : RealOrder := Config.realOrder.getD zeroOrder

/-- Which real each name stands for. Nothing but its existence is known. -/
noncomputable def namedReal : Nat → ℝ := Classical.choose machineOrder.consistent

/-- The real number a sample stands for. -/
noncomputable def realOf (x : Sample) : ℝ := sampleValue namedReal x

/-- The real number a magnitude stands for (R135: a non-negative real). -/
noncomputable def magOf (m : Magnitude) : ℝ := Real.sqrt (realOf m.square)

/-- A real is greater than 0. -/
def positive (x : Sample) : Bool :=
  match x with
  | [] => false
  | [(m, c)] => if m = [] then decide (RealNum.sign c = 1) else machineOrder.positive x
  | _ => machineOrder.positive x

end Sys2Proof.Machine
end

