-- ==== Sys2Proof/Machine/Numerics.lean ====
section
/-!
DEFINITION. The parameter `NUMERICS` (spec/00_scope.md R7, decision D10): the operations of real arithmetic the modem uses,
and the arithmetic each value of the parameter gives. The modem is written once over an arithmetic
(Machine/Modulator.lean, Machine/Demodulator.lean). Log entry 1.
-/

namespace Sys2Proof.Machine

/-- A realisation of real arithmetic: "sin, cos, sqrt, ·, +, comparison" (R7). -/
structure Arithmetic where
  /-- A rational constant. -/
  const : Rat → Sample
  /-- `sin (2·π·f·i/44100)`. -/
  sin : Nat → Nat → Sample
  /-- `cos (2·π·f·i/44100)`. -/
  cos : Nat → Nat → Sample
  /-- Sum. -/
  add : Sample → Sample → Sample
  /-- Difference. -/
  sub : Sample → Sample → Sample
  /-- Product. -/
  mul : Sample → Sample → Sample
  /-- Square root, which only ends a magnitude (R135). -/
  sqrt : Sample → Magnitude
  /-- A magnitude exceeds a threshold, strictly (R137). -/
  above : Magnitude → Rat → Bool
  /-- The first magnitude is strictly greater than the second (R139). -/
  greater : Magnitude → Magnitude → Bool
  /-- The magnitudes of the 256 tones show no tone at all (R141). -/
  noTone : List Magnitude → Bool

/-- The number of the angle `2π·f·i/44100` in steps of `π/882`: `f·i/25`, exact for the frequencies of R60. -/
def angleNumber (f i : Nat) : Nat := f * i * 1764 / sampleRate

/-- Arithmetic on exact reals, for the frequencies of R60. Magnitudes are compared by their squares (log entry 2); a
negative threshold is always exceeded; equality is the only way in which all comparisons are false, so some tone is always
found (R141, U10; log entry 13). -/
def exactArithmetic : Arithmetic where
  const q := RealSum.ofTrig (RealNum.ofRat q)
  sin f i := RealSum.ofTrig (RealNum.sinTerm 1 (angleNumber f i))
  cos f i := RealSum.ofTrig (RealNum.cosTerm 1 (angleNumber f i))
  add := RealSum.add
  sub := RealSum.sub
  mul := RealSum.mul
  sqrt x := { square := x }
  above m threshold :=
    decide (threshold < 0) || positive (RealSum.sub m.square (RealSum.ofTrig (RealNum.ofRat (threshold * threshold))))
  greater m n := positive (RealSum.sub m.square n.square)
  noTone _ := false

/-- The arithmetic of another realisation: every number it computes is the one of the code that comes out. What a
magnitude holds is the number of the code for its square. -/
def codedArithmetic (c : CodedArithmetic) : Arithmetic where
  const q := RealSum.named (c.const q)
  sin f i := RealSum.named (c.sin f i)
  cos f i := RealSum.named (c.cos f i)
  add x y := RealSum.named (c.add x y)
  sub x y := RealSum.named (c.sub x y)
  mul x y := RealSum.named (c.mul x y)
  sqrt x := { square := RealSum.named (c.sqrt x) }
  above := c.above
  greater := c.greater
  noTone := c.noTone

/-- The arithmetic a value of `NUMERICS` names. -/
def arithmeticOf : Numerics → Arithmetic
  | .exact => exactArithmetic
  | .other n => codedArithmetic (Config.coded n)

/-- The arithmetic of the block. -/
def State.arithmetic (s : State) : Arithmetic := arithmeticOf s.params.numerics

end Sys2Proof.Machine
end

