-- ==== Sys2Proof/Machine/Modulator.lean ====
section
/-!
DEFINITION. The FSK modulator (spec/44_modulator.md R120 to R125): tone synthesis in the arithmetic `NUMERICS` names,
preamble, symbol framing, and the commands `TONE`, `PREAMB`, `MOD`.
-/

namespace Sys2Proof.Machine

/-- The envelope (R121): rises over 132 samples, falls over the last 132. -/
def env (i : Nat) : Rat :=
  if i < rampLen then (i : Rat) / rampLen
  else if i ≤ 1190 then 1
  else ((1322 - i : Nat) : Rat) / rampLen

/-- `tone(f)[i] = 0.7 · sin (2π·f·i/44100) · env(i)` (R121). -/
def toneSample (A : Arithmetic) (f i : Nat) : Sample :=
  A.mul (A.mul (A.const amplitude) (A.sin f i)) (A.const (env i))

/-- `symbol(t) = tone(freq(t))`: 1323 samples (R121, R122). -/
def symbol (A : Arithmetic) (t : Nat) : List Sample := (List.range symbolLen).map (toneSample A (freq t))

/-- `preamble` (R123): five sync symbols, each with its own envelope. -/
def preamble (A : Arithmetic) : List Sample := (List.replicate preambleSymbols (symbol A 256)).flatten

/-- The symbols of a byte sequence (R124). -/
def dataSymbols (A : Arithmetic) (bs : List Byte) : List Sample := bs.flatMap fun b => symbol A b.toNat

/-- `modulate` (R124): preamble, length field, data, trailing preamble; `E_LEN` above `2^32 - 1` bytes. -/
def modulate (A : Arithmetic) (data : List Byte) : Except ErrCode (List Sample) :=
  if 2 ^ 32 - 1 < data.length then .error .len
  else .ok (preamble A ++ dataSymbols A (le32Nat data.length) ++ dataSymbols A data ++ preamble A)

/-- The samples of a frame for `len` bytes (R124). -/
def frameSamples (len : Nat) : Nat := (14 + len) * symbolLen

/-- `TONE` (R122): `RES0 <- 1323`; `E_ARG` for a selector above 256. -/
def execTone (s : State) : Answer :=
  match toneOperand s.arg0 with
  | some t => commitSamples (symbol s.arithmetic t) s { s with res0 := lenWord symbolLen }
  | none => fail .arg s

/-- `PREAMB` (R123): `RES0 <- 6615`. -/
def execPreamb (s : State) : Answer := commitSamples (preamble s.arithmetic) s { s with res0 := lenWord preambleLen }

/-- `MOD` (R124): `RES0 <- (14 + L)·1323`; `E_CAP` when the input or the frame does not fit. -/
def execMod (s : State) : Answer :=
  let len := s.arg0.toNat
  if s.params.soutCap < frameSamples len then fail .cap s
  else
    withBin len s fun data =>
      match modulate s.arithmetic data with
      | .error e => fail e s
      | .ok out => commitSamples out s { s with res0 := lenWord (frameSamples len) }

end Sys2Proof.Machine
end

