-- ==== Sys2Proof/Machine/Demodulator.lean ====
section
/-!
DEFINITION. The FSK demodulator (spec/45_demodulator.md R135 to R143): Goertzel magnitude, preamble search, tone
detector, frame decode, in the arithmetic `NUMERICS` names, and the commands `GOERTZ`, `SYNCFIND`, `DETECT`, `DEMOD`.
-/

namespace Sys2Proof.Machine

/-! ## Magnitudes -/

/-- The two accumulators of R135. -/
structure Accumulators where
  q1 : Sample
  q2 : Sample
  deriving DecidableEq, Repr

/-- One iteration of R135: `q0 = c·q1 - q2 + x`. -/
def goertzelStep (A : Arithmetic) (c : Sample) (a : Accumulators) (x : Sample) : Accumulators :=
  { q1 := A.add (A.sub (A.mul c a.q1) a.q2) x, q2 := a.q1 }

/-- `goertzel` over the samples of one window (R135): `sqrt((q1 - q2·cos ω)^2 + (q2·sin ω)^2)`. -/
def goertzelWindow (A : Arithmetic) (window : List Sample) (f : Nat) : Magnitude :=
  let c := A.mul (A.const 2) (A.cos f 1)
  let a := window.foldl (goertzelStep A c) { q1 := A.const 0, q2 := A.const 0 }
  let re := A.sub a.q1 (A.mul a.q2 (A.cos f 1))
  let im := A.mul a.q2 (A.sin f 1)
  A.sqrt (A.add (A.mul re re) (A.mul im im))

/-- `goertzel(x, s, f)` (R135): the window `[s, s + 1323)`. -/
def goertzel (A : Arithmetic) (x : List Sample) (s f : Nat) : Magnitude := goertzelWindow A (slice x s symbolLen) f

/-! ## Preamble search -/

/-- How many of the five windows at `s` exceed the threshold (R137). -/
def syncCount (A : Arithmetic) (threshold : Rat) (x : List Sample) (s : Nat) : Nat :=
  ((List.range preambleSymbols).filter fun w =>
    A.above (goertzel A x (s + w * symbolLen) syncFreq) threshold).length

/-- The search loop of R137 from cursor `s` on, at most `fuel` turns. -/
def searchFrom (A : Arithmetic) (threshold : Rat) (x : List Sample) : Nat → Nat → List Nat
  | 0, _ => []
  | fuel + 1, s =>
    if s + preambleLen ≤ x.length then
      if syncMin ≤ syncCount A threshold x s then (s + preambleLen) :: searchFrom A threshold x fuel (s + preambleLen)
      else searchFrom A threshold x fuel (s + stride)
    else []

/-- `find_preambles` (R137); `L div 661 + 1` turns are enough (R199). -/
def findPreambles (A : Arithmetic) (threshold : Rat) (x : List Sample) : List Nat :=
  searchFrom A threshold x (x.length / stride + 1) 0

/-! ## Tone detector -/

/-- The running best of R139. -/
structure BestTone where
  tone : Nat
  magnitude : Magnitude
  deriving DecidableEq, Repr

/-- One turn of the loop of R139: replaced only by a strictly greater magnitude. -/
def detectStep (A : Arithmetic) (window : List Sample) (best : BestTone) (k : Nat) : BestTone :=
  let m := goertzelWindow A window (freq k)
  if A.greater m best.magnitude then { tone := k, magnitude := m } else best

/-- `detect_tone(x, s)` (R139): the data tone of greatest magnitude, the lowest on a tie; tone 0 when no candidate beats
the first. -/
def detectTone (A : Arithmetic) (x : List Sample) (s : Nat) : BestTone :=
  let window := slice x s symbolLen
  (List.range' 1 255).foldl (detectStep A window) { tone := 0, magnitude := goertzelWindow A window (freq 0) }

/-- The byte of the strongest tone at `s`; where no tone is found that is byte 0 (R141). -/
def detectByte (A : Arithmetic) (x : List Sample) (s : Nat) : Byte := BitVec.ofNat 8 (detectTone A x s).tone

/-- No tone is found at `s`: no candidate beats the first, and not because magnitudes are equal (R141). It never happens in
exact arithmetic. Log entry 13. -/
def toneLost (A : Arithmetic) (x : List Sample) (s : Nat) : Bool :=
  A.noTone ((List.range 256).map fun k => goertzel A x s (freq k)) && decide ((detectTone A x s).tone = 0)

/-! ## Frame decode -/

/-- What the data loop of R140 delivers. -/
structure SymbolRun where
  /-- The bytes that were read. -/
  bytes : List Byte
  /-- The audio ended first. -/
  truncated : Bool
  /-- Some symbol that was read showed no tone. -/
  lost : Bool
  deriving DecidableEq, Repr

/-- The data loop of R140: at most `n` symbols from `p` on. -/
def readSymbols (A : Arithmetic) (x : List Sample) : Nat → Nat → SymbolRun
  | 0, _ => { bytes := [], truncated := false, lost := false }
  | n + 1, p =>
    if x.length < p + symbolLen then { bytes := [], truncated := true, lost := false }
    else
      let rest := readSymbols A x n (p + symbolLen)
      { bytes := detectByte A x p :: rest.bytes, truncated := rest.truncated, lost := toneLost A x p || rest.lost }

/-- What `demodulate` delivers (R140). -/
structure Demodulated where
  /-- The bytes that were read. -/
  bytes : List Byte
  /-- The detected length field. -/
  dlen : Nat
  /-- The data start. -/
  start : Nat
  /-- The audio ended before `dlen` bytes: `W_TRUNC`. -/
  truncated : Bool
  /-- Some symbol, of the length field or of the data, showed no tone and was read as 0: `W_TONE` (R141). -/
  lost : Bool
  deriving DecidableEq, Repr

/-- `demodulate` (R140). -/
def demodulate (A : Arithmetic) (threshold : Rat) (x : List Sample) : Except ErrCode Demodulated :=
  match findPreambles A threshold x with
  | [] => .error .noPreamble
  | start :: _ =>
    if x.length < start + lengthFieldLen then .error .noLen
    else
      let dlen := unle32 ((List.range 4).map fun j => detectByte A x (start + j * symbolLen))
      let data := readSymbols A x dlen (start + lengthFieldLen)
      .ok
        { bytes := data.bytes
          dlen := dlen
          start := start
          truncated := data.truncated
          lost := (List.range 4).any (fun j => toneLost A x (start + j * symbolLen)) || data.lost }

/-- `W_TRUNC` (R140) and `W_TONE` (R141) of a demodulated frame. -/
def Demodulated.warning (d : Demodulated) : Word := warnIf d.truncated warnTrunc ||| warnIf d.lost warnTone

/-! ## Commands -/

/-- `GOERTZ` (R135): `MAG <- goertzel(x, s, freq(t))`; `E_ARG`, then `E_CAP`. -/
def execGoertz (s : State) : Answer :=
  match toneOperand s.arg2 with
  | none => fail .arg s
  | some t =>
    if windowFits s.arg1 s.arg0 then
      withSin s.arg0.toNat s fun x => succeed { s with mag := goertzel s.arithmetic x s.arg1.toNat (freq t) }
    else fail .arg s

/-- `SYNCFIND` (R137, R138): `RES0` the count, `RES1` the first position if there is one, all positions as
little-endian words in `BOUT`. -/
def execSyncfind (s : State) : Answer :=
  withSin s.arg0.toNat s fun x =>
    let pos := findPreambles s.arithmetic s.params.syncThreshold x
    commitBytes (pos.flatMap le32Nat) s
      { s with res0 := lenWord pos.length, res1 := (pos.head?.map lenWord).getD s.res1 }

/-- `DETECT` (R139): `RES0 <- best`, `MAG <- bm`; `E_ARG`, then `E_CAP`. -/
def execDetect (s : State) : Answer :=
  if windowFits s.arg1 s.arg0 then
    withSin s.arg0.toNat s fun x =>
      let best := detectTone s.arithmetic x s.arg1.toNat
      succeed { s with res0 := lenWord best.tone, mag := best.magnitude }
  else fail .arg s

/-- `DEMOD` (R140): `RES0` the bytes read, `RES1` the detected length, `RES2` the data start; warnings stay set
when the result then does not fit (R36). -/
def execDemod (s : State) : Answer :=
  withSin s.arg0.toNat s fun x =>
    match demodulate s.arithmetic s.params.syncThreshold x with
    | .error e => fail e s
    | .ok d =>
      let t := warn d.warning s
      commitBytes d.bytes t
        { t with res0 := lenWord d.bytes.length, res1 := lenWord d.dlen, res2 := lenWord d.start }

end Sys2Proof.Machine
end

