-- ==== Sys2Proof/Machine/Gf.lean ====
section
/-!
DEFINITION. GF(256) (spec/40_gf256.md R70 to R74): the tables `EXP`, `LOG`, `GEN` (spec/10_state.md R17 to R19), field
arithmetic, and the commands `GFMUL`, `GFDIV`, `GFPMUL`.
-/

namespace Sys2Proof.Machine

/-! ## Tables -/

/-- One step of the construction of `EXP` (R17): `x << 1`, reduced by 0x11D when bit 8 is set. -/
def xtime (x : Byte) : Byte :=
  let y : BitVec 9 := x.setWidth 9 <<< 1
  if y &&& 0x100 ≠ 0 then (y ^^^ 0x11D).setWidth 8 else y.setWidth 8

/-- `n` successive powers of α from `x` on. -/
def powersFrom : Nat → Byte → List Byte
  | 0, _ => []
  | n + 1, x => x :: powersFrom n (xtime x)

/-- `EXP[0..255)` (R17). -/
def expHalf : List Byte := powersFrom 255 1

/-- `EXP`, 510 entries: the second half repeats the first (R17, C1). -/
def expTable : List Byte := expHalf ++ expHalf

/-- `EXP[i]`, `i` in 0..509. -/
def expAt (i : Nat) : Byte := expTable.getD i 0

/-- `LOG[v]` (R18): for `v` in 1..255 the unique `i` in 0..254 with `EXP[i] = v`. `LOG[0]` has no value: it must never
be consulted (R18, R195, U2). -/
def logAt (v : Byte) : Option Nat := expHalf.idxOf? v

/-! ## Field arithmetic -/

/-- `gf_mul` (R71): `LOG` is read at nonzero operands only. -/
def gfMul (a b : Byte) : Byte :=
  if a = 0 ∨ b = 0 then 0
  else
    match logAt a, logAt b with
    | some i, some j => expAt (i + j)
    | _, _ => 0

/-- `gf_div` (R72): no value for divisor 0, tested first (C6, U1). -/
def gfDiv (a b : Byte) : Option Byte :=
  if b = 0 then none
  else if a = 0 then some 0
  else
    match logAt a, logAt b with
    | some i, some j => some (expAt ((i + 255 - j) % 255))
    | _, _ => none

/-- Exclusive-or `v` into element `i` of a list. -/
def xorAt (r : List Byte) (i : Nat) (v : Byte) : List Byte := r.set i (r.getD i 0 ^^^ v)

/-- `poly_mul` (R73): convolution with `gf_mul` and exclusive-or. -/
def polyMul (a b : List Byte) : List Byte :=
  (List.range a.length).foldl
    (fun r i => (List.range b.length).foldl (fun r j => xorAt r (i + j) (gfMul (a.getD i 0) (b.getD j 0))) r)
    (List.replicate (a.length + b.length - 1) 0)

/-- `GEN` (R19, R74): the product of `[1, EXP[i]]` for `i` in 0..31, highest degree first. -/
def genTable : List Byte := (List.range 32).foldl (fun g i => polyMul g [1, expAt i]) [1]

/-! ## Commands -/

/-- `GFMUL` (R71): `RES0 <- zext_32(gf_mul(a, b))`; `E_ARG` for an operand above 255. -/
def execGfmul (s : State) : Answer :=
  match byteOperand s.arg0, byteOperand s.arg1 with
  | some a, some b => succeed { s with res0 := byteWord (gfMul a b) }
  | _, _ => fail .arg s

/-- `GFDIV` (R72): `RES0 <- zext_32(gf_div(a, b))`; `E_ARG` for an operand above 255, then `E_DIV0`. -/
def execGfdiv (s : State) : Answer :=
  match byteOperand s.arg0, byteOperand s.arg1 with
  | some a, some b =>
    match gfDiv a b with
    | some q => succeed { s with res0 := byteWord q }
    | none => fail .div0 s
  | _, _ => fail .arg s

/-- `GFPMUL` (R73): the operands stand back to back in `BIN`; `E_ARG` for an empty one, `E_CAP` when the input or the
product does not fit. -/
def execGfpmul (s : State) : Answer :=
  let la := s.arg0.toNat
  let lb := s.arg1.toNat
  if la = 0 ∨ lb = 0 then fail .arg s
  else if s.params.boutCap < la + lb - 1 then fail .cap s
  else
    withBin (la + lb) s fun bs =>
      commitBytes (polyMul (bs.take la) (bs.drop la)) s { s with res0 := lenWord (la + lb - 1) }

end Sys2Proof.Machine
end

