-- ==== Sys2Proof/Machine/Packet.lean ====
section
/-!
DEFINITION. The packet framer and parser (spec/43_packet.md R105 to R109) and the commands `FRAME` and `PARSE`.
-/

namespace Sys2Proof.Machine

/-- The packet before its CRC (R106): magic, `name_len`, name, `data_len`, payload. -/
def frameBody (nm payload : List Byte) : List Byte :=
  magic ++ [BitVec.ofNat 8 nm.length] ++ nm ++ le32Nat payload.length ++ payload

/-- `frame` (R106): the first 255 bytes of the name; an empty name is `E_NAME`. -/
def frame (name payload : List Byte) : Except ErrCode (List Byte) :=
  if name.length = 0 then .error .name
  else
    let p := frameBody (name.take nameCap) payload
    .ok (p ++ le32 (crc32 p))

/-- `packet_len` (R105). -/
def packetLen (nameLength payloadLength : Nat) : Nat := 13 + nameLength + payloadLength

/-- What `parse` delivers (R107). -/
structure Parsed where
  /-- The name, as found. -/
  name : List Byte
  /-- The payload. -/
  payload : List Byte
  /-- The CRC the packet carries. -/
  stored : Word
  /-- The CRC recomputed over the packet. -/
  computed : Word
  deriving DecidableEq, Repr

/-- `parse` (R107): all sums are on naturals; bytes after the packet are ignored; a CRC mismatch is no error. -/
def parse (buf : List Byte) : Except ErrCode Parsed :=
  let n := buf.length
  if n < packetMin then .error .short
  else if slice buf 0 4 ≠ magic then .error .magic
  else
    let nl := (buf.getD 4 0).toNat
    if n < 5 + nl + 4 then .error .size
    else
      let dl := unle32 (slice buf (5 + nl) 4)
      if n < 9 + nl + dl + 4 then .error .size
      else
        .ok { name := slice buf 5 nl
              payload := slice buf (9 + nl) dl
              stored := BitVec.ofNat 32 (unle32 (slice buf (9 + nl + dl) 4))
              computed := crc32 (slice buf 0 (9 + nl + dl)) }

/-- `W_CRC` of a parsed packet (R107). -/
def Parsed.warning (p : Parsed) : Word := warnIf (p.stored != p.computed) warnCrc

/-- `FRAME` (R106): `RES0 <- packet_len`, `RES1 <-` the name bytes used; `E_NAME`, then `E_CAP`. -/
def execFrame (s : State) : Answer :=
  let plen := s.arg0.toNat
  let nl := nameLen s.arg1
  if nl = 0 then fail .name s
  else if s.params.boutCap < packetLen nl plen then fail .cap s
  else
    withBin plen s fun payload =>
      withName nl s fun name =>
        match frame name payload with
        | .error e => fail e s
        | .ok pkt => commitBytes pkt s { s with res0 := lenWord pkt.length, res1 := lenWord nl }

/-- `PARSE` (R107): `E_CAP`, `E_SHORT`, `E_MAGIC`, `E_SIZE`, `E_CAP`, in this order; `E_SHORT` needs only the length and
comes before the bytes are read ("`PARSE 13` on anything", V11 (f); log entry 7). `W_CRC` stays set when the payload then does not
fit (R15, R36, R170; log entry 14). -/
def execParse (s : State) : Answer :=
  let n := s.arg0.toNat
  if s.params.binCap < n then fail .cap s
  else if n < packetMin then fail .short s
  else
    withBin n s fun buf =>
      match parse buf with
      | .error e => fail e s
      | .ok p =>
        let t := warn p.warning s
        commitBytes p.payload t
          { t with
            namebuf := writeRun s.namebuf 0 p.name
            res0 := lenWord p.payload.length
            res1 := lenWord p.name.length
            res2 := p.stored
            res3 := p.computed }

end Sys2Proof.Machine
end

