-- ==== Sys2Proof/Machine/ReedSolomon.lean ====
section
/-!
DEFINITION. The Reed–Solomon (255,223) codec (spec/41_reed_solomon.md R85 to R92): systematic encoder,
verification-only decoder (`RS_DEC_MODE = VERIFY`, C3), and the commands `RSENC1`, `RSDEC1`, `RSENC`, `RSDEC`.
-/

namespace Sys2Proof.Machine

/-- One round of the division of R87: clear `r[i]` by adding `r[i]` times the generator at `i`. -/
def rsRound (r : List Byte) (i : Nat) : List Byte :=
  let c := r.getD i 0
  if c = 0 then r
  else (List.range (nsym + 1)).foldl (fun r j => xorAt r (i + j) (gfMul (genTable.getD j 0) c)) r

/-- The remainder buffer of R87 after all rounds. -/
def rsDivide (m : List Byte) : List Byte := (List.range rsK).foldl rsRound (m ++ List.replicate nsym 0)

/-- `rs_encode_block` (R87): the message, then the parity. -/
def rsEncodeBlock (m : List Byte) : List Byte := m ++ (rsDivide m).drop rsK

/-- The number of positions at which two byte sequences disagree. -/
def mismatches (e c : List Byte) : Nat := ((e.zip c).filter fun p => p.1 != p.2).length

/-- What `rs_decode_block` finds (R88). -/
structure BlockVerdict where
  /-- The block is accepted: at most `RS_TOL` mismatches. -/
  accept : Bool
  /-- The first 223 bytes, never changed. -/
  message : List Byte
  /-- The mismatch count `d`. -/
  count : Nat
  deriving DecidableEq, Repr

/-- `rs_decode_block` (R88): re-encode the first 223 bytes and compare. -/
def rsDecodeBlock (c : List Byte) : BlockVerdict :=
  let m := c.take rsK
  let d := mismatches (rsEncodeBlock m) c
  { accept := decide (d ≤ rsTol), message := m, count := d }

/-- Block `b` of the message stream, zero-padded to 223 bytes (R89). -/
def messageBlock (data : List Byte) (b : Nat) : List Byte :=
  let blk := slice data (rsK * b) rsK
  blk ++ List.replicate (rsK - blk.length) 0

/-- The number of blocks of a message stream (R89). -/
def blockCount (len : Nat) : Nat := ceilDiv len rsK

/-- `rs_encode` (R89). -/
def rsEncode (data : List Byte) : List Byte :=
  (List.range (blockCount data.length)).flatMap fun b => rsEncodeBlock (messageBlock data b)

/-- What `rs_decode` delivers (R90). -/
structure BatchDecoded where
  /-- The accepted message blocks in order. -/
  out : List Byte
  /-- How many blocks were dropped. -/
  dropped : Nat
  /-- How many whole blocks were seen. -/
  blocks : Nat
  deriving DecidableEq, Repr

/-- `rs_decode` (R90): whole blocks only; rejected blocks are dropped silently. -/
def rsDecode (data : List Byte) : BatchDecoded :=
  let n := data.length / rsN
  let verdicts := (List.range n).map fun b => rsDecodeBlock (slice data (rsN * b) rsN)
  { out := (verdicts.filter fun v => v.accept).flatMap fun v => v.message
    dropped := (verdicts.filter fun v => !v.accept).length
    blocks := n }

/-- `RSENC1` (R87): `RES0 <- 255`. -/
def execRsenc1 (s : State) : Answer :=
  withBin rsK s fun m => commitBytes (rsEncodeBlock m) s { s with res0 := lenWord rsN }

/-- `RSDEC1` (R88): the verdict in `RES0`, the mismatch count in `RES1`; `BOUT` is written only on acceptance.
Rejection is a normal outcome. -/
def execRsdec1 (s : State) : Answer :=
  withBin rsN s fun c =>
    let v := rsDecodeBlock c
    if v.accept then commitBytes v.message s { s with res0 := 1, res1 := lenWord v.count }
    else succeed { s with res0 := 0, res1 := lenWord v.count }

/-- `RSENC` (R89): `RES0` the byte count, `RES1` the block count. -/
def execRsenc (s : State) : Answer :=
  let len := s.arg0.toNat
  let n := blockCount len
  if s.params.boutCap < rsN * n then fail .cap s
  else withBin len s fun data => commitBytes (rsEncode data) s { s with res0 := lenWord (rsN * n), res1 := lenWord n }

/-- `RSDEC` (R90): `RES0` the byte count, `RES1` the dropped and `RES2` the seen blocks. -/
def execRsdec (s : State) : Answer :=
  withBin s.arg0.toNat s fun data =>
    let d := rsDecode data
    commitBytes d.out s { s with res0 := lenWord d.out.length, res1 := lenWord d.dropped, res2 := lenWord d.blocks }

end Sys2Proof.Machine
end

