-- ==== Sys2Proof/Machine/Pipeline.lean ====
section
/-!
DEFINITION. The encode and decode pipelines (spec/46_pipeline.md R155 to R160) and the commands `ENCODE` and `DECODE`:
exact compositions of the other families' functions.
-/

namespace Sys2Proof.Machine

/-- The FEC byte count of a packet of `len` bytes (R156). -/
def fecLen (len : Nat) : Nat := rsN * blockCount len

/-- `encode_file` (R156): frame, encode, modulate; `E_NAME`, `E_LEN`. -/
def encodeFile (A : Arithmetic) (name payload : List Byte) : Except ErrCode (List Sample) :=
  match frame name payload with
  | .error e => .error e
  | .ok pkt =>
    let fec := rsEncode pkt
    if 2 ^ 32 - 1 < fec.length then .error .len else modulate A fec

/-- What `decode_audio` delivers (R157): the warnings of the stages that ran, and the result or the first error. -/
structure DecodedAudio where
  /-- The warning bits raised so far; they are kept when a later stage fails (R15, R158, R170). -/
  warnings : Word
  /-- The parsed packet, the dropped block count and the detected length. -/
  result : Except ErrCode (Parsed × Nat × Nat)

/-- `decode_audio` (R157): demodulate, decode, parse. -/
def decodeAudio (A : Arithmetic) (threshold : Rat) (x : List Sample) : DecodedAudio :=
  match demodulate A threshold x with
  | .error e => { warnings := 0, result := .error e }
  | .ok d =>
    let msg := rsDecode d.bytes
    match parse msg.out with
    | .error e => { warnings := d.warning, result := .error e }
    | .ok p => { warnings := d.warning ||| p.warning, result := .ok (p, msg.dropped, d.dlen) }

/-- `ENCODE` (R156): `RES0` the samples, `RES1` the packet length, `RES2` the FEC byte count; `E_NAME`, `E_CAP`,
`E_LEN`, `E_CAP`, in this order. -/
def execEncode (s : State) : Answer :=
  let plen := s.arg0.toNat
  let nl := nameLen s.arg1
  let pkt := packetLen nl plen
  if nl = 0 then fail .name s
  else if s.params.binCap < plen then fail .cap s
  else if 2 ^ 32 - 1 < fecLen pkt then fail .len s
  else if s.params.soutCap < frameSamples (fecLen pkt) then fail .cap s
  else
    withBin plen s fun payload =>
      withName nl s fun name =>
        match encodeFile s.arithmetic name payload with
        | .error e => fail e s
        | .ok out =>
          commitSamples out s
            { s with res0 := lenWord (frameSamples (fecLen pkt)), res1 := lenWord pkt, res2 := lenWord (fecLen pkt) }

/-- `DECODE` (R157): `RES0` the payload length, `RES1` the name length, `RES2` the dropped blocks, `RES3` the detected
length. Warnings are kept on an error (R158). -/
def execDecode (s : State) : Answer :=
  withSin s.arg0.toNat s fun x =>
    let d := decodeAudio s.arithmetic s.params.syncThreshold x
    let t := warn d.warnings s
    match d.result with
    | .error e => fail e t
    | .ok (p, dropped, dlen) =>
      commitBytes p.payload t
        { t with
          namebuf := writeRun t.namebuf 0 p.name
          res0 := lenWord p.payload.length
          res1 := lenWord p.name.length
          res2 := lenWord dropped
          res3 := lenWord dlen }

end Sys2Proof.Machine
end

