-- ==== Sys2Proof/Machine/Dispatch.lean ====
section
/-!
DEFINITION. The meaning of each command, from the launched state to the completed one (spec/30_encoding.md R52).
-/

namespace Sys2Proof.Machine

open Host

def exec (i : Instr) (s : State) : Host.Outcome State Fault Refusal :=
  match i with
  | .gfmul => Sys2Proof.Machine.execGfmul s
  | .gfdiv => Sys2Proof.Machine.execGfdiv s
  | .gfpmul => Sys2Proof.Machine.execGfpmul s
  | .rsenc1 => Sys2Proof.Machine.execRsenc1 s
  | .rsdec1 => Sys2Proof.Machine.execRsdec1 s
  | .rsenc => Sys2Proof.Machine.execRsenc s
  | .rsdec => Sys2Proof.Machine.execRsdec s
  | .crc32 => Sys2Proof.Machine.execCrc32 s
  | .frame => Sys2Proof.Machine.execFrame s
  | .parse => Sys2Proof.Machine.execParse s
  | .tone => Sys2Proof.Machine.execTone s
  | .preamb => Sys2Proof.Machine.execPreamb s
  | .mod => Sys2Proof.Machine.execMod s
  | .goertz => Sys2Proof.Machine.execGoertz s
  | .syncfind => Sys2Proof.Machine.execSyncfind s
  | .detect => Sys2Proof.Machine.execDetect s
  | .demod => Sys2Proof.Machine.execDemod s
  | .encode => Sys2Proof.Machine.execEncode s
  | .decode => Sys2Proof.Machine.execDecode s

end Sys2Proof.Machine
end

