-- ==== Sys2Proof/Machine/Fetch.lean ====
section
/-!
DEFINITION. Running the command that stands in `CMD` (spec/10_state.md R13, spec/20_memory.md R39). The block fetches
nothing: the word is the one the host wrote.
-/

namespace Sys2Proof.Machine

/-- The block's move: idle, nothing happens (R12); busy, the command in `CMD` runs to its completion as one atomic step
(R199). A busy block holds the word of a command, since the launch completes an illegal word at once (R53, `launch`); in a
state no run reaches, where it does not, the word is illegal all the same. -/
def runBlock (s : State) : Answer :=
  if s.busy then
    match decode s.cmd with
    | .ok i => exec i s
    | .error _ => fail .illegal s
  else .next s

end Sys2Proof.Machine
end

