-- ==== Sys2Proof/Machine/HostPort.lean ====
section
/-!
DEFINITION. The host's side of the block: register access by offset (spec/10_state.md R11, R13), buffer access (R16,
spec/20_memory.md R30, R37, R40), and the reset input (spec/70 R190). Log entries 4, 5, 8, 9, 10, 11, 21.
-/

namespace Sys2Proof.Machine

/-! ## Registers by offset (R11) -/

/-- The registers of R11, and the reserved offsets. -/
inductive RegName where
  | cmd | status | warn | arg0 | arg1 | arg2 | arg3 | res0 | res1 | res2 | res3 | mag | reserved
  deriving DecidableEq, Repr

/-- The offset map of R11: 0x0C and 0x34 to 0xFF are reserved; other offsets name no register. -/
def regAt (off : Nat) : Option RegName :=
  if off = 0x00 then some .cmd
  else if off = 0x04 then some .status
  else if off = 0x08 then some .warn
  else if off = 0x0C then some .reserved
  else if off = 0x10 then some .arg0
  else if off = 0x14 then some .arg1
  else if off = 0x18 then some .arg2
  else if off = 0x1C then some .arg3
  else if off = 0x20 then some .res0
  else if off = 0x24 then some .res1
  else if off = 0x28 then some .res2
  else if off = 0x2C then some .res3
  else if off = 0x30 then some .mag
  else if 0x34 ≤ off ∧ off ≤ 0xFF then some .reserved
  else none

/-- What a register holds, as the host reads it while the block is idle (R11); reserved offsets read 0. -/
def regValue (s : State) : RegName → HostData
  | .cmd => .word s.cmd
  | .status => .word s.status
  | .warn => .word s.warn
  | .arg0 => .word s.arg0
  | .arg1 => .word s.arg1
  | .arg2 => .word s.arg2
  | .arg3 => .word s.arg3
  | .res0 => .word s.res0
  | .res1 => .word s.res1
  | .res2 => .word s.res2
  | .res3 => .word s.res3
  | .mag => .real s.mag
  | .reserved => .word 0

/-- The registers whose value the host must not rely on while the block is busy (R37): any value (U7). -/
def regOpenWhileBusy : RegName → Bool
  | .warn | .res0 | .res1 | .res2 | .res3 | .mag => true
  | .cmd | .status | .arg0 | .arg1 | .arg2 | .arg3 | .reserved => false

/-- A free value of the kind a register holds. -/
def regFree (n : Nat) : RegName → HostData
  | .mag => .real (Config.busyMagnitude n)
  | _ => .word (Config.busyWord n)

/-- The host's read of a register: it changes nothing of the block (R31). That `CMD` and `ARG0..3` read as they are while
the block is busy is DEDUCED, log entry 21. -/
def hostReadReg (off : Nat) (s : State) : Answer :=
  match regAt off with
  | none => .fault (.noSuchRegister off)
  | some r =>
    if s.busy && regOpenWhileBusy r then .next { s with hostData := regFree s.free r, free := s.free + 1 }
    else .next { s with hostData := regValue s r }

/-- The host's write of a register (R11, R13): `CMD` launches while idle, which completes an illegal word at once (R53), and
is ignored while busy; `ARG` registers are written while idle only (R37); all others ignore the write. That the read-only
registers ignore it while the block is busy too is a DESIGN CHOICE, log entry 21: R11 says it of an idle block. -/
def hostWriteReg (off : Nat) (v : Word) (s : State) : Answer :=
  match regAt off with
  | none => .fault (.noSuchRegister off)
  | some .cmd => .next (if s.busy then s else launch v s)
  | some .arg0 => if s.busy then .refused .hostWriteWhileBusy else .next { s with arg0 := v }
  | some .arg1 => if s.busy then .refused .hostWriteWhileBusy else .next { s with arg1 := v }
  | some .arg2 => if s.busy then .refused .hostWriteWhileBusy else .next { s with arg2 := v }
  | some .arg3 => if s.busy then .refused .hostWriteWhileBusy else .next { s with arg3 := v }
  | some .status | some .warn | some .res0 | some .res1 | some .res2 | some .res3 | some .mag | some .reserved =>
    .next s

/-! ## Buffers (R16) -/

/-- The elements of a byte buffer. -/
def byteCells (s : State) : ByteSpace → List Host.Cell
  | .bin => s.bin
  | .bout => s.bout
  | .namebuf => s.namebuf

/-- The elements of a sample buffer. -/
def sampleCells (s : State) : SampleSpace → List (Nat × Sample)
  | .sin => s.sin
  | .sout => s.sout

/-- The capacity of a byte buffer (R7, R16). -/
def byteCap (s : State) : ByteSpace → Nat
  | .bin => s.params.binCap
  | .bout => s.params.boutCap
  | .namebuf => nameCap

/-- The capacity of a sample buffer (R7, R16). -/
def sampleCap (s : State) : SampleSpace → Nat
  | .sin => s.params.sinCap
  | .sout => s.params.soutCap

/-- The name of a byte buffer in a fault. -/
def ByteSpace.space : ByteSpace → Space
  | .bin => .bin
  | .bout => .bout
  | .namebuf => .namebuf

/-- The name of a sample buffer in a fault. -/
def SampleSpace.space : SampleSpace → Space
  | .sin => .sin
  | .sout => .sout

/-- The host's write of bytes: `BIN` and `NAMEBUF` while idle only (R37); `BOUT` always ("writes permitted, no use"). -/
def hostWriteBytes (sp : ByteSpace) (off : Nat) (bs : List Byte) (s : State) : Answer :=
  if byteCap s sp < off + bs.length then .fault (.noSuchElement (ByteSpace.space sp))
  else
    match sp with
    | .bin => if s.busy then .refused .hostWriteWhileBusy else .next { s with bin := writeRun s.bin off bs }
    | .namebuf => if s.busy then .refused .hostWriteWhileBusy else .next { s with namebuf := writeRun s.namebuf off bs }
    | .bout => .next { s with bout := writeRun s.bout off bs }

/-- The host's write of samples: `SIN` while idle only (R37); R16 gives the host no write of `SOUT`. The data are kept
in the buffer form of `Sample` (log entry 18). -/
def hostWriteSamples (sp : SampleSpace) (off : Nat) (xs : List Sample) (s : State) : Answer :=
  match sp with
  | .sout => .refused .hostWriteToSout
  | .sin =>
    if s.params.sinCap < off + xs.length then .fault (.noSuchElement .sin)
    else if s.busy then .refused .hostWriteWhileBusy
    else .next { s with sin := writeRun s.sin off (xs.map RealSum.normalise) }

/-- The host's read of a byte: `BOUT` and `NAMEBUF` while busy give any value (R37, U7). -/
def hostReadByte (sp : ByteSpace) (off : Nat) (s : State) : Answer :=
  if byteCap s sp ≤ off then .fault (.noSuchElement (ByteSpace.space sp))
  else if s.busy && sp != .bin then .next { s with hostData := .byte (Config.busyByte s.free), free := s.free + 1 }
  else
    match readElem (byteCells s sp) off with
    | none => .fault (.unwrittenElement (ByteSpace.space sp))
    | some b => .next { s with hostData := .byte b }

/-- The host's read of a sample: `SOUT` while busy gives any value (R37, U7). -/
def hostReadSample (sp : SampleSpace) (off : Nat) (s : State) : Answer :=
  if sampleCap s sp ≤ off then .fault (.noSuchElement (SampleSpace.space sp))
  else if s.busy && sp != .sin then .next { s with hostData := .sample (Config.busySample s.free), free := s.free + 1 }
  else
    match readElem (sampleCells s sp) off with
    | none => .fault (.unwrittenElement (SampleSpace.space sp))
    | some x => .next { s with hostData := .sample x }

/-- The free bytes a host that copies from an output buffer while busy reads (U7). -/
def busyBytes : Nat → Nat → List Byte
  | 0, _ => []
  | n + 1, i => Config.busyByte i :: busyBytes n (i + 1)

/-- The host's copy between byte buffers (R62): read `[a, b)`, then write at `off`. A copy out of `BOUT` or `NAMEBUF`
while busy copies any values (R37, U7). -/
def hostCopyBytes (dst : ByteSpace) (off : Nat) (src : ByteSpace) (a b : Nat) (s : State) : Answer :=
  if byteCap s src < max a b then .fault (.noSuchElement (ByteSpace.space src))
  else if s.busy && src != .bin then
    hostWriteBytes dst off (busyBytes (b - a) s.free) { s with free := s.free + (b - a) }
  else
    match readRun (byteCells s src) a (b - a) with
    | none => .fault (.unwrittenElement (ByteSpace.space src))
    | some bs => hostWriteBytes dst off bs s

/-- The host's copy between sample buffers (R62). While busy the destination is refused (R37, R16), so no free value is
needed here. -/
def hostCopySamples (dst : SampleSpace) (off : Nat) (src : SampleSpace) (a b : Nat) (s : State) : Answer :=
  if sampleCap s src < max a b then .fault (.noSuchElement (SampleSpace.space src))
  else
    match readRun (sampleCells s src) a (b - a) with
    | none => .fault (.unwrittenElement (SampleSpace.space src))
    | some xs => hostWriteSamples dst off xs s

/-! ## Reset (R190) -/

/-- The reset input. Every register and the buffers go to the state of R190; a reset during a command abandons it and
"the buffers keep their pre-launch contents" (R190). The parameters are the machine's, and `inbox`, `hostData` and
`free` the model's own. DEDUCED, log entry 11. -/
def resetBlock (s : State) : State :=
  let r := { State.reset with params := s.params, inbox := s.inbox, hostData := s.hostData, free := s.free }
  if s.busy then { r with bin := s.bin, bout := s.bout, namebuf := s.namebuf, sin := s.sin, sout := s.sout } else r

/-- One action of the host but `wait`, in which the block moves (see `step`). -/
def hostAct (e : HostEvent) (s : State) : Answer :=
  match e with
  | .writeReg off v => hostWriteReg off v s
  | .readReg off => hostReadReg off s
  | .writeBytes sp off bs => hostWriteBytes sp off bs s
  | .writeSamples sp off xs => hostWriteSamples sp off xs s
  | .readByte sp off => hostReadByte sp off s
  | .readSample sp off => hostReadSample sp off s
  | .copyBytes dst off src a b => hostCopyBytes dst off src a b s
  | .copySamples dst off src a b => hostCopySamples dst off src a b s
  | .wait => .next s
  | .resetInput => .next (resetBlock s)

end Sys2Proof.Machine
end

