-- ==== Sys2Proof/Machine/Step.lean ====
section
/-!
DEFINITION. One step: the block's or the host's, as the head of `inbox` says (log entry 5).
-/

namespace Sys2Proof.Machine

/-- One step. With no host action to come, or with the host waiting for `DONE` (R62), the block moves; otherwise the
host's next action takes place. -/
def step (s : State) : Host.Outcome State Fault Refusal :=
  match s.inbox with
  | [] => runBlock s
  | .wait :: rest => runBlock { s with inbox := rest }
  | e :: rest => hostAct e { s with inbox := rest }

/-- `s` with the command word `w` launched (R13: `CMD` written while idle) and the host waiting for its completion, so
that the very next step runs it. It stands for the host's write to `CMD` (log entry 5). -/
def State.withFetchWord (s : State) (nbits w : Nat) : State :=
  let launched := launch (BitVec.ofNat 32 (w % 2 ^ nbits)) s
  { launched with inbox := .wait :: s.inbox }

end Sys2Proof.Machine
end

