-- ==== Sys2Proof/Machine/RealValue.lean ====
section
/-!
DEFINITION. The function layer of the modem over the mathematical reals
(spec/00_scope.md R3, R8): the formulas of spec/44_modulator.md R121 and spec/45_demodulator.md R135, R136 for any real
frequency. Claims about the modem are stated in these terms; the machine itself never uses this file.
-/

namespace Sys2Proof.Machine

/-- The envelope over the reals (R121). -/
noncomputable def realEnv (i : ℕ) : ℝ :=
  if i ≤ 131 then i / 132 else if i ≤ 1190 then 1 else (1322 - i) / 132

/-- `tone(f)[i]` over the reals, for any real frequency (R121). -/
noncomputable def realTone (f : ℝ) (i : ℕ) : ℝ := 0.7 * Real.sin (2 * Real.pi * f * i / 44100) * realEnv i

/-- One iteration of the Goertzel recurrence over the reals: the pair is `(q1, q2)` (R135). -/
noncomputable def realGoertzelStep (c : ℝ) (q : ℝ × ℝ) (x : ℝ) : ℝ × ℝ := (c * q.1 - q.2 + x, q.1)

/-- `goertzel` over the reals for one window and any real frequency (R135). -/
noncomputable def realGoertzel (window : List ℝ) (f : ℝ) : ℝ :=
  let w := 2 * Real.pi * f / 44100
  let q := window.foldl (realGoertzelStep (2 * Real.cos w)) (0, 0)
  Real.sqrt ((q.1 - q.2 * Real.cos w) ^ 2 + (q.2 * Real.sin w) ^ 2)

/-- The modulus of the windowed Fourier sum `|Σ x[i]·e^(-jωi)|` (R136 (a)). -/
noncomputable def fourierModulus (window : List ℝ) (f : ℝ) : ℝ :=
  ‖(window.zipIdx.map fun t =>
    (t.1 : ℂ) * Complex.exp (-(Complex.I * ((2 * Real.pi * f / 44100 : ℝ) : ℂ) * (t.2 : ℂ)))).sum‖

end Sys2Proof.Machine
end

