-- ==== Sys2Proof/Machine/Reference.lean ====
section
/-!
DEFINITION. Second definitions of the byte arithmetic, as the spec gives or permits them, independent of the ones the
commands use. Claims compare the two; the machine never uses this file.
-/

namespace Sys2Proof.Machine

/-- The carry-less product of two bytes: the product of the two polynomials over GF(2) (R70). -/
def carrylessProduct (a b : Byte) : BitVec 16 :=
  (List.range 8).foldl (fun p i => if b.getLsbD i then p ^^^ (a.setWidth 16 <<< i) else p) 0

/-- Reduction of a polynomial of degree at most 14 modulo `x^8 + x^4 + x^3 + x^2 + 1`, 0x11D (R70). -/
def reducePoly (p : BitVec 16) : Byte :=
  ([6, 5, 4, 3, 2, 1, 0].foldl (fun p i => if p.getLsbD (i + 8) then p ^^^ (0x11D#16 <<< i) else p) p).setWidth 8

/-- Multiplication in GF(2^8) by shift and reduce (R70: "the two definitions agree"). -/
def shiftReduceMul (a b : Byte) : Byte := reducePoly (carrylessProduct a b)

/-- The coefficient with index `k` of the product of two polynomials (R73): the sum of `a[i]·b[k-i]`. -/
def productCoeff (a b : List Byte) (k : Nat) : Byte :=
  ((List.range (k + 1)).map fun i => gfMul (a.getD i 0) (b.getD (k - i) 0)).foldl (· ^^^ ·) 0

/-- The value at `x` of the polynomial whose coefficients, highest degree first, are `c` (R85, V5). -/
def polyEval (c : List Byte) (x : Byte) : Byte := c.foldl (fun acc b => gfMul acc x ^^^ b) 0

/-- The bytewise exclusive-or of two sequences (R87). -/
def xorBytes (a b : List Byte) : List Byte := List.zipWith (· ^^^ ·) a b

/-- The table of the table-driven CRC (R102): `T[n]` is the register after eight shifts from `n`. -/
def crcTableEntry (n : Byte) : Word := crcShifts 8 (n.setWidth 32)

/-- The byte step of the table-driven CRC (R102): `T[(c ^ b) & 0xFF] ^ (c >> 8)`. -/
def crcTableByte (c : Word) (b : Byte) : Word := crcTableEntry ((c ^^^ b.setWidth 32).setWidth 8) ^^^ (c >>> 8)

/-- A sequence with bit `j` of byte `i` flipped (R108). -/
def flipBit (p : List Byte) (i j : Nat) : List Byte := p.set i (p.getD i 0 ^^^ (1#8 <<< j))

end Sys2Proof.Machine
end

