-- ==== Sys2Proof/Machine/Script.lean ====
section
/-!
DEFINITION. The host-script syntax (spec/30_encoding.md R62) as host actions, and the pseudo-commands of R63, which have
no opcode of their own.
-/

namespace Sys2Proof.Machine

/-- The writes of the arguments a line gives: `ARG0`, `ARG1`, `ARG2` in order (R62; offsets R11). -/
def argWrites : Nat → List Word → List HostEvent
  | _, [] => []
  | off, v :: rest => .writeReg off v :: argWrites (off + 4) rest

/-- A line `MNEMONIC arg0, arg1, arg2` (R62): the argument writes, the opcode to `CMD`, then the wait for `DONE`.
Omitted arguments leave the registers as they were. -/
def scriptLine (i : Instr) (args : List Word) : List HostEvent :=
  argWrites 0x10 (args.take 3) ++ [.writeReg 0x00 (encode i), .wait]

/-- `SYNCTONE` is `TONE 256` (R63). -/
def scriptSynctone : List HostEvent := scriptLine .tone [256]

/-- `SYM k` is `TONE k` (R63). -/
def scriptSym (k : Byte) : List HostEvent := scriptLine .tone [k.setWidth 32]

/-- `GFINV a` is `GFDIV 1, a` (R63). -/
def scriptGfinv (a : Word) : List HostEvent := scriptLine .gfdiv [1, a]

end Sys2Proof.Machine
end

