-- ==== Sys2Proof/Safety.lean ====
section
/-!
DEFINITION. The terms claims use: the invariant every step keeps, and what each command may write
(spec/30_encoding.md R54).
-/

namespace Sys2Proof.Machine

/-- The values `STATUS` can hold (R14, R166): the reset value, the launch value, or a completion with a code of R166. -/
def legalStatus (w : Word) : Prop :=
  w = 0 ∨ w = 0x00000001 ∨ ∃ c : Byte, c.toNat ≤ 0x0B ∧ w = 0x00000002 ||| (c.setWidth 32 <<< 8)

/-- The values `WARN` can hold: only `W_TRUNC` (bit 0), `W_TONE` (bit 1) and `W_CRC` (bit 2) are ever set (R15), and
`W_TONE` is unreachable under exact reals (R141, U10). -/
def legalWarn (n : Numerics) (w : Word) : Prop := w &&& ~~~(0x7#32) = 0 ∧ (n = .exact → w &&& 0x2#32 = 0)

/-- Every sample of a buffer is a real in buffer form. -/
def samplesOk (m : List (Nat × Sample)) : Prop := ∀ c ∈ m, Sample.ok c.2 = true

/-- The invariant of the machine: buffers in canonical form and inside their capacities, reals in buffer form, `STATUS` and
`WARN` legal, parameters in their ranges, and a busy block holds the word of a command (R53: an illegal word never makes
the block busy for longer than its launch). -/
def StateOk (s : State) : Prop :=
  Memory.wf s = true ∧ samplesOk s.sin ∧ samplesOk s.sout ∧ Sample.ok s.mag.square = true ∧
  legalStatus s.status ∧ legalWarn s.params.numerics s.warn ∧ s.params.ok = true ∧
  (s.busy = true → ∃ i, decode s.cmd = .ok i)

/-- The warning bits the stages of a command raise when it is launched in `s` (R15): `W_CRC` of a packet that parses with
two CRCs that differ (R107), `W_TRUNC` and `W_TONE` of audio that demodulates (R140, R141), and for `DECODE` both, the
second of the packet in the decoded bytes (R157, R158). No other command raises one, and none does when its input is longer
than its buffer. -/
def stageWarnings (i : Instr) (s : State) : Word :=
  match i with
  | .parse =>
    if s.params.binCap < s.arg0.toNat then 0
    else
      match (readRun s.bin 0 s.arg0.toNat).map parse with
      | some (.ok p) => if p.stored = p.computed then 0 else 0x4
      | _ => 0
  | .demod =>
    if s.params.sinCap < s.arg0.toNat then 0
    else
      match (readRun s.sin 0 s.arg0.toNat).map (demodulate s.arithmetic s.params.syncThreshold) with
      | some (.ok d) => (if d.truncated then 0x1 else 0) ||| (if d.lost then 0x2 else 0)
      | _ => 0
  | .decode =>
    if s.params.sinCap < s.arg0.toNat then 0
    else
      match (readRun s.sin 0 s.arg0.toNat).map (demodulate s.arithmetic s.params.syncThreshold) with
      | some (.ok d) =>
        (if d.truncated then 0x1 else 0) ||| (if d.lost then 0x2 else 0) |||
          match parse (rsDecode d.bytes).out with
          | .ok p => if p.stored = p.computed then 0 else 0x4
          | .error _ => 0
      | _ => 0
  | .gfmul | .gfdiv | .gfpmul | .rsenc1 | .rsdec1 | .rsenc | .rsdec | .crc32 | .frame | .tone | .preamb | .mod | .goertz
  | .syncfind | .detect | .encode => 0

/-- How many elements of `BOUT`, from offset 0, a command that ended `OK` in `t` has written (R54). -/
def boutWritten (i : Instr) (t : State) : Nat :=
  match i with
  | .gfpmul | .rsenc1 | .rsenc | .rsdec | .frame | .parse | .demod | .decode => t.res0.toNat
  | .rsdec1 => 223 * t.res0.toNat
  | .syncfind => 4 * t.res0.toNat
  | .gfmul | .gfdiv | .crc32 | .tone | .preamb | .mod | .goertz | .detect | .encode => 0

/-- How many elements of `SOUT`, from offset 0, a command that ended `OK` in `t` has written (R54). -/
def soutWritten (i : Instr) (t : State) : Nat :=
  match i with
  | .tone | .preamb | .mod | .encode => t.res0.toNat
  | .gfmul | .gfdiv | .gfpmul | .rsenc1 | .rsdec1 | .rsenc | .rsdec | .crc32 | .frame | .parse | .goertz | .syncfind
  | .detect | .demod | .decode => 0

/-- How many elements of `NAMEBUF`, from offset 0, a command that ended `OK` in `t` has written (R54). -/
def nameWritten (i : Instr) (t : State) : Nat :=
  match i with
  | .parse | .decode => t.res1.toNat
  | .gfmul | .gfdiv | .gfpmul | .rsenc1 | .rsdec1 | .rsenc | .rsdec | .crc32 | .frame | .tone | .preamb | .mod | .goertz
  | .syncfind | .detect | .demod | .encode => 0

/-- The table of R54 says that a command writes `RES0`. -/
def writesRes0 : Instr → Bool
  | .goertz => false
  | .gfmul | .gfdiv | .gfpmul | .rsenc1 | .rsdec1 | .rsenc | .rsdec | .crc32 | .frame | .parse | .tone | .preamb | .mod
  | .syncfind | .detect | .demod | .encode | .decode => true

/-- The table of R54 says that a command writes `RES1`. -/
def writesRes1 : Instr → Bool
  | .rsdec1 | .rsenc | .rsdec | .frame | .parse | .syncfind | .demod | .encode | .decode => true
  | .gfmul | .gfdiv | .gfpmul | .rsenc1 | .crc32 | .tone | .preamb | .mod | .goertz | .detect => false

/-- The table of R54 says that a command writes `RES2`. -/
def writesRes2 : Instr → Bool
  | .rsdec | .parse | .demod | .encode | .decode => true
  | .gfmul | .gfdiv | .gfpmul | .rsenc1 | .rsdec1 | .rsenc | .crc32 | .frame | .tone | .preamb | .mod | .goertz
  | .syncfind | .detect => false

/-- The table of R54 says that a command writes `RES3`. -/
def writesRes3 : Instr → Bool
  | .parse | .decode => true
  | .gfmul | .gfdiv | .gfpmul | .rsenc1 | .rsdec1 | .rsenc | .rsdec | .crc32 | .frame | .tone | .preamb | .mod | .goertz
  | .syncfind | .detect | .demod | .encode => false

/-- The table of R54 says that a command writes `MAG` (R11: "written by `GOERTZ` and `DETECT` only"). -/
def writesMag : Instr → Bool
  | .goertz | .detect => true
  | .gfmul | .gfdiv | .gfpmul | .rsenc1 | .rsdec1 | .rsenc | .rsdec | .crc32 | .frame | .parse | .tone | .preamb | .mod
  | .syncfind | .demod | .encode | .decode => false

end Sys2Proof.Machine
end

