-- ==== Sys2Proof/Certificates/Slice0/Obligations.lean ====
section
/-!
DEFINITION. The statements for the provers. Each docstring names the rule of spec/ it formalises. A result statement
writes the next state as the state before with the named fields changed, so it is a frame as well: every other field,
buffers included, is unchanged. `writeRun` changes the written elements only (R30): which elements that are,
`OutputsBeyondTheResultKeepTheirValues` says once for all commands. The arithmetic of the modem is the parameter `NUMERICS`
(R7, log entry 1): what a command does is stated for every arithmetic, what its numbers are for the exact one,
`exactArithmetic`.

R190: "reading it is a fault of the model". The statement of each command that reads a buffer has a clause that says when the
command stops with the fault `unwrittenElement`: the checks that need no data pass and an element its binding names holds no
value. Log entry 7 says where this stands among the checks.
-/

open Sys2Proof Sys2Proof.Machine

/-! ## Encoding and stepping -/

/-- R50, R51, R52, R53: decode and encode agree: a word is the word of exactly one command or it is illegal, and the word
of every command is legal, has the command's opcode of the table in bits 7:0 and zeros above. -/
def Obligations.WordIsOneCommandOrIllegal : Prop :=
  (∀ (w : Word) (i : Instr), decode w = .ok i ↔ w = encode i) ∧
  (∀ w : Word, (commandWordOk w = true ↔ ∃ i : Instr, decode w = .ok i) ∧
    (commandWordOk w = false ↔ ∃ e, decode w = .error e)) ∧
  (∀ i : Instr, commandWordOk (encode i) = true ∧ (encode i).setWidth 8 = opcodeOf i ∧ encode i >>> 8 = 0)

/-- R52, R53: the 19 words of the table, written out from it, decode to the 19 commands of the table; a word with a bit of
31:8 set, a word whose opcode is not listed and the word 0 are illegal. -/
def Obligations.ListedWordsDecodeAsTheTableSays : Prop :=
  decode 0x00000010 = .ok .gfmul ∧ decode 0x00000011 = .ok .gfdiv ∧ decode 0x00000012 = .ok .gfpmul ∧
  decode 0x00000020 = .ok .rsenc1 ∧ decode 0x00000021 = .ok .rsdec1 ∧ decode 0x00000022 = .ok .rsenc ∧
  decode 0x00000023 = .ok .rsdec ∧ decode 0x00000030 = .ok .crc32 ∧ decode 0x00000040 = .ok .frame ∧
  decode 0x00000041 = .ok .parse ∧ decode 0x00000050 = .ok .tone ∧ decode 0x00000051 = .ok .preamb ∧
  decode 0x00000052 = .ok .mod ∧ decode 0x00000060 = .ok .goertz ∧ decode 0x00000061 = .ok .syncfind ∧
  decode 0x00000062 = .ok .detect ∧ decode 0x00000063 = .ok .demod ∧ decode 0x00000070 = .ok .encode ∧
  decode 0x00000071 = .ok .decode ∧
  decode 0x00000110 = .error .zeroFieldSet ∧ decode 0x80000071 = .error .zeroFieldSet ∧
  decode 0x00000013 = .error .unlistedOpcode ∧ decode 0x00000000 = .error .unlistedOpcode

/-- R13, R199, R12: when the block is busy and `CMD` holds the word of a command, a step in which the block moves is that
command; an idle block moves nothing. The block moves when no host action is to come, or when the host waits (the wait
is consumed): the `inbox` and `withFetchWord` are the model's choice, log entry 5. -/
def Obligations.StepRunsTheCommandInCmd : Prop :=
  (∀ (s : State) (i : Instr), s.busy = true → decode s.cmd = .ok i →
    (s.inbox = [] → step s = exec i s) ∧
    (∀ rest, s.inbox = .wait :: rest → step s = exec i { s with inbox := rest })) ∧
  (∀ s : State, s.busy = false → s.inbox = [] → step s = .next s) ∧
  (∀ (s : State) (i : Instr),
    step (s.withFetchWord 32 (encode i).toNat) =
      exec i { s with cmd := encode i, status := 0x00000001, warn := 0 })

/-- R53, R166: an illegal word, written to `CMD` while idle, completes at once with `E_ILLEGAL`: in the step of the write
`CMD` takes the word (R13), `STATUS` becomes 0x00000102 and `WARN` 0, and nothing else changes, so the block is never busy
with it. -/
def Obligations.IllegalWordCompletesAtOnce : Prop :=
  ∀ (s : State) (w : Word) (rest : List HostEvent), s.busy = false → (∀ i : Instr, w ≠ encode i) →
    s.inbox = .writeReg 0x00 w :: rest →
    ∃ t, t = { s with cmd := w, status := 0x00000102, warn := 0, inbox := rest } ∧ step s = .next t ∧
      t.busy = false ∧ t.done = true ∧ t.err = 0x01

/-- R13, R14, R15: the write of a command's word to `CMD` while idle stores the word, sets `STATUS` to 1 and clears
`WARN`; any write while busy is ignored. -/
def Obligations.CmdWriteLaunchesOnlyWhenIdle : Prop :=
  ∀ (s : State) (w : Word) (rest : List HostEvent), s.inbox = .writeReg 0x00 w :: rest →
    (s.busy = false → ∀ i : Instr, w = encode i →
      step s = .next { s with cmd := w, status := 0x00000001, warn := 0, inbox := rest }) ∧
    (s.busy = true → step s = .next { s with inbox := rest })

/-- R190: the registers after reset are 0, `MAG` is real 0, no buffer element holds a value, the threshold is its
default 10 (R7), and the block is idle. -/
def Obligations.ResetLeavesRegistersZero : Prop :=
  State.reset.cmd = 0 ∧ State.reset.status = 0 ∧ State.reset.warn = 0 ∧
  State.reset.arg0 = 0 ∧ State.reset.arg1 = 0 ∧ State.reset.arg2 = 0 ∧ State.reset.arg3 = 0 ∧
  State.reset.res0 = 0 ∧ State.reset.res1 = 0 ∧ State.reset.res2 = 0 ∧ State.reset.res3 = 0 ∧
  magOf State.reset.mag = 0 ∧ State.reset.busy = false ∧ State.reset.params.syncThreshold = 10 ∧
  ∀ a, readElem State.reset.bin a = none ∧ readElem State.reset.bout a = none ∧
    readElem State.reset.namebuf a = none ∧ readElem State.reset.sin a = none ∧ readElem State.reset.sout a = none

/-- The invariant holds after reset (R7, R190), whatever the open capacities are. -/
def Obligations.ResetStateIsOk : Prop := StateOk State.reset

/-- Every step keeps the invariant: buffers canonical and inside their capacities, reals in buffer form, `STATUS` and
`WARN` legal (so `W_TONE` is never set under exact reals, R141, U10), parameters in their ranges, and a busy block holds
the word of a command (R53). No step changes the parameters (R7). -/
def Obligations.EveryStepKeepsStateOk : Prop :=
  (∀ s t : State, StateOk s → step s = .next t → StateOk t) ∧
  (∀ s t : State, step s = .next t → t.params = s.params)

/-! ## Rules about all commands -/

/-- R14, R165, R166: a command that answers a next state has completed: `STATUS` is `0x2 | (code << 8)` with a code of
R166, so BUSY is 0 and DONE is 1. -/
def Obligations.AnsweredCommandHasALegalStatus : Prop :=
  ∀ (i : Instr) (s t : State), exec i s = .next t →
    (∃ c : Byte, c.toNat ≤ 0x0B ∧ t.status = 0x00000002 ||| (c.setWidth 32 <<< 8) ∧ t.err = c) ∧
    t.busy = false ∧ t.done = true

/-- R171, R15, R36, R170: a command's `WARN` is the one it was launched with and the bits its stages raised, so for
every command but `PARSE`, `DEMOD` and `DECODE` it is unchanged (`stageWarnings` is 0). A command that raises an error
writes `0x2 | (code << 8)` to `STATUS`; no other state changes. That the raised bits stand on an `E_CAP` too is the
model's reading, log entry 14. The last clause is the one error that is raised by the launch (R53). -/
def Obligations.ErrorLeavesTheStateAsLaunched : Prop :=
  (∀ (i : Instr) (s t : State), exec i s = .next t → t.warn = s.warn ||| stageWarnings i s) ∧
  (∀ (i : Instr) (s t : State), exec i s = .next t → t.err ≠ 0 →
    t = { s with status := t.status, warn := s.warn ||| stageWarnings i s } ∧
    t.status = 0x00000002 ||| (t.err.setWidth 32 <<< 8) ∧ t.busy = false ∧ t.done = true) ∧
  (∀ (s : State) (w : Word) (e : DecodeError), decode w = .error e →
    launch w s = { s with cmd := w, status := 0x00000102, warn := 0 })

/-- R54, R11, R16, R31, R36: no command writes `CMD`, `ARG0..3`, `BIN` or `SIN`, nor the parameters and the model's own
fields; and it writes no result register the table of R54 does not name for it. -/
def Obligations.CommandsWriteOnlyWhatTheTableNames : Prop :=
  ∀ (i : Instr) (s t : State), exec i s = .next t →
    (t.cmd = s.cmd ∧ t.arg0 = s.arg0 ∧ t.arg1 = s.arg1 ∧ t.arg2 = s.arg2 ∧ t.arg3 = s.arg3 ∧
      t.bin = s.bin ∧ t.sin = s.sin ∧ t.params = s.params ∧ t.inbox = s.inbox ∧ t.hostData = s.hostData ∧
      t.free = s.free) ∧
    (writesRes0 i = false → t.res0 = s.res0) ∧ (writesRes1 i = false → t.res1 = s.res1) ∧
    (writesRes2 i = false → t.res2 = s.res2) ∧ (writesRes3 i = false → t.res3 = s.res3) ∧
    (writesMag i = false → t.mag = s.mag)

/-- R36, R54: elements of an output buffer beyond the written length keep their values; a buffer the command does not
write keeps all of them. -/
def Obligations.OutputsBeyondTheResultKeepTheirValues : Prop :=
  ∀ (i : Instr) (s t : State), s.params.ok = true → exec i s = .next t → t.err = 0 →
    (∀ a, boutWritten i t ≤ a → readElem t.bout a = readElem s.bout a) ∧
    (∀ a, soutWritten i t ≤ a → readElem t.sout a = readElem s.sout a) ∧
    (∀ a, nameWritten i t ≤ a → readElem t.namebuf a = readElem s.namebuf a)

/-! ## GF(256) -/

/-- R71: `GFMUL`, whole: function, binding, encoding, errors, corner cases, examples. That `LOG[0]` has no value is the
model's reading of R18, log entry 15 (DEDUCED). -/
def Obligations.GfmulWritesTheFieldProduct : Prop :=
  (∀ (s : State) (a b : Byte), s.arg0 = a.setWidth 32 → s.arg1 = b.setWidth 32 →
    exec .gfmul s = .next { s with res0 := (gfMul a b).setWidth 32, status := 0x00000002 }) ∧
  (∀ s : State, 255 < s.arg0.toNat ∨ 255 < s.arg1.toNat → exec .gfmul s = .next { s with status := 0x00000202 }) ∧
  encode .gfmul = 0x10 ∧
  (∀ a : Byte, gfMul a 0 = 0 ∧ gfMul 0 a = 0 ∧ gfMul a 1 = a) ∧
  (∀ (a b : Byte) (i j : Nat), logAt a = some i → logAt b = some j → gfMul a b = expAt (i + j) ∧ i + j ≤ 508) ∧
  (∀ a b : Byte, gfMul a b = gfMul b a) ∧ logAt 0 = none ∧ logAt 0x8E = some 254 ∧
  gfMul 2 128 = 0x1D ∧ gfMul 0x53 0xCA = 0x8F

/-- R72: `GFDIV`, whole: the divisor 0 is an error whatever the dividend; otherwise the quotient. -/
def Obligations.GfdivWritesTheQuotient : Prop :=
  (∀ (s : State) (a b : Byte), s.arg0 = a.setWidth 32 → s.arg1 = b.setWidth 32 →
    (b = 0 → exec .gfdiv s = .next { s with status := 0x00000402 }) ∧
    (b ≠ 0 → ∃ q : Byte, gfDiv a b = some q ∧ gfMul q b = a ∧
      exec .gfdiv s = .next { s with res0 := q.setWidth 32, status := 0x00000002 })) ∧
  (∀ s : State, 255 < s.arg0.toNat ∨ 255 < s.arg1.toNat → exec .gfdiv s = .next { s with status := 0x00000202 }) ∧
  encode .gfdiv = 0x11 ∧
  (∀ (a b : Byte) (i j : Nat), logAt a = some i → logAt b = some j → gfDiv a b = some (expAt ((i + 255 - j) % 255))) ∧
  (∀ b : Byte, b ≠ 0 → gfDiv 0 b = some 0 ∧ gfDiv b b = some 1) ∧ (∀ a : Byte, gfDiv a 1 = some a) ∧
  gfDiv 1 2 = some 0x8E ∧ gfDiv 0x1D 2 = some 0x80 ∧ gfDiv 0 7 = some 0

/-- R73: `GFPMUL`: the convolution of the two operands that stand back to back in `BIN`, whose coefficients are the sums
of products that make a polynomial product; its errors; and the fault of R190 when an element of an operand holds no
value (log entry 7: after both capacity checks). -/
def Obligations.GfpmulWritesTheConvolution : Prop :=
  (∀ (s : State) (a b : List Byte), 0 < a.length → 0 < b.length →
    s.arg0.toNat = a.length → s.arg1.toNat = b.length →
    a.length + b.length ≤ s.params.binCap → a.length + b.length - 1 ≤ s.params.boutCap →
    readRun s.bin 0 (a.length + b.length) = some (a ++ b) →
    (polyMul a b).length = a.length + b.length - 1 ∧
    (∀ k, k < a.length + b.length - 1 → (polyMul a b)[k]? = some (productCoeff a b k)) ∧
    exec .gfpmul s = .next { s with
      bout := writeRun s.bout 0 (polyMul a b)
      res0 := BitVec.ofNat 32 (a.length + b.length - 1)
      status := 0x00000002 }) ∧
  (∀ s : State, s.arg0 = 0 ∨ s.arg1 = 0 → exec .gfpmul s = .next { s with status := 0x00000202 }) ∧
  (∀ s : State, s.arg0 ≠ 0 → s.arg1 ≠ 0 →
    s.params.binCap < s.arg0.toNat + s.arg1.toNat ∨ s.params.boutCap < s.arg0.toNat + s.arg1.toNat - 1 →
    exec .gfpmul s = .next { s with status := 0x00000302 }) ∧
  (∀ (s : State) (a : ℕ), s.arg0 ≠ 0 → s.arg1 ≠ 0 → s.arg0.toNat + s.arg1.toNat ≤ s.params.binCap →
    s.arg0.toNat + s.arg1.toNat - 1 ≤ s.params.boutCap →
    a < s.arg0.toNat + s.arg1.toNat → readElem s.bin a = none →
    exec .gfpmul s = .fault (.unwrittenElement .bin)) ∧
  encode .gfpmul = 0x12 ∧
  polyMul [0, 1] [1, 0] = [0, 1, 0] ∧ polyMul [5] [7] = [0x1B] ∧ polyMul [1, 1] [1, 2] = [1, 3, 2] ∧
  polyMul [1, 3, 2] [1, 4] = [1, 7, 0x0E, 8]

/-- R75: the laws the source states. -/
def Obligations.GfLawsOfTheSource : Prop :=
  (∀ a b : Byte, gfMul a b = gfMul b a) ∧ (∀ a : Byte, gfMul a 1 = a) ∧ (∀ a : Byte, gfMul a 0 = 0) ∧
  (∀ a : Byte, a ≠ 0 → ∃ q : Byte, gfDiv 1 a = some q ∧ gfMul a q = 1) ∧
  (∀ i, i ≤ 254 → logAt (expAt i) = some i)

/-- R70, R76: multiplication through the tables is multiplication of polynomials modulo 0x11D; the tables are inverse to
each other, the product is associative and distributes, and division undoes multiplication. -/
def Obligations.GfIsAField : Prop :=
  (∀ a b : Byte, gfMul a b = shiftReduceMul a b) ∧
  (∀ (v : Byte) (i : Nat), logAt v = some i → expAt i = v ∧ i ≤ 254) ∧ (∀ v : Byte, v ≠ 0 → ∃ i, logAt v = some i) ∧
  (∀ i, i ≤ 254 → expAt (i + 255) = expAt i) ∧
  (∀ a b c : Byte, gfMul (gfMul a b) c = gfMul a (gfMul b c)) ∧
  (∀ a b c : Byte, gfMul a (b ^^^ c) = gfMul a b ^^^ gfMul a c) ∧
  (∀ a b : Byte, b ≠ 0 → gfDiv (gfMul a b) b = some a)

/-- R74, R19, V5: the generator is monic of degree 32, ends in α^241, and its roots are α^0 to α^31. -/
def Obligations.GeneratorHasThe32Roots : Prop :=
  genTable.length = 33 ∧ genTable.getD 0 0 = 1 ∧ genTable.getD 32 0 = 0x58 ∧ expAt 241 = 0x58 ∧
  ∀ i, i ≤ 31 → polyEval genTable (expAt i) = 0

/-! ## Reed–Solomon -/

/-- R87: `RSENC1`: the message and its parity in `BOUT`, 255 in `RES0`; the capacities of R7 leave no error. The fault of
R190 when one of the 223 bytes holds no value. -/
def Obligations.Rsenc1WritesTheCodeword : Prop :=
  (∀ (s : State) (m : List Byte), s.params.ok = true → readRun s.bin 0 223 = some m →
    (rsEncodeBlock m).length = 255 ∧ (rsEncodeBlock m).take 223 = m ∧
    exec .rsenc1 s =
      .next { s with bout := writeRun s.bout 0 (rsEncodeBlock m), res0 := 255, status := 0x00000002 }) ∧
  (∀ (s : State) (a : ℕ), s.params.ok = true → a < 223 → readElem s.bin a = none →
    exec .rsenc1 s = .fault (.unwrittenElement .bin))

/-- R88: `RSDEC1`: accepted with the message in `BOUT`, or rejected with `BOUT` unchanged; both end `OK`. The fault of
R190 when one of the 255 bytes holds no value. -/
def Obligations.Rsdec1AcceptsOrRejects : Prop :=
  (∀ (s : State) (c : List Byte), s.params.ok = true → readRun s.bin 0 255 = some c →
    ((rsDecodeBlock c).count ≤ 16 →
      exec .rsdec1 s = .next { s with
        bout := writeRun s.bout 0 (c.take 223)
        res0 := 1
        res1 := BitVec.ofNat 32 (rsDecodeBlock c).count
        status := 0x00000002 }) ∧
    (16 < (rsDecodeBlock c).count →
      exec .rsdec1 s = .next { s with
        res0 := 0
        res1 := BitVec.ofNat 32 (rsDecodeBlock c).count
        status := 0x00000002 })) ∧
  (∀ (s : State) (a : ℕ), s.params.ok = true → a < 255 → readElem s.bin a = none →
    exec .rsdec1 s = .fault (.unwrittenElement .bin))

/-- R88, R91: the mismatch count looks at the 32 parity positions only, the verdict is `count ≤ 16`, and the message is
the first 223 bytes, unchanged. -/
def Obligations.VerdictCountsParityMismatches : Prop :=
  ∀ c : List Byte, c.length = 255 →
    (rsDecodeBlock c).count = mismatches ((rsEncodeBlock (c.take 223)).drop 223) (c.drop 223) ∧
    (rsDecodeBlock c).count ≤ 32 ∧
    ((rsDecodeBlock c).accept = true ↔ (rsDecodeBlock c).count ≤ 16) ∧
    (rsDecodeBlock c).message = c.take 223

/-- R89: `RSENC`: block by block the codewords of the message stream, the last one zero-padded; `E_CAP` when the input
or the output does not fit. Then the fault of R190 when an element the binding names holds no value (log entry 7: after
both capacity checks). -/
def Obligations.RsencWritesTheBlocks : Prop :=
  (∀ (s : State) (data : List Byte), s.arg0.toNat = data.length → data.length ≤ s.params.binCap →
    255 * ((data.length + 222) / 223) ≤ s.params.boutCap → readRun s.bin 0 data.length = some data →
    (rsEncode data).length = 255 * ((data.length + 222) / 223) ∧
    (∀ (b : Nat) (part : List Byte), b < (data.length + 222) / 223 → part = slice data (223 * b) 223 →
      slice (rsEncode data) (255 * b) 255 = rsEncodeBlock (part ++ List.replicate (223 - part.length) 0)) ∧
    exec .rsenc s = .next { s with
      bout := writeRun s.bout 0 (rsEncode data)
      res0 := BitVec.ofNat 32 (255 * ((data.length + 222) / 223))
      res1 := BitVec.ofNat 32 ((data.length + 222) / 223)
      status := 0x00000002 }) ∧
  (∀ s : State, s.params.binCap < s.arg0.toNat ∨ s.params.boutCap < 255 * ((s.arg0.toNat + 222) / 223) →
    exec .rsenc s = .next { s with status := 0x00000302 }) ∧
  (∀ (s : State) (a : ℕ), s.arg0.toNat ≤ s.params.binCap →
    255 * ((s.arg0.toNat + 222) / 223) ≤ s.params.boutCap →
    a < s.arg0.toNat → readElem s.bin a = none → exec .rsenc s = .fault (.unwrittenElement .bin))

/-- R90: `RSDEC`: the first 223 bytes of the blocks whose mismatch count is at most 16, in block order, the number of
the other blocks and the number of all; `E_CAP` when the input or the output does not fit. Before the check of the
output the fault of R190 when an element the binding names holds no value (log entry 7). -/
def Obligations.RsdecWritesTheAcceptedMessages : Prop :=
  (∀ (s : State) (data : List Byte), s.arg0.toNat = data.length → data.length ≤ s.params.binCap →
    readRun s.bin 0 data.length = some data →
    (rsDecode data).blocks = data.length / 255 ∧
    (∀ block : Nat → List Byte, (∀ b, block b = slice data (255 * b) 255) →
      (rsDecode data).out =
        ((List.range (data.length / 255)).filter fun b => decide ((rsDecodeBlock (block b)).count ≤ 16)).flatMap
          (fun b => (block b).take 223) ∧
      (rsDecode data).dropped =
        ((List.range (data.length / 255)).filter fun b => decide (16 < (rsDecodeBlock (block b)).count)).length) ∧
    (rsDecode data).out.length = 223 * ((rsDecode data).blocks - (rsDecode data).dropped) ∧
    ((rsDecode data).out.length ≤ s.params.boutCap →
      exec .rsdec s = .next { s with
        bout := writeRun s.bout 0 (rsDecode data).out
        res0 := BitVec.ofNat 32 (rsDecode data).out.length
        res1 := BitVec.ofNat 32 (rsDecode data).dropped
        res2 := BitVec.ofNat 32 (data.length / 255)
        status := 0x00000002 }) ∧
    (s.params.boutCap < (rsDecode data).out.length → exec .rsdec s = .next { s with status := 0x00000302 })) ∧
  (∀ s : State, s.params.binCap < s.arg0.toNat → exec .rsdec s = .next { s with status := 0x00000302 }) ∧
  (∀ (s : State) (a : ℕ), s.arg0.toNat ≤ s.params.binCap →
    a < s.arg0.toNat → readElem s.bin a = none → exec .rsdec s = .fault (.unwrittenElement .bin))

/-- R85: every codeword, read as a polynomial, is 0 at α^0 to α^31. -/
def Obligations.CodewordsVanishAtTheRoots : Prop :=
  ∀ m : List Byte, m.length = 223 → ∀ i, i ≤ 31 → polyEval (rsEncodeBlock m) (expAt i) = 0

/-- R87: the encoder is linear. -/
def Obligations.EncoderIsLinear : Prop :=
  ∀ a b : List Byte, a.length = 223 → b.length = 223 →
    rsEncodeBlock (xorBytes a b) = xorBytes (rsEncodeBlock a) (rsEncodeBlock b)

/-- R92 (e), R88, V8: one wrong message byte, of any value, changes all 32 parity bytes, so the block is rejected. -/
def Obligations.WrongMessageByteIsRejected : Prop :=
  ∀ (m : List Byte) (p : Nat) (v : Byte), m.length = 223 → p < 223 → v ≠ 0 →
    (rsDecodeBlock (xorAt (rsEncodeBlock m) p v)).count = 32 ∧
    (rsDecodeBlock (xorAt (rsEncodeBlock m) p v)).accept = false

/-- R92 (b): decoding an encoded sequence returns it with its zero padding and drops no block. -/
def Obligations.BatchDecodeOfEncodeReturnsTheData : Prop :=
  ∀ data : List Byte,
    rsDecode (rsEncode data) =
      { out := data ++ List.replicate ((223 - data.length % 223) % 223) 0
        dropped := 0
        blocks := (data.length + 222) / 223 }

/-! ## CRC32 -/

/-- R100: `CRC32`: the checksum in `RES0`, nothing else; `E_CAP` when the input does not fit. Then the fault of R190
when an element the binding names holds no value. -/
def Obligations.Crc32WritesTheChecksum : Prop :=
  (∀ (s : State) (data : List Byte), s.arg0.toNat = data.length → data.length ≤ s.params.binCap →
    readRun s.bin 0 data.length = some data →
    exec .crc32 s = .next { s with res0 := crc32 data, status := 0x00000002 }) ∧
  (∀ s : State, s.params.binCap < s.arg0.toNat → exec .crc32 s = .next { s with status := 0x00000302 }) ∧
  (∀ (s : State) (a : ℕ), s.arg0.toNat ≤ s.params.binCap →
    a < s.arg0.toNat → readElem s.bin a = none → exec .crc32 s = .fault (.unwrittenElement .bin))

/-- R101, R102: the known answers; and the table-driven form is equal to the bit-serial one, for every sequence, with the
listed table values. -/
def Obligations.TableDrivenCrcIsTheSame : Prop :=
  (crc32 [] = 0x00000000 ∧ crc32 [0x31, 0x32, 0x33, 0x34, 0x35, 0x36, 0x37, 0x38, 0x39] = 0xCBF43926 ∧
    crc32 [0x61] = 0xE8B7BE43) ∧
  (∀ data : List Byte, crc32 data = data.foldl crcTableByte 0xFFFFFFFF ^^^ 0xFFFFFFFF) ∧
  (∀ n : Byte, crcTableEntry n = crcShifts 8 (n.setWidth 32)) ∧
  crcTableEntry 0 = 0x00000000 ∧ crcTableEntry 1 = 0x77073096 ∧ crcTableEntry 2 = 0xEE0E612C ∧
  crcTableEntry 3 = 0x990951BA ∧ crcTableEntry 128 = 0xEDB88320 ∧ crcTableEntry 255 = 0x2D02EF8D

/-- R103: the residue: a sequence followed by its own CRC always has the checksum 0x2144DF1C. -/
def Obligations.CrcResidueIsConstant : Prop :=
  ∀ p : List Byte, crc32 (p ++ le32 (crc32 p)) = 0x2144DF1C

/-! ## Packet -/

/-- R105, R106: `FRAME`: the packet byte by byte in `BOUT`, and its errors in their order; the fault of R190, where the
payload is read before the name (log entry 7). -/
def Obligations.FrameWritesThePacket : Prop :=
  (∀ (s : State) (name payload : List Byte), s.arg0.toNat = payload.length → 0 < s.arg1.toNat →
    name.length = min s.arg1.toNat 255 → payload.length ≤ s.params.binCap →
    13 + name.length + payload.length ≤ s.params.boutCap →
    readRun s.bin 0 payload.length = some payload → readRun s.namebuf 0 name.length = some name →
    ∃ body : List Byte,
      body = [0x41, 0x45, 0x44, 0x43] ++ [BitVec.ofNat 8 name.length] ++ name ++ le32 s.arg0 ++ payload ∧
      exec .frame s = .next { s with
        bout := writeRun s.bout 0 (body ++ le32 (crc32 body))
        res0 := BitVec.ofNat 32 (13 + name.length + payload.length)
        res1 := BitVec.ofNat 32 name.length
        status := 0x00000002 }) ∧
  (∀ s : State, s.arg1 = 0 → exec .frame s = .next { s with status := 0x00000502 }) ∧
  (∀ s : State, s.arg1 ≠ 0 →
    s.params.binCap < s.arg0.toNat ∨ s.params.boutCap < 13 + min s.arg1.toNat 255 + s.arg0.toNat →
    exec .frame s = .next { s with status := 0x00000302 }) ∧
  (∀ (s : State) (a : ℕ), s.arg1 ≠ 0 → s.arg0.toNat ≤ s.params.binCap →
    13 + min s.arg1.toNat 255 + s.arg0.toNat ≤ s.params.boutCap →
    (a < s.arg0.toNat → readElem s.bin a = none → exec .frame s = .fault (.unwrittenElement .bin)) ∧
    (∀ payload, readRun s.bin 0 s.arg0.toNat = some payload →
      a < min s.arg1.toNat 255 → readElem s.namebuf a = none → exec .frame s = .fault (.unwrittenElement .namebuf)))

/-- R107: `PARSE` of a buffer that parses: name, payload, both CRCs, and `W_CRC` exactly when they differ; and its
errors in their order, the last one `E_CAP` when the payload does not fit. That `W_CRC` then stays set is the model's
reading (log entry 14) against the sentence of R107 "On any error nothing but `STATUS` is written". That the fault of R190
comes after `E_SHORT` and before the errors that look at the bytes is the model's reading too (log entry 7). -/
def Obligations.ParseDeliversThePacket : Prop :=
  (∀ (s : State) (buf : List Byte) (p : Parsed), s.arg0.toNat = buf.length → buf.length ≤ s.params.binCap →
    readRun s.bin 0 buf.length = some buf → parse buf = .ok p → p.payload.length ≤ s.params.boutCap →
    exec .parse s = .next { s with
      namebuf := writeRun s.namebuf 0 p.name
      bout := writeRun s.bout 0 p.payload
      res0 := BitVec.ofNat 32 p.payload.length
      res1 := BitVec.ofNat 32 p.name.length
      res2 := p.stored
      res3 := p.computed
      warn := s.warn ||| (if p.stored = p.computed then 0 else 0x00000004)
      status := 0x00000002 }) ∧
  (∀ s : State, s.params.binCap < s.arg0.toNat → exec .parse s = .next { s with status := 0x00000302 }) ∧
  (∀ s : State, s.arg0.toNat ≤ s.params.binCap → s.arg0.toNat < 14 →
    exec .parse s = .next { s with status := 0x00000902 }) ∧
  (∀ (s : State) (buf : List Byte) (e : ErrCode), s.arg0.toNat = buf.length → 14 ≤ buf.length →
    buf.length ≤ s.params.binCap → readRun s.bin 0 buf.length = some buf → parse buf = .error e →
    exec .parse s = .next { s with status := 0x00000002 ||| (e.code.setWidth 32 <<< 8) }) ∧
  (∀ (s : State) (buf : List Byte) (p : Parsed), s.arg0.toNat = buf.length → buf.length ≤ s.params.binCap →
    readRun s.bin 0 buf.length = some buf → parse buf = .ok p → s.params.boutCap < p.payload.length →
    exec .parse s = .next { s with
      warn := s.warn ||| (if p.stored = p.computed then 0 else 0x00000004)
      status := 0x00000302 }) ∧
  (∀ (s : State) (a : ℕ), 14 ≤ s.arg0.toNat → s.arg0.toNat ≤ s.params.binCap → a < s.arg0.toNat →
    readElem s.bin a = none → exec .parse s = .fault (.unwrittenElement .bin))

/-- R107: when `parse` fails and how; sums do not wrap. -/
def Obligations.ParseFailsOnMagicThenSize : Prop :=
  (∀ buf : List Byte, buf.length < 14 → parse buf = .error .short) ∧
  ∀ buf : List Byte, 14 ≤ buf.length →
    (buf.take 4 ≠ [0x41, 0x45, 0x44, 0x43] → parse buf = .error .magic) ∧
    (buf.take 4 = [0x41, 0x45, 0x44, 0x43] → ∀ nl, (buf.getD 4 0).toNat = nl →
      (buf.length < 9 + nl → parse buf = .error .size) ∧
      (9 + nl ≤ buf.length → ∀ dl, unle32 (slice buf (5 + nl) 4) = dl →
        (buf.length < 13 + nl + dl → parse buf = .error .size) ∧
        (13 + nl + dl ≤ buf.length → ∃ p, parse buf = .ok p ∧
          p.name = slice buf 5 nl ∧ p.payload = slice buf (9 + nl) dl ∧
          p.name.length = nl ∧ p.payload.length = dl ∧
          p.stored.toNat = unle32 (slice buf (9 + nl + dl) 4) ∧ p.computed = crc32 (buf.take (9 + nl + dl)))))

/-- R108: parsing a framed packet, with any bytes after it, gives the name and payload back with equal CRCs. -/
def Obligations.ParseOfFrameIsIdentity : Prop :=
  ∀ name payload tail : List Byte, 1 ≤ name.length → name.length ≤ 255 → payload.length < 2 ^ 32 →
    ∃ (pkt : List Byte) (c : Word), frame name payload = .ok pkt ∧
      parse (pkt ++ tail) = .ok { name := name, payload := payload, stored := c, computed := c }

/-- R108: a single-bit flip in the payload region gives the corrupted payload and a CRC mismatch. -/
def Obligations.FlippedPayloadBitIsWarnedAndDelivered : Prop :=
  ∀ (name payload pkt : List Byte) (i j : Nat), 1 ≤ name.length → name.length ≤ 255 → payload.length < 2 ^ 32 →
    i < payload.length → j < 8 → frame name payload = .ok pkt →
    ∃ p, parse (flipBit pkt (9 + name.length + i) j) = .ok p ∧
      p.name = name ∧ p.payload = flipBit payload i j ∧ p.stored ≠ p.computed

/-- R155, R159 (the byte path of the pipelines): framing, encoding, decoding and parsing give the name and payload
back. -/
def Obligations.BytePathRoundTrip : Prop :=
  ∀ name payload : List Byte, 1 ≤ name.length → name.length ≤ 255 → payload.length < 2 ^ 32 →
    ∃ (pkt : List Byte) (c : Word), frame name payload = .ok pkt ∧ (rsDecode (rsEncode pkt)).dropped = 0 ∧
      parse (rsDecode (rsEncode pkt)).out =
        .ok { name := name, payload := payload, stored := c, computed := c }

/-! ## Modulator -/

/-- R122: `TONE`: the symbol of the selector in `SOUT`; `E_ARG` above 256. -/
def Obligations.ToneWritesOneSymbol : Prop :=
  (∀ s : State, s.params.ok = true → s.arg0.toNat ≤ 256 →
    (symbol s.arithmetic s.arg0.toNat).length = 1323 ∧
    exec .tone s =
      .next { s with
        sout := writeRun s.sout 0 (symbol s.arithmetic s.arg0.toNat), res0 := 1323, status := 0x00000002 }) ∧
  (∀ s : State, 256 < s.arg0.toNat → exec .tone s = .next { s with status := 0x00000202 })

/-- R60, R121, R122: over exact reals sample `i` of a symbol is the real number `0.7·sin(2π·f·i/44100)·env(i)`; it is at
most 0.7 in size and 0 at both ends. -/
def Obligations.SymbolSamplesAreTheToneFormula : Prop :=
  ∀ t : ℕ, t ≤ 256 → ∀ f : ℝ, f = (if t = 256 then 1000 else 2000 + 50 * (t : ℝ)) →
    ∀ i : ℕ, i ≤ 1322 → ∃ x : Sample, (symbol exactArithmetic t)[i]? = some x ∧ realOf x = realTone f i ∧
      |realOf x| ≤ 0.7 ∧ (i = 0 ∨ i = 1322 → realOf x = 0)

/-- R123: `PREAMB`: five sync symbols in `SOUT`, each with its own envelope; the capacities of R7 leave no error. -/
def Obligations.PreambWritesFiveSyncSymbols : Prop :=
  (∀ (s : State) (sync : List Sample), s.params.ok = true → sync = symbol s.arithmetic 256 →
    exec .preamb s = .next { s with
      sout := writeRun s.sout 0 (sync ++ sync ++ sync ++ sync ++ sync)
      res0 := 6615
      status := 0x00000002 }) ∧
  encode .preamb = 0x51 ∧
  ∀ A : Arithmetic, (preamble A).length = 6615 ∧ ∀ i, i ≤ 5291 → (preamble A)[1323 + i]? = (preamble A)[i]?

/-- R124: `MOD`: preamble, length field, data and trailing preamble in `SOUT`; `E_CAP` when the input or the frame does
not fit. Then the fault of R190 when an element the binding names holds no value (log entry 7: after both capacity
checks). -/
def Obligations.ModWritesTheFrame : Prop :=
  (∀ (s : State) (data : List Byte) (pre : List Sample), s.arg0.toNat = data.length →
    data.length ≤ s.params.binCap → (14 + data.length) * 1323 ≤ s.params.soutCap →
    readRun s.bin 0 data.length = some data → pre = preamble s.arithmetic →
    exec .mod s = .next { s with
      sout := writeRun s.sout 0 (pre ++ (le32 s.arg0 ++ data).flatMap (fun b => symbol s.arithmetic b.toNat) ++ pre)
      res0 := BitVec.ofNat 32 ((14 + data.length) * 1323)
      status := 0x00000002 }) ∧
  (∀ s : State, s.params.binCap < s.arg0.toNat ∨ s.params.soutCap < (14 + s.arg0.toNat) * 1323 →
    exec .mod s = .next { s with status := 0x00000302 }) ∧
  (∀ (s : State) (a : ℕ), s.arg0.toNat ≤ s.params.binCap →
    (14 + s.arg0.toNat) * 1323 ≤ s.params.soutCap →
    a < s.arg0.toNat → readElem s.bin a = none → exec .mod s = .fault (.unwrittenElement .bin))

/-- R124: symbol `q` of a frame occupies samples `[q·1323, (q+1)·1323)`: 0..4 sync, 5..8 the length field, then the data,
then five sync symbols. -/
def Obligations.FrameLayoutSymbolBySymbol : Prop :=
  ∀ (A : Arithmetic) (data : List Byte), data.length < 2 ^ 32 →
    ∃ out, modulate A data = .ok out ∧ out.length = (14 + data.length) * 1323 ∧
      ∀ q, q < 14 + data.length →
        slice out (q * 1323) 1323 =
          if q < 5 then symbol A 256
          else if q < 9 then symbol A ((le32 (BitVec.ofNat 32 data.length)).getD (q - 5) 0).toNat
          else if q < 9 + data.length then symbol A (data.getD (q - 9) 0).toNat
          else symbol A 256

/-! ## Demodulator -/

/-- R135: `GOERTZ`: the magnitude of the window in `MAG` (which real number that is, `MagnitudeIsTheRealGoertzel` says);
`E_ARG` for a selector above 256 or a window past the end, then `E_CAP`; then the fault of R190, for every element up to
`ARG0`, inside the window or not (log entry 7). -/
def Obligations.GoertzWritesTheMagnitude : Prop :=
  (∀ (s : State) (x : List Sample), s.arg2.toNat ≤ 256 → s.arg1.toNat + 1323 ≤ s.arg0.toNat →
    s.arg0.toNat = x.length → x.length ≤ s.params.sinCap → readRun s.sin 0 x.length = some x →
    exec .goertz s =
      .next { s with mag := goertzel s.arithmetic x s.arg1.toNat (freq s.arg2.toNat), status := 0x00000002 }) ∧
  (∀ s : State, 256 < s.arg2.toNat ∨ s.arg0.toNat < s.arg1.toNat + 1323 →
    exec .goertz s = .next { s with status := 0x00000202 }) ∧
  (∀ s : State, s.arg2.toNat ≤ 256 → s.arg1.toNat + 1323 ≤ s.arg0.toNat → s.params.sinCap < s.arg0.toNat →
    exec .goertz s = .next { s with status := 0x00000302 }) ∧
  (∀ (s : State) (a : ℕ), s.arg2.toNat ≤ 256 → s.arg1.toNat + 1323 ≤ s.arg0.toNat →
    s.arg0.toNat ≤ s.params.sinCap →
    a < s.arg0.toNat → readElem s.sin a = none → exec .goertz s = .fault (.unwrittenElement .sin))

/-- R135, R60: the exact magnitude is the real number the Goertzel recurrence computes over the reals. -/
def Obligations.MagnitudeIsTheRealGoertzel : Prop :=
  ∀ (x : List Sample) (s t : ℕ), t ≤ 256 → s + 1323 ≤ x.length →
    magOf (goertzel exactArithmetic x s (freq t)) =
      realGoertzel ((slice x s 1323).map realOf) (if t = 256 then 1000 else 2000 + 50 * (t : ℝ))

/-- R136 (a): the exact magnitude is the modulus of the windowed Fourier sum. -/
def Obligations.MagnitudeIsTheFourierModulus : Prop :=
  ∀ (x : List Sample) (s t : ℕ), t ≤ 256 → s + 1323 ≤ x.length →
    magOf (goertzel exactArithmetic x s (freq t)) =
      fourierModulus ((slice x s 1323).map realOf) (if t = 256 then 1000 else 2000 + 50 * (t : ℝ))

/-- R137, R138: `SYNCFIND`: the positions as little-endian words in `BOUT`, their number in `RES0`, the first one in
`RES1` if there is one. Before the check of the output the fault of R190 when an element the binding names holds no
value (log entry 7). -/
def Obligations.SyncfindWritesThePositions : Prop :=
  (∀ (s : State) (x : List Sample), s.arg0.toNat = x.length → x.length ≤ s.params.sinCap →
    readRun s.sin 0 x.length = some x →
    ∀ pos, findPreambles s.arithmetic s.params.syncThreshold x = pos →
      (4 * pos.length ≤ s.params.boutCap →
        exec .syncfind s = .next { s with
          bout := writeRun s.bout 0 (pos.flatMap fun p => le32 (BitVec.ofNat 32 p))
          res0 := BitVec.ofNat 32 pos.length
          res1 := if pos = [] then s.res1 else BitVec.ofNat 32 (pos.headD 0)
          status := 0x00000002 }) ∧
      (s.params.boutCap < 4 * pos.length → exec .syncfind s = .next { s with status := 0x00000302 })) ∧
  (∀ s : State, s.params.sinCap < s.arg0.toNat → exec .syncfind s = .next { s with status := 0x00000302 }) ∧
  (∀ (s : State) (a : ℕ), s.arg0.toNat ≤ s.params.sinCap →
    a < s.arg0.toNat → readElem s.sin a = none → exec .syncfind s = .fault (.unwrittenElement .sin))

/-- R137: over exact reals the count at a cursor is the number of the five windows whose real magnitude at 1000 Hz exceeds
the threshold. -/
def Obligations.SyncCountComparesRealMagnitudes : Prop :=
  ∀ (threshold : ℚ) (x : List Sample) (s : ℕ), s + 6615 ≤ x.length →
    syncCount exactArithmetic threshold x s =
      Set.ncard (fun w : Fin 5 => (threshold : ℝ) < realGoertzel ((slice x (s + w.val * 1323) 1323).map realOf) 1000)

/-- R137, R142 (b): the search finds nothing exactly when no multiple of 661 has four windows that pass; otherwise its
first position is 6615 after the first multiple of 661 that has, and its other positions are those of a search that
starts again at this one: no later match is left out. Positions are at least 6615 apart, none lies beyond the audio, and
each ends five windows of which four pass. -/
def Obligations.SearchFindsEveryGridMatch : Prop :=
  ∀ (A : Arithmetic) (threshold : ℚ) (x : List Sample),
    (findPreambles A threshold x = [] ↔ ∀ j, 661 * j + 6615 ≤ x.length → syncCount A threshold x (661 * j) < 4) ∧
    (∀ p rest, findPreambles A threshold x = p :: rest →
      (∃ j, p = 661 * j + 6615 ∧ p ≤ x.length ∧ 4 ≤ syncCount A threshold x (661 * j) ∧
        ∀ i, i < j → syncCount A threshold x (661 * i) < 4) ∧
      rest = (findPreambles A threshold (x.drop p)).map fun q => p + q) ∧
    (findPreambles A threshold x).Pairwise (fun p q => p + 6615 ≤ q) ∧
    ∀ p ∈ findPreambles A threshold x, 6615 ≤ p ∧ p ≤ x.length ∧ 4 ≤ syncCount A threshold x (p - 6615)

/-- R139: `DETECT`: the strongest tone in `RES0`, its magnitude in `MAG`; `E_ARG` for a window past the end, then
`E_CAP`; then the fault of R190, for every element up to `ARG0`, inside the window or not (log entry 7). -/
def Obligations.DetectWritesTheStrongestTone : Prop :=
  (∀ (s : State) (x : List Sample), s.arg1.toNat + 1323 ≤ s.arg0.toNat → s.arg0.toNat = x.length →
    x.length ≤ s.params.sinCap → readRun s.sin 0 x.length = some x →
    exec .detect s = .next { s with
      res0 := BitVec.ofNat 32 (detectTone s.arithmetic x s.arg1.toNat).tone
      mag := (detectTone s.arithmetic x s.arg1.toNat).magnitude
      status := 0x00000002 }) ∧
  (∀ s : State, s.arg0.toNat < s.arg1.toNat + 1323 → exec .detect s = .next { s with status := 0x00000202 }) ∧
  (∀ s : State, s.arg1.toNat + 1323 ≤ s.arg0.toNat → s.params.sinCap < s.arg0.toNat →
    exec .detect s = .next { s with status := 0x00000302 }) ∧
  (∀ (s : State) (a : ℕ), s.arg1.toNat + 1323 ≤ s.arg0.toNat → s.arg0.toNat ≤ s.params.sinCap →
    a < s.arg0.toNat → readElem s.sin a = none → exec .detect s = .fault (.unwrittenElement .sin))

/-- R139: over exact reals the tone detected is the least `k` in 0..255 whose real magnitude is the maximum of the 256;
no comparison is rounded. -/
def Obligations.DetectedToneIsTheLeastMaximum : Prop :=
  ∀ (x : List Sample) (s : ℕ) (m : ℕ → ℝ), s + 1323 ≤ x.length →
    (∀ k, m k = realGoertzel ((slice x s 1323).map realOf) (2000 + 50 * (k : ℝ))) →
    ∃ best, best = detectTone exactArithmetic x s ∧ best.tone ≤ 255 ∧ magOf best.magnitude = m best.tone ∧
      (∀ k, k ≤ 255 → m k ≤ m best.tone) ∧ (∀ k, k < best.tone → m k < m best.tone)

/-- R140, R141: `DEMOD` of audio that demodulates: the bytes, the detected length, the data start, `W_TRUNC` exactly
when fewer bytes were read and `W_TONE` exactly when a symbol showed no tone; and its errors in their order. That both
warnings stay on the last error, `E_CAP`, is the model's reading, log entry 14. Before the errors that look at the audio
the fault of R190 when an element the binding names holds no value (log entry 7). -/
def Obligations.DemodDeliversTheBytes : Prop :=
  (∀ (s : State) (x : List Sample) (d : Demodulated) (w : Word), s.arg0.toNat = x.length → x.length ≤ s.params.sinCap →
    readRun s.sin 0 x.length = some x → demodulate s.arithmetic s.params.syncThreshold x = .ok d →
    w = (if d.truncated then 0x00000001 else 0) ||| (if d.lost then 0x00000002 else 0) →
    (d.bytes.length ≤ s.params.boutCap →
      exec .demod s = .next { s with
        bout := writeRun s.bout 0 d.bytes
        res0 := BitVec.ofNat 32 d.bytes.length
        res1 := BitVec.ofNat 32 d.dlen
        res2 := BitVec.ofNat 32 d.start
        warn := s.warn ||| w
        status := 0x00000002 }) ∧
    (s.params.boutCap < d.bytes.length →
      exec .demod s = .next { s with warn := s.warn ||| w, status := 0x00000302 })) ∧
  (∀ s : State, s.params.sinCap < s.arg0.toNat → exec .demod s = .next { s with status := 0x00000302 }) ∧
  (∀ (s : State) (x : List Sample), s.arg0.toNat = x.length → x.length ≤ s.params.sinCap →
    readRun s.sin 0 x.length = some x →
    (findPreambles s.arithmetic s.params.syncThreshold x = [] →
      exec .demod s = .next { s with status := 0x00000702 }) ∧
    (∀ start rest, findPreambles s.arithmetic s.params.syncThreshold x = start :: rest → x.length < start + 5292 →
      exec .demod s = .next { s with status := 0x00000802 })) ∧
  (∀ (s : State) (a : ℕ), s.arg0.toNat ≤ s.params.sinCap →
    a < s.arg0.toNat → readElem s.sin a = none → exec .demod s = .fault (.unwrittenElement .sin))

/-- R140, R141: what a demodulated frame holds: the first position is the start, the length field is the four detected
bytes, the bytes are those detected symbol by symbol, as many as the length says or the audio has; a lost tone is one of
the symbols read, of the length field or of the data (the model's reading of "that symbol", log entry 13), its byte is 0
(R141), and over exact reals there is none. -/
def Obligations.DemodulatedFrameIsReadSymbolBySymbol : Prop :=
  ∀ (A : Arithmetic) (threshold : ℚ) (x : List Sample) (d : Demodulated), demodulate A threshold x = .ok d →
    (findPreambles A threshold x).head? = some d.start ∧ d.start + 5292 ≤ x.length ∧
    d.dlen = unle32 [detectByte A x d.start, detectByte A x (d.start + 1323), detectByte A x (d.start + 2646),
      detectByte A x (d.start + 3969)] ∧
    d.bytes.length = min d.dlen ((x.length - d.start - 5292) / 1323) ∧
    (d.truncated = true ↔ d.bytes.length < d.dlen) ∧
    (∀ i, i < d.bytes.length → d.bytes[i]? = some (detectByte A x (d.start + 5292 + i * 1323))) ∧
    (d.lost = true ↔ ∃ q, q < 4 + d.bytes.length ∧ toneLost A x (d.start + q * 1323) = true) ∧
    (∀ q, toneLost A x q = true → detectByte A x q = 0) ∧ (A = exactArithmetic → d.lost = false)

/-- R142 (a): the noiseless round trip of the modem, over exact reals: every modulated byte sequence demodulates to
itself, with its length, the data start 6615 and no warning. -/
def Obligations.DemodulateOfModulateIsIdentity : Prop :=
  ∀ (data : List Byte) (x : List Sample), data.length ≤ 2 ^ 32 - 1 →
    modulate exactArithmetic data = .ok x →
    demodulate exactArithmetic 10 x =
      .ok { bytes := data, dlen := data.length, start := 6615, truncated := false, lost := false }

/-- R135, R140: over exact reals silence of any length holds no preamble, at any threshold that is not negative: `DEMOD`
ends with `E_NOPREAMBLE`. -/
def Obligations.SilenceHasNoPreamble : Prop :=
  ∀ (s : State) (n : ℕ), s.params.numerics = .exact → 0 ≤ s.params.syncThreshold → s.arg0.toNat = n → n ≤ s.params.sinCap →
    readRun s.sin 0 n = some (List.replicate n []) → exec .demod s = .next { s with status := 0x00000702 }

/-! ## Pipelines -/

/-- R156: `ENCODE`: the audio frame of the encoded packet in `SOUT`; its errors in their order; then the fault of R190,
where the payload is read before the name (log entry 7). -/
def Obligations.EncodeWritesTheAudioFrame : Prop :=
  (∀ (s : State) (name payload : List Byte) (fecBytes : ℕ), s.arg0.toNat = payload.length → 0 < s.arg1.toNat →
    name.length = min s.arg1.toNat 255 → payload.length ≤ s.params.binCap →
    fecBytes = 255 * ((13 + name.length + payload.length + 222) / 223) →
    fecBytes ≤ 2 ^ 32 - 1 → (14 + fecBytes) * 1323 ≤ s.params.soutCap →
    readRun s.bin 0 payload.length = some payload → readRun s.namebuf 0 name.length = some name →
    ∃ pkt out, frame name payload = .ok pkt ∧ modulate s.arithmetic (rsEncode pkt) = .ok out ∧
      exec .encode s = .next { s with
        sout := writeRun s.sout 0 out
        res0 := BitVec.ofNat 32 ((14 + fecBytes) * 1323)
        res1 := BitVec.ofNat 32 (13 + name.length + payload.length)
        res2 := BitVec.ofNat 32 fecBytes
        status := 0x00000002 }) ∧
  (∀ s : State, s.arg1 = 0 → exec .encode s = .next { s with status := 0x00000502 }) ∧
  (∀ s : State, s.arg1 ≠ 0 → s.params.binCap < s.arg0.toNat → exec .encode s = .next { s with status := 0x00000302 }) ∧
  (∀ (s : State) (fecBytes : ℕ), s.arg1 ≠ 0 → s.arg0.toNat ≤ s.params.binCap →
    fecBytes = 255 * ((13 + min s.arg1.toNat 255 + s.arg0.toNat + 222) / 223) →
    (2 ^ 32 - 1 < fecBytes → exec .encode s = .next { s with status := 0x00000602 }) ∧
    (fecBytes ≤ 2 ^ 32 - 1 → s.params.soutCap < (14 + fecBytes) * 1323 →
      exec .encode s = .next { s with status := 0x00000302 }) ∧
    (∀ a : ℕ, fecBytes ≤ 2 ^ 32 - 1 → (14 + fecBytes) * 1323 ≤ s.params.soutCap →
      (a < s.arg0.toNat → readElem s.bin a = none → exec .encode s = .fault (.unwrittenElement .bin)) ∧
      (∀ payload, readRun s.bin 0 s.arg0.toNat = some payload →
        a < min s.arg1.toNat 255 → readElem s.namebuf a = none →
        exec .encode s = .fault (.unwrittenElement .namebuf))))

/-- R157, R158, R15, R36, R170: `DECODE`: `E_CAP` when the audio is longer than `SIN_CAP`; else demodulate, decode,
parse. A stage's warnings are kept whatever a later stage does (R158); the result is the parsed packet, the dropped
blocks and the detected length; the first error wins. That `W_CRC`, `W_TRUNC` and `W_TONE` stay on the last error,
`E_CAP` for a payload that does not fit, is the model's reading of R15, R36 and R170, log entry 14 (DEDUCED). Before the
errors of the stages the fault of R190 when an element the binding names holds no value (log entry 7). -/
def Obligations.DecodeComposesTheStages : Prop :=
  (∀ s : State, s.params.sinCap < s.arg0.toNat → exec .decode s = .next { s with status := 0x00000302 }) ∧
  (∀ (s : State) (a : ℕ), s.arg0.toNat ≤ s.params.sinCap → a < s.arg0.toNat → readElem s.sin a = none →
    exec .decode s = .fault (.unwrittenElement .sin)) ∧
  ∀ (s : State) (x : List Sample), s.arg0.toNat = x.length → x.length ≤ s.params.sinCap →
    readRun s.sin 0 x.length = some x →
    (∀ e, demodulate s.arithmetic s.params.syncThreshold x = .error e →
      exec .decode s = .next { s with status := 0x00000002 ||| (e.code.setWidth 32 <<< 8) }) ∧
    (∀ (d : Demodulated) (w : Word), demodulate s.arithmetic s.params.syncThreshold x = .ok d →
      w = (if d.truncated then 0x00000001 else 0) ||| (if d.lost then 0x00000002 else 0) →
      (∀ e, parse (rsDecode d.bytes).out = .error e →
        exec .decode s =
          .next { s with warn := s.warn ||| w, status := 0x00000002 ||| (e.code.setWidth 32 <<< 8) }) ∧
      (∀ (p : Parsed) (v : Word), parse (rsDecode d.bytes).out = .ok p →
        v = w ||| (if p.stored = p.computed then 0 else 0x00000004) →
        (s.params.boutCap < p.payload.length →
          exec .decode s = .next { s with warn := s.warn ||| v, status := 0x00000302 }) ∧
        (p.payload.length ≤ s.params.boutCap →
          exec .decode s = .next { s with
            namebuf := writeRun s.namebuf 0 p.name
            bout := writeRun s.bout 0 p.payload
            res0 := BitVec.ofNat 32 p.payload.length
            res1 := BitVec.ofNat 32 p.name.length
            res2 := BitVec.ofNat 32 (rsDecode d.bytes).dropped
            res3 := BitVec.ofNat 32 d.dlen
            warn := s.warn ||| v
            status := 0x00000002 })))

/-- R159: the round trip of the pipelines over exact reals: decoding the audio of an encoded packet gives the name and
the payload back, with no block dropped, the FEC byte count as detected length, and no warning. -/
def Obligations.DecodeOfEncodedAudioIsIdentity : Prop :=
  ∀ name payload : List Byte, 1 ≤ name.length → name.length ≤ 255 →
    13 + name.length + payload.length ≤ 3755991007 →
    ∃ (x : List Sample) (c : Word), encodeFile exactArithmetic name payload = .ok x ∧
      (decodeAudio exactArithmetic 10 x).warnings = 0 ∧
      (decodeAudio exactArithmetic 10 x).result =
        .ok ({ name := name, payload := payload, stored := c, computed := c }, 0,
          255 * ((13 + name.length + payload.length + 222) / 223))

/-! ## The host's side -/

/-- R11, R31, R37: a register read while idle returns the register at that offset, reserved offsets read 0, and nothing
else changes. While busy, `STATUS` reads as it is; a read of a result register changes nothing of the block, and its
value is free: the model's choice under U7, log entry 8. -/
def Obligations.HostReadsRegistersByOffset : Prop :=
  (∀ (s : State) (off : ℕ) (rest : List HostEvent) (v : HostData), s.busy = false → s.inbox = .readReg off :: rest →
    (off, v) ∈ [(0x00, .word s.cmd), (0x04, .word s.status), (0x08, .word s.warn), (0x10, .word s.arg0),
      (0x14, .word s.arg1), (0x18, .word s.arg2), (0x1C, .word s.arg3), (0x20, .word s.res0), (0x24, .word s.res1),
      (0x28, .word s.res2), (0x2C, .word s.res3), (0x30, .real s.mag), (0x0C, .word 0)] ∨
      (0x34 ≤ off ∧ off ≤ 0xFF ∧ v = .word 0) →
    step s = .next { s with inbox := rest, hostData := v }) ∧
  (∀ (s : State) (off : ℕ) (rest : List HostEvent), s.busy = true → s.inbox = .readReg off :: rest →
    (off ∈ [0x08, 0x20, 0x24, 0x28, 0x2C, 0x30] →
      ∃ v, step s = .next { s with inbox := rest, hostData := v, free := s.free + 1 }) ∧
    (off = 0x04 → step s = .next { s with inbox := rest, hostData := .word s.status }))

/-- R11, R37, U7: argument registers take a write while idle and have no move for one while busy; writes to the read-only
registers and the reserved offsets are ignored at any time. For a read-only register of a busy block that is the model's
choice, log entry 21: R11 says it of an idle block. -/
def Obligations.HostWritesRegistersByOffset : Prop :=
  ∀ (s : State) (off : ℕ) (v : Word) (rest : List HostEvent), s.inbox = .writeReg off v :: rest →
    (s.busy = false →
      (off = 0x10 → step s = .next { s with inbox := rest, arg0 := v }) ∧
      (off = 0x14 → step s = .next { s with inbox := rest, arg1 := v }) ∧
      (off = 0x18 → step s = .next { s with inbox := rest, arg2 := v }) ∧
      (off = 0x1C → step s = .next { s with inbox := rest, arg3 := v })) ∧
    (s.busy = true → off ∈ [0x10, 0x14, 0x18, 0x1C] → step s = .refused .hostWriteWhileBusy) ∧
    (off ∈ [0x04, 0x08, 0x0C, 0x20, 0x24, 0x28, 0x2C, 0x30] ∨ (0x34 ≤ off ∧ off ≤ 0xFF) →
      step s = .next { s with inbox := rest })

/-- R16, R30, R37, U7: the host's writes of `BIN`, `NAMEBUF`, `BOUT` and `SIN`: the written elements and every other
one; its reads of an element while idle, which fault when it holds no value (R190); and a copy of R62 from `BOUT` to
`BIN` or from `SOUT` to `SIN` while idle. A written sample reads as the same real number in the one form buffers keep
(the model's choice, log entry 18); a write of `SOUT`, to which R16 gives the host only reads, is refused (the model's
choice, log entry 9). -/
def Obligations.HostWritesBuffers : Prop :=
  (∀ (s : State) (off : ℕ) (bs : List Byte) (rest : List HostEvent),
    (s.inbox = .writeBytes .bin off bs :: rest → off + bs.length ≤ s.params.binCap →
      (s.busy = true → step s = .refused .hostWriteWhileBusy) ∧
      (s.busy = false → ∃ m, step s = .next { s with inbox := rest, bin := m } ∧
        ∀ a, readElem m a = if off ≤ a ∧ a < off + bs.length then bs[a - off]? else readElem s.bin a)) ∧
    (s.inbox = .writeBytes .namebuf off bs :: rest → off + bs.length ≤ 255 →
      (s.busy = true → step s = .refused .hostWriteWhileBusy) ∧
      (s.busy = false → ∃ m, step s = .next { s with inbox := rest, namebuf := m } ∧
        ∀ a, readElem m a = if off ≤ a ∧ a < off + bs.length then bs[a - off]? else readElem s.namebuf a)) ∧
    (s.inbox = .writeBytes .bout off bs :: rest → off + bs.length ≤ s.params.boutCap →
      ∃ m, step s = .next { s with inbox := rest, bout := m } ∧
        ∀ a, readElem m a = if off ≤ a ∧ a < off + bs.length then bs[a - off]? else readElem s.bout a)) ∧
  (∀ (s : State) (off : ℕ) (xs : List Sample) (rest : List HostEvent),
    (s.inbox = .writeSamples .sin off xs :: rest → off + xs.length ≤ s.params.sinCap →
      (s.busy = true → step s = .refused .hostWriteWhileBusy) ∧
      (s.busy = false → ∃ m, step s = .next { s with inbox := rest, sin := m } ∧
        (∀ a, ¬ (off ≤ a ∧ a < off + xs.length) → readElem m a = readElem s.sin a) ∧
        ∀ i x, xs[i]? = some x → ∃ y, readElem m (off + i) = some y ∧ realOf y = realOf x ∧ Sample.ok y = true)) ∧
    (s.inbox = .writeSamples .sout off xs :: rest → step s = .refused .hostWriteToSout)) ∧
  (∀ (s : State) (off : ℕ) (b : Byte) (rest : List HostEvent), s.busy = false →
    (s.inbox = .readByte .bin off :: rest → off < s.params.binCap → readElem s.bin off = some b →
      step s = .next { s with inbox := rest, hostData := .byte b }) ∧
    (s.inbox = .readByte .bout off :: rest → off < s.params.boutCap → readElem s.bout off = some b →
      step s = .next { s with inbox := rest, hostData := .byte b }) ∧
    (s.inbox = .readByte .namebuf off :: rest → off < 255 → readElem s.namebuf off = some b →
      step s = .next { s with inbox := rest, hostData := .byte b })) ∧
  (∀ (s : State) (off : ℕ) (rest : List HostEvent), s.busy = false →
    (s.inbox = .readByte .bin off :: rest → off < s.params.binCap → readElem s.bin off = none →
      step s = .fault (.unwrittenElement .bin)) ∧
    (s.inbox = .readByte .bout off :: rest → off < s.params.boutCap → readElem s.bout off = none →
      step s = .fault (.unwrittenElement .bout)) ∧
    (s.inbox = .readByte .namebuf off :: rest → off < 255 → readElem s.namebuf off = none →
      step s = .fault (.unwrittenElement .namebuf)) ∧
    (s.inbox = .readSample .sin off :: rest → off < s.params.sinCap → readElem s.sin off = none →
      step s = .fault (.unwrittenElement .sin)) ∧
    (s.inbox = .readSample .sout off :: rest → off < s.params.soutCap → readElem s.sout off = none →
      step s = .fault (.unwrittenElement .sout))) ∧
  (∀ (s : State) (off : ℕ) (x : Sample) (rest : List HostEvent), s.busy = false →
    (s.inbox = .readSample .sin off :: rest → off < s.params.sinCap → readElem s.sin off = some x →
      step s = .next { s with inbox := rest, hostData := .sample x }) ∧
    (s.inbox = .readSample .sout off :: rest → off < s.params.soutCap → readElem s.sout off = some x →
      step s = .next { s with inbox := rest, hostData := .sample x })) ∧
  (∀ (s : State) (off a n : ℕ) (bs : List Byte) (rest : List HostEvent), s.busy = false →
    s.inbox = .copyBytes .bin off .bout a (a + n) :: rest → a + n ≤ s.params.boutCap → off + n ≤ s.params.binCap →
    readRun s.bout a n = some bs →
    bs.length = n ∧ ∃ m, step s = .next { s with inbox := rest, bin := m } ∧
      ∀ e, readElem m e = if off ≤ e ∧ e < off + n then readElem s.bout (a + (e - off)) else readElem s.bin e) ∧
  (∀ (s : State) (off a n : ℕ) (xs : List Sample) (rest : List HostEvent), s.busy = false →
    s.inbox = .copySamples .sin off .sout a (a + n) :: rest → a + n ≤ s.params.soutCap → off + n ≤ s.params.sinCap →
    readRun s.sout a n = some xs →
    xs.length = n ∧ ∃ m, step s = .next { s with inbox := rest, sin := m } ∧
      (∀ e, ¬ (off ≤ e ∧ e < off + n) → readElem m e = readElem s.sin e) ∧
      ∀ i x, xs[i]? = some x → ∃ y, readElem m (off + i) = some y ∧ realOf y = realOf x)

/-- R190: the reset input puts every register at its reset value; while a command runs it abandons it and the buffers
keep their contents. What an idle reset leaves in the buffers is the model's reading (log entry 11): no value. -/
def Obligations.ResetInputRestoresRegisters : Prop :=
  ∀ (s : State) (rest : List HostEvent), s.inbox = .resetInput :: rest →
    ∃ t, step s = .next t ∧ t.cmd = 0 ∧ t.status = 0 ∧ t.warn = 0 ∧ t.arg0 = 0 ∧ t.arg1 = 0 ∧ t.arg2 = 0 ∧
      t.arg3 = 0 ∧ t.res0 = 0 ∧ t.res1 = 0 ∧ t.res2 = 0 ∧ t.res3 = 0 ∧ magOf t.mag = 0 ∧ t.params = s.params ∧
      t.inbox = rest ∧
      (s.busy = true → t.bin = s.bin ∧ t.bout = s.bout ∧ t.namebuf = s.namebuf ∧ t.sin = s.sin ∧ t.sout = s.sout) ∧
      (s.busy = false → ∀ a, readElem t.bin a = none ∧ readElem t.bout a = none ∧ readElem t.namebuf a = none ∧
        readElem t.sin a = none ∧ readElem t.sout a = none)
end

