-- ==== Sys2Proof/Laws/RealSum.lean ====
section
/-!
SUPPORT. The exact arithmetic of Machine/RealSum.lean computes in the reals, whichever reals the names stand for, and every
operation keeps, or makes, the buffer form `Sample.ok`.
-/

namespace Sys2Proof.Machine

open RealSum

/-! ## Values -/

variable (v : Nat → ℝ)

@[simp] theorem sampleValue_nil : sampleValue v [] = 0 := by simp [sampleValue]

@[simp] theorem sampleValue_cons (t : Product × Trig) (x : Sample) :
    sampleValue v (t :: x) = productValue v t.1 * trigValue t.2 + sampleValue v x := by simp [sampleValue]

theorem sampleValue_append (x y : Sample) : sampleValue v (x ++ y) = sampleValue v x + sampleValue v y := by
  simp [sampleValue]

@[simp] theorem productValue_nil : productValue v [] = 1 := by simp [productValue]

@[simp] theorem productValue_insertName (n : Nat) (m : Product) :
    productValue v (insertName n m) = v n * productValue v m := by
  induction m with
  | nil => simp [insertName, productValue]
  | cons k m ih =>
    rw [insertName]
    split
    · simp [productValue]
    · simp only [productValue, List.map_cons, List.prod_cons] at ih ⊢; rw [ih]; ring

theorem productValue_sort (a : Product) : productValue v (a.foldr insertName []) = productValue v a := by
  induction a with
  | nil => rfl
  | cons n a ih => rw [List.foldr_cons, productValue_insertName, ih]; simp [productValue]

@[simp] theorem productValue_mulProduct (a b : Product) :
    productValue v (mulProduct a b) = productValue v a * productValue v b := by
  rw [mulProduct, productValue_sort]; simp [productValue]

@[simp] theorem sampleValue_addPart (m : Product) (c : Trig) (x : Sample) :
    sampleValue v (addPart m c x) = productValue v m * trigValue c + sampleValue v x := by
  induction x with
  | nil => rw [addPart]; split <;> simp [*]
  | cons t x ih =>
    obtain ⟨n, d⟩ := t
    rw [addPart]
    split
    · next h =>
      subst h
      have e : trigValue (RealNum.add c d) = trigValue c + trigValue d := trigValue_add c d
      dsimp only
      split
      · next h0 =>
        rw [h0, trigValue_nil] at e
        rw [sampleValue_cons]
        linear_combination productValue v m * e
      · simp only [sampleValue_cons, e]; ring
    · simp only [sampleValue_cons, ih]; ring

@[simp] theorem sampleValue_add (x y : Sample) : sampleValue v (add x y) = sampleValue v x + sampleValue v y := by
  induction x generalizing y with
  | nil => simp [add]
  | cons t x ih =>
    have h : add (t :: x) y = add x (addPart t.1 t.2 y) := rfl
    rw [h, ih, sampleValue_addPart, sampleValue_cons]; ring

@[simp] theorem sampleValue_neg (x : Sample) : sampleValue v (neg x) = -sampleValue v x := by
  induction x with
  | nil => simp [neg]
  | cons t x ih =>
    have h : neg (t :: x) = (t.1, RealNum.neg t.2) :: neg x := rfl
    rw [h, sampleValue_cons, ih, sampleValue_cons, trigValue_neg]; ring

@[simp] theorem sampleValue_sub (x y : Sample) : sampleValue v (sub x y) = sampleValue v x - sampleValue v y := by
  simp [sub, sub_eq_add_neg]

theorem sampleValue_mulTerms (x y : Sample) :
    sampleValue v (mulTerms x y) = sampleValue v x * sampleValue v y := by
  have row : ∀ t : Product × Trig,
      sampleValue v (y.map fun u => (mulProduct t.1 u.1, RealNum.mul t.2 u.2)) =
        productValue v t.1 * trigValue t.2 * sampleValue v y := by
    intro t
    induction y with
    | nil => simp
    | cons u y ih => simp only [List.map_cons, sampleValue_cons, ih, productValue_mulProduct, trigValue_mul]; ring
  induction x with
  | nil => simp [mulTerms]
  | cons t x ih =>
    have h : mulTerms (t :: x) y =
        (y.map fun u => (mulProduct t.1 u.1, RealNum.mul t.2 u.2)) ++ mulTerms x y := rfl
    rw [h, sampleValue_append, row, ih, sampleValue_cons]; ring

@[simp] theorem sampleValue_mul (x y : Sample) : sampleValue v (mul x y) = sampleValue v x * sampleValue v y := by
  rw [mul, sampleValue_add, sampleValue_mulTerms, sampleValue_nil, add_zero]

@[simp] theorem sampleValue_normalise (x : Sample) : sampleValue v (normalise x) = sampleValue v x := by
  rw [normalise, sampleValue_add, sampleValue_nil, add_zero]
  induction x with
  | nil => rfl
  | cons t x ih => simp [ih]

@[simp] theorem sampleValue_ofTrig (c : Trig) : sampleValue v (ofTrig c) = trigValue c := by
  rw [ofTrig]; split <;> simp [*]

@[simp] theorem sampleValue_named (n : Nat) : sampleValue v (named n) = v n := by
  simp [named, productValue]

/-! ## Buffer form -/

theorem product_ok_insertName (n : Nat) (m : Product) (h : Product.ok m = true) : Product.ok (insertName n m) = true := by
  have mem : ∀ (k : Nat) (l : Product), k ∈ insertName n l → k = n ∨ k ∈ l := by
    intro k l
    induction l with
    | nil => simp [insertName]
    | cons j l ih =>
      rw [insertName]
      split
      · simp
      · simp only [List.mem_cons]; rintro (h | h)
        · exact .inr (.inl h)
        · rcases ih h with h | h
          · exact .inl h
          · exact .inr (.inr h)
  induction m with
  | nil => rfl
  | cons k m ih =>
    simp only [Product.ok, Bool.and_eq_true, List.all_eq_true, decide_eq_true_eq] at h ih
    rw [insertName]
    split
    · next hnk =>
      simp only [Product.ok, Bool.and_eq_true, List.all_eq_true, decide_eq_true_eq, List.forall_mem_cons]
      exact ⟨⟨hnk, fun j hj => hnk.trans (h.1 j hj)⟩, h⟩
    · next hnk =>
      simp only [Product.ok, Bool.and_eq_true, List.all_eq_true, decide_eq_true_eq]
      refine ⟨fun j hj => ?_, ih h.2⟩
      rcases mem j m hj with rfl | hj
      · omega
      · exact h.1 j hj

theorem product_ok_mulProduct (a b : Product) : Product.ok (mulProduct a b) = true := by
  rw [mulProduct]
  induction a ++ b with
  | nil => rfl
  | cons n a ih => exact product_ok_insertName n _ ih

/-- The buffer form of a sum, in terms of its parts. -/
theorem sample_ok_iff (x : Sample) :
    Sample.ok x = true ↔ x.Pairwise (fun t u => u.1 ≠ t.1) ∧
      ∀ t ∈ x, Product.ok t.1 = true ∧ Trig.ok t.2 = true ∧ t.2 ≠ [] := by
  have h : partsDistinct x = true ↔ x.Pairwise (fun t u => u.1 ≠ t.1) := by
    induction x with
    | nil => simp [partsDistinct]
    | cons t x ih => simp [partsDistinct, ih]
  rw [Sample.ok, Bool.and_eq_true, h, List.all_eq_true]
  simp only [Bool.and_eq_true, decide_eq_true_eq, and_assoc]

theorem sample_ok_nil : Sample.ok [] = true := rfl

theorem mem_addPart (m : Product) (c : Trig) (x : Sample) (t : Product × Trig) (h : t ∈ addPart m c x) :
    t.1 = m ∨ t ∈ x := by
  induction x with
  | nil =>
    rw [addPart] at h
    split at h
    · simp at h
    · simp only [List.mem_singleton] at h; exact .inl (by rw [h])
  | cons u x ih =>
    obtain ⟨n, d⟩ := u
    rw [addPart] at h
    split at h
    · next hm =>
      dsimp only at h
      split at h
      · exact .inr (List.mem_cons_of_mem _ h)
      · rcases List.mem_cons.mp h with rfl | h
        · exact .inl hm.symm
        · exact .inr (List.mem_cons_of_mem _ h)
    · rcases List.mem_cons.mp h with rfl | h
      · exact .inr List.mem_cons_self
      · rcases ih h with h | h
        · exact .inl h
        · exact .inr (List.mem_cons_of_mem _ h)

theorem sample_ok_addPart (m : Product) (c : Trig) (x : Sample) (hm : Product.ok m = true) (hc : Trig.ok c = true)
    (hx : Sample.ok x = true) : Sample.ok (addPart m c x) = true := by
  induction x with
  | nil =>
    rw [addPart]
    split
    · rfl
    · next h => rw [sample_ok_iff]; simp [hm, hc, h]
  | cons t x ih =>
    obtain ⟨n, d⟩ := t
    have hx' := hx
    rw [sample_ok_iff, List.pairwise_cons, List.forall_mem_cons] at hx
    obtain ⟨⟨h1, h2⟩, ⟨h3, h4, h5⟩, h6⟩ := hx
    have hrest : Sample.ok x = true := (sample_ok_iff x).mpr ⟨h2, h6⟩
    rw [addPart]
    split
    · dsimp only
      split
      · exact hrest
      · next he =>
        rw [sample_ok_iff, List.pairwise_cons, List.forall_mem_cons]
        exact ⟨⟨h1, h2⟩, ⟨h3, ok_add hc h4, he⟩, h6⟩
    · next hne =>
      have hi := ih hrest
      rw [sample_ok_iff] at hi ⊢
      rw [List.pairwise_cons, List.forall_mem_cons]
      refine ⟨⟨fun u hu => ?_, hi.1⟩, ⟨h3, h4, h5⟩, hi.2⟩
      rcases mem_addPart m c x u hu with h | h
      · rw [h]; exact hne
      · exact h1 u h

/-- Parts in their one form add up to a sum in buffer form. -/
theorem sample_ok_add_of_parts (x y : Sample) (hx : ∀ t ∈ x, Product.ok t.1 = true ∧ Trig.ok t.2 = true)
    (hy : Sample.ok y = true) : Sample.ok (add x y) = true := by
  induction x generalizing y with
  | nil => exact hy
  | cons t x ih =>
    exact ih _ (fun u hu => hx u (by simp [hu]))
      (sample_ok_addPart t.1 t.2 y (hx t (by simp)).1 (hx t (by simp)).2 hy)

theorem sample_ok_parts {x : Sample} (h : Sample.ok x = true) :
    ∀ t ∈ x, Product.ok t.1 = true ∧ Trig.ok t.2 = true := fun t ht =>
  ⟨(((sample_ok_iff x).mp h).2 t ht).1, (((sample_ok_iff x).mp h).2 t ht).2.1⟩

theorem sample_ok_add {x y : Sample} (hx : Sample.ok x = true) (hy : Sample.ok y = true) :
    Sample.ok (add x y) = true := sample_ok_add_of_parts x y (sample_ok_parts hx) hy

theorem sample_ok_neg {x : Sample} (hx : Sample.ok x = true) : Sample.ok (neg x) = true := by
  rw [sample_ok_iff] at hx ⊢
  refine ⟨List.pairwise_map.mpr hx.1, fun t ht => ?_⟩
  obtain ⟨u, hu, rfl⟩ := List.mem_map.mp ht
  obtain ⟨h1, h2, h3⟩ := hx.2 u hu
  exact ⟨h1, ok_neg h2, by simpa [RealNum.neg] using h3⟩

theorem sample_ok_sub {x y : Sample} (hx : Sample.ok x = true) (hy : Sample.ok y = true) :
    Sample.ok (sub x y) = true := sample_ok_add hx (sample_ok_neg hy)

theorem sample_ok_mul (x y : Sample) : Sample.ok (mul x y) = true := by
  refine sample_ok_add_of_parts _ _ (fun t ht => ?_) rfl
  obtain ⟨u, -, ht⟩ := List.mem_flatMap.mp ht
  obtain ⟨w, -, rfl⟩ := List.mem_map.mp ht
  exact ⟨product_ok_mulProduct _ _, ok_mul _ _⟩

theorem sample_ok_normalise (x : Sample) : Sample.ok (normalise x) = true := by
  refine sample_ok_add_of_parts _ _ (fun t ht => ?_) rfl
  obtain ⟨u, -, rfl⟩ := List.mem_map.mp ht
  exact ⟨product_ok_mulProduct _ _, ok_normalise _⟩

theorem sample_ok_ofTrig {c : Trig} (h : Trig.ok c = true) : Sample.ok (ofTrig c) = true := by
  rw [ofTrig]
  split
  · rfl
  · next hc => rw [sample_ok_iff]; simp [h, hc, Product.ok]

theorem sample_ok_named (n : Nat) : Sample.ok (named n) = true := by
  rw [sample_ok_iff]
  simp only [named, List.pairwise_cons, List.mem_singleton, forall_eq]
  refine ⟨by simp, by simp [Product.ok], by decide +kernel, by simp⟩

end Sys2Proof.Machine
end

