-- ==== Sys2Proof/Laws/Numerics.lean ====
section
/-!
SUPPORT. What the arithmetic of the parameter `NUMERICS` does: every realisation makes numbers in buffer form, and the exact
one computes and compares in the reals.
-/

namespace Sys2Proof.Machine

open RealSum

/-! ## Exact reals -/

@[simp] theorem realOf_nil : realOf [] = 0 := sampleValue_nil _
@[simp] theorem realOf_add (x y : Sample) : realOf (add x y) = realOf x + realOf y := sampleValue_add _ x y
@[simp] theorem realOf_sub (x y : Sample) : realOf (sub x y) = realOf x - realOf y := sampleValue_sub _ x y
@[simp] theorem realOf_mul (x y : Sample) : realOf (mul x y) = realOf x * realOf y := sampleValue_mul _ x y
@[simp] theorem realOf_normalise (x : Sample) : realOf (normalise x) = realOf x := sampleValue_normalise _ x
@[simp] theorem realOf_ofTrig (c : Trig) : realOf (ofTrig c) = trigValue c := sampleValue_ofTrig _ c
@[simp] theorem realOf_named (n : Nat) : realOf (named n) = namedReal n := sampleValue_named _ n

theorem machineOrder_positive_iff (x : Sample) : machineOrder.positive x = true ↔ 0 < realOf x :=
  Classical.choose_spec machineOrder.consistent x

/-- `positive` is the order of the reals. -/
theorem positive_iff {x : Sample} (hx : Sample.ok x = true) : positive x = true ↔ 0 < realOf x := by
  match x, hx with
  | [], _ => simp [positive]
  | [(m, c)], hx =>
    rw [positive]
    split
    · next hm =>
      subst hm
      have hc := ok_keys (sample_ok_parts hx ([], c) (by simp)).2
      have hv : realOf [([], c)] = trigValue c := by simp [realOf]
      have h := sign_spec c hc
      rw [decide_eq_true_iff, hv]
      generalize RealNum.sign c = σ at h ⊢
      rcases h with ⟨rfl, h⟩ | ⟨rfl, h⟩ | ⟨rfl, h⟩
      · exact iff_of_true rfl h
      · exact iff_of_false (by decide) (not_lt.mpr h.le)
      · exact iff_of_false (by decide) (by rw [h]; exact lt_irrefl 0)
    · exact machineOrder_positive_iff _
  | t :: u :: rest, _ => exact machineOrder_positive_iff _

/-! ## Buffer form -/

/-- An arithmetic makes numbers in buffer form of numbers in buffer form, and products of any numbers. -/
structure KeepsForm (A : Arithmetic) : Prop where
  const : ∀ q, Sample.ok (A.const q) = true
  sin : ∀ f i, Sample.ok (A.sin f i) = true
  cos : ∀ f i, Sample.ok (A.cos f i) = true
  add : ∀ x y, Sample.ok x = true → Sample.ok y = true → Sample.ok (A.add x y) = true
  sub : ∀ x y, Sample.ok x = true → Sample.ok y = true → Sample.ok (A.sub x y) = true
  mul : ∀ x y, Sample.ok (A.mul x y) = true
  sqrt : ∀ x, Sample.ok x = true → Sample.ok (A.sqrt x).square = true

theorem ok_exact_const (q : Rat) : Sample.ok (exactArithmetic.const q) = true := sample_ok_ofTrig (ok_ofRat q)

theorem ok_exact_sin (f i : Nat) : Sample.ok (exactArithmetic.sin f i) = true := by
  simp only [exactArithmetic]
  exact sample_ok_ofTrig (ok_sinTerm 1 (angleNumber f i))

theorem ok_exact_cos (f i : Nat) : Sample.ok (exactArithmetic.cos f i) = true := by
  simp only [exactArithmetic]
  exact sample_ok_ofTrig (ok_cosTerm 1 (angleNumber f i))

theorem keepsForm_exact : KeepsForm exactArithmetic :=
  ⟨ok_exact_const, ok_exact_sin, ok_exact_cos, fun _ _ hx hy => sample_ok_add hx hy, fun _ _ hx hy => sample_ok_sub hx hy,
    sample_ok_mul, fun _ hx => hx⟩

theorem keepsForm_coded (c : CodedArithmetic) : KeepsForm (codedArithmetic c) where
  const _ := sample_ok_named _
  sin _ _ := sample_ok_named _
  cos _ _ := sample_ok_named _
  add _ _ _ _ := sample_ok_named _
  sub _ _ _ _ := sample_ok_named _
  mul _ _ := sample_ok_named _
  sqrt _ _ := sample_ok_named _

/-- Every realisation of arithmetic keeps the buffer form. -/
theorem keepsForm_arithmeticOf (n : Numerics) : KeepsForm (arithmeticOf n) := by
  cases n
  · exact keepsForm_exact
  · exact keepsForm_coded _

theorem ok_toneSample {A : Arithmetic} (hA : KeepsForm A) (f i : Nat) : Sample.ok (toneSample A f i) = true :=
  hA.mul _ _

/-- A magnitude is in buffer form, whatever the audio is. -/
theorem ok_goertzelWindow {A : Arithmetic} (hA : KeepsForm A) (w : List Sample) (f : Nat) :
    Sample.ok (goertzelWindow A w f).square = true :=
  hA.sqrt _ (hA.add _ _ (hA.mul _ _) (hA.mul _ _))

/-! ## Exact magnitudes -/

/-- The square that stands for an exact magnitude is not negative. -/
theorem goertzelWindow_nonneg (w : List Sample) (f : Nat) :
    0 ≤ realOf (goertzelWindow exactArithmetic w f).square := by
  simp only [goertzelWindow, exactArithmetic, realOf_add, realOf_mul]
  exact add_nonneg (mul_self_nonneg _) (mul_self_nonneg _)

/-- The comparison of R139 is the comparison of the real magnitudes. -/
theorem exact_greater_iff (m n : Magnitude) (hm : Sample.ok m.square = true) (hn : Sample.ok n.square = true)
    (h0 : 0 ≤ realOf n.square) : exactArithmetic.greater m n = true ↔ magOf n < magOf m := by
  show positive (sub m.square n.square) = true ↔ _
  rw [positive_iff (sample_ok_sub hm hn), realOf_sub, sub_pos, magOf, magOf, Real.sqrt_lt_sqrt_iff h0]

/-- The comparison of R137 is the comparison of the real magnitude with the threshold. -/
theorem exact_above_iff (m : Magnitude) (hm : Sample.ok m.square = true) (threshold : Rat) :
    exactArithmetic.above m threshold = true ↔ (threshold : ℝ) < magOf m := by
  show (decide (threshold < 0) || positive (sub m.square (ofTrig (RealNum.ofRat (threshold * threshold))))) = true ↔ _
  rw [Bool.or_eq_true, decide_eq_true_iff, positive_iff (sample_ok_sub hm (sample_ok_ofTrig (ok_ofRat _))), realOf_sub,
    sub_pos, realOf_ofTrig, trigValue_ofRat, magOf]
  rcases lt_or_ge threshold 0 with h | h
  · have h' : (threshold : ℝ) < 0 := by exact_mod_cast h
    exact iff_of_true (.inl h) (h'.trans_le (Real.sqrt_nonneg _))
  · have h' : (0 : ℝ) ≤ threshold := by exact_mod_cast h
    rw [Real.lt_sqrt h']
    push_cast
    rw [← pow_two]
    exact or_iff_right (not_lt.mpr h)

/-- Exact arithmetic always finds a tone (R141, U10). -/
theorem toneLost_exact (x : List Sample) (s : Nat) : toneLost exactArithmetic x s = false := rfl

theorem readSymbols_lost_exact (x : List Sample) (n p : Nat) :
    (readSymbols exactArithmetic x n p).lost = false := by
  induction n generalizing p with
  | zero => rfl
  | succ n ih => rw [readSymbols]; split <;> simp [toneLost_exact, ih]

/-- R141, U10: exact arithmetic never reads a lost tone as 0, so `W_TONE` is never raised. -/
theorem demodulate_lost_exact (threshold : Rat) (x : List Sample) (d : Demodulated)
    (h : demodulate exactArithmetic threshold x = .ok d) : d.lost = false := by
  unfold demodulate at h
  split at h
  · cases h
  · split at h
    · cases h
    · cases h
      simp [readSymbols_lost_exact, toneLost_exact]

end Sys2Proof.Machine
end

