-- ==== Sys2Proof/Laws/State.lean ====
section
/-!
SUPPORT. What each whole-state update leaves in each field: one lemma per field per update, so that no later proof
unfolds a record update.
-/

namespace Sys2Proof.Machine

section beginCommandFields

@[simp] theorem beginCommand_cmd (w : Word) (s : State) : (beginCommand w s).cmd = w := rfl
@[simp] theorem beginCommand_status (w : Word) (s : State) : (beginCommand w s).status = statusLaunched := rfl
@[simp] theorem beginCommand_warn (w : Word) (s : State) : (beginCommand w s).warn = 0 := rfl
@[simp] theorem beginCommand_arg0 (w : Word) (s : State) : (beginCommand w s).arg0 = s.arg0 := rfl
@[simp] theorem beginCommand_arg1 (w : Word) (s : State) : (beginCommand w s).arg1 = s.arg1 := rfl
@[simp] theorem beginCommand_arg2 (w : Word) (s : State) : (beginCommand w s).arg2 = s.arg2 := rfl
@[simp] theorem beginCommand_arg3 (w : Word) (s : State) : (beginCommand w s).arg3 = s.arg3 := rfl
@[simp] theorem beginCommand_res0 (w : Word) (s : State) : (beginCommand w s).res0 = s.res0 := rfl
@[simp] theorem beginCommand_res1 (w : Word) (s : State) : (beginCommand w s).res1 = s.res1 := rfl
@[simp] theorem beginCommand_res2 (w : Word) (s : State) : (beginCommand w s).res2 = s.res2 := rfl
@[simp] theorem beginCommand_res3 (w : Word) (s : State) : (beginCommand w s).res3 = s.res3 := rfl
@[simp] theorem beginCommand_mag (w : Word) (s : State) : (beginCommand w s).mag = s.mag := rfl
@[simp] theorem beginCommand_bin (w : Word) (s : State) : (beginCommand w s).bin = s.bin := rfl
@[simp] theorem beginCommand_bout (w : Word) (s : State) : (beginCommand w s).bout = s.bout := rfl
@[simp] theorem beginCommand_namebuf (w : Word) (s : State) : (beginCommand w s).namebuf = s.namebuf := rfl
@[simp] theorem beginCommand_sin (w : Word) (s : State) : (beginCommand w s).sin = s.sin := rfl
@[simp] theorem beginCommand_sout (w : Word) (s : State) : (beginCommand w s).sout = s.sout := rfl
@[simp] theorem beginCommand_params (w : Word) (s : State) : (beginCommand w s).params = s.params := rfl
@[simp] theorem beginCommand_inbox (w : Word) (s : State) : (beginCommand w s).inbox = s.inbox := rfl
@[simp] theorem beginCommand_hostData (w : Word) (s : State) : (beginCommand w s).hostData = s.hostData := rfl
@[simp] theorem beginCommand_free (w : Word) (s : State) : (beginCommand w s).free = s.free := rfl

end beginCommandFields

section launchFields

/-- The word of a command is launched. -/
theorem launch_of_decode {w : Word} {i : Instr} (s : State) (h : decode w = .ok i) : launch w s = beginCommand w s := by
  rw [launch, h]

/-- An illegal word completes at once (R53). -/
theorem launch_of_illegal {w : Word} {e : DecodeError} (s : State) (h : decode w = .error e) :
    launch w s = raiseErr .illegal (beginCommand w s) := by
  rw [launch, h]

@[simp] theorem launch_encode (i : Instr) (s : State) : launch (encode i) s = beginCommand (encode i) s := by
  cases i <;> rfl

@[simp] theorem launch_cmd (w : Word) (s : State) : (launch w s).cmd = w := by
  unfold launch; split <;> rfl
@[simp] theorem launch_warn (w : Word) (s : State) : (launch w s).warn = 0 := by
  unfold launch; split <;> rfl
@[simp] theorem launch_arg0 (w : Word) (s : State) : (launch w s).arg0 = s.arg0 := by
  unfold launch; split <;> rfl
@[simp] theorem launch_arg1 (w : Word) (s : State) : (launch w s).arg1 = s.arg1 := by
  unfold launch; split <;> rfl
@[simp] theorem launch_arg2 (w : Word) (s : State) : (launch w s).arg2 = s.arg2 := by
  unfold launch; split <;> rfl
@[simp] theorem launch_arg3 (w : Word) (s : State) : (launch w s).arg3 = s.arg3 := by
  unfold launch; split <;> rfl
@[simp] theorem launch_res0 (w : Word) (s : State) : (launch w s).res0 = s.res0 := by
  unfold launch; split <;> rfl
@[simp] theorem launch_res1 (w : Word) (s : State) : (launch w s).res1 = s.res1 := by
  unfold launch; split <;> rfl
@[simp] theorem launch_res2 (w : Word) (s : State) : (launch w s).res2 = s.res2 := by
  unfold launch; split <;> rfl
@[simp] theorem launch_res3 (w : Word) (s : State) : (launch w s).res3 = s.res3 := by
  unfold launch; split <;> rfl
@[simp] theorem launch_mag (w : Word) (s : State) : (launch w s).mag = s.mag := by
  unfold launch; split <;> rfl
@[simp] theorem launch_bin (w : Word) (s : State) : (launch w s).bin = s.bin := by
  unfold launch; split <;> rfl
@[simp] theorem launch_bout (w : Word) (s : State) : (launch w s).bout = s.bout := by
  unfold launch; split <;> rfl
@[simp] theorem launch_namebuf (w : Word) (s : State) : (launch w s).namebuf = s.namebuf := by
  unfold launch; split <;> rfl
@[simp] theorem launch_sin (w : Word) (s : State) : (launch w s).sin = s.sin := by
  unfold launch; split <;> rfl
@[simp] theorem launch_sout (w : Word) (s : State) : (launch w s).sout = s.sout := by
  unfold launch; split <;> rfl
@[simp] theorem launch_params (w : Word) (s : State) : (launch w s).params = s.params := by
  unfold launch; split <;> rfl
@[simp] theorem launch_inbox (w : Word) (s : State) : (launch w s).inbox = s.inbox := by
  unfold launch; split <;> rfl
@[simp] theorem launch_hostData (w : Word) (s : State) : (launch w s).hostData = s.hostData := by
  unfold launch; split <;> rfl
@[simp] theorem launch_free (w : Word) (s : State) : (launch w s).free = s.free := by
  unfold launch; split <;> rfl

end launchFields

section completeFields

@[simp] theorem complete_cmd (s : State) : (complete s).cmd = s.cmd := rfl
@[simp] theorem complete_status (s : State) : (complete s).status = statusCompleted 0 := rfl
@[simp] theorem complete_warn (s : State) : (complete s).warn = s.warn := rfl
@[simp] theorem complete_arg0 (s : State) : (complete s).arg0 = s.arg0 := rfl
@[simp] theorem complete_arg1 (s : State) : (complete s).arg1 = s.arg1 := rfl
@[simp] theorem complete_arg2 (s : State) : (complete s).arg2 = s.arg2 := rfl
@[simp] theorem complete_arg3 (s : State) : (complete s).arg3 = s.arg3 := rfl
@[simp] theorem complete_res0 (s : State) : (complete s).res0 = s.res0 := rfl
@[simp] theorem complete_res1 (s : State) : (complete s).res1 = s.res1 := rfl
@[simp] theorem complete_res2 (s : State) : (complete s).res2 = s.res2 := rfl
@[simp] theorem complete_res3 (s : State) : (complete s).res3 = s.res3 := rfl
@[simp] theorem complete_mag (s : State) : (complete s).mag = s.mag := rfl
@[simp] theorem complete_bin (s : State) : (complete s).bin = s.bin := rfl
@[simp] theorem complete_bout (s : State) : (complete s).bout = s.bout := rfl
@[simp] theorem complete_namebuf (s : State) : (complete s).namebuf = s.namebuf := rfl
@[simp] theorem complete_sin (s : State) : (complete s).sin = s.sin := rfl
@[simp] theorem complete_sout (s : State) : (complete s).sout = s.sout := rfl
@[simp] theorem complete_params (s : State) : (complete s).params = s.params := rfl
@[simp] theorem complete_inbox (s : State) : (complete s).inbox = s.inbox := rfl
@[simp] theorem complete_hostData (s : State) : (complete s).hostData = s.hostData := rfl
@[simp] theorem complete_free (s : State) : (complete s).free = s.free := rfl

end completeFields

section raiseErrFields

@[simp] theorem raiseErr_cmd (e : ErrCode) (s : State) : (raiseErr e s).cmd = s.cmd := rfl
@[simp] theorem raiseErr_status (e : ErrCode) (s : State) : (raiseErr e s).status = statusCompleted e.code := rfl
@[simp] theorem raiseErr_warn (e : ErrCode) (s : State) : (raiseErr e s).warn = s.warn := rfl
@[simp] theorem raiseErr_arg0 (e : ErrCode) (s : State) : (raiseErr e s).arg0 = s.arg0 := rfl
@[simp] theorem raiseErr_arg1 (e : ErrCode) (s : State) : (raiseErr e s).arg1 = s.arg1 := rfl
@[simp] theorem raiseErr_arg2 (e : ErrCode) (s : State) : (raiseErr e s).arg2 = s.arg2 := rfl
@[simp] theorem raiseErr_arg3 (e : ErrCode) (s : State) : (raiseErr e s).arg3 = s.arg3 := rfl
@[simp] theorem raiseErr_res0 (e : ErrCode) (s : State) : (raiseErr e s).res0 = s.res0 := rfl
@[simp] theorem raiseErr_res1 (e : ErrCode) (s : State) : (raiseErr e s).res1 = s.res1 := rfl
@[simp] theorem raiseErr_res2 (e : ErrCode) (s : State) : (raiseErr e s).res2 = s.res2 := rfl
@[simp] theorem raiseErr_res3 (e : ErrCode) (s : State) : (raiseErr e s).res3 = s.res3 := rfl
@[simp] theorem raiseErr_mag (e : ErrCode) (s : State) : (raiseErr e s).mag = s.mag := rfl
@[simp] theorem raiseErr_bin (e : ErrCode) (s : State) : (raiseErr e s).bin = s.bin := rfl
@[simp] theorem raiseErr_bout (e : ErrCode) (s : State) : (raiseErr e s).bout = s.bout := rfl
@[simp] theorem raiseErr_namebuf (e : ErrCode) (s : State) : (raiseErr e s).namebuf = s.namebuf := rfl
@[simp] theorem raiseErr_sin (e : ErrCode) (s : State) : (raiseErr e s).sin = s.sin := rfl
@[simp] theorem raiseErr_sout (e : ErrCode) (s : State) : (raiseErr e s).sout = s.sout := rfl
@[simp] theorem raiseErr_params (e : ErrCode) (s : State) : (raiseErr e s).params = s.params := rfl
@[simp] theorem raiseErr_inbox (e : ErrCode) (s : State) : (raiseErr e s).inbox = s.inbox := rfl
@[simp] theorem raiseErr_hostData (e : ErrCode) (s : State) : (raiseErr e s).hostData = s.hostData := rfl
@[simp] theorem raiseErr_free (e : ErrCode) (s : State) : (raiseErr e s).free = s.free := rfl

end raiseErrFields

section warnFields

@[simp] theorem warn_cmd (b : Word) (s : State) : (warn b s).cmd = s.cmd := rfl
@[simp] theorem warn_status (b : Word) (s : State) : (warn b s).status = s.status := rfl
@[simp] theorem warn_warn (b : Word) (s : State) : (warn b s).warn = s.warn ||| b := rfl
@[simp] theorem warn_arg0 (b : Word) (s : State) : (warn b s).arg0 = s.arg0 := rfl
@[simp] theorem warn_arg1 (b : Word) (s : State) : (warn b s).arg1 = s.arg1 := rfl
@[simp] theorem warn_arg2 (b : Word) (s : State) : (warn b s).arg2 = s.arg2 := rfl
@[simp] theorem warn_arg3 (b : Word) (s : State) : (warn b s).arg3 = s.arg3 := rfl
@[simp] theorem warn_res0 (b : Word) (s : State) : (warn b s).res0 = s.res0 := rfl
@[simp] theorem warn_res1 (b : Word) (s : State) : (warn b s).res1 = s.res1 := rfl
@[simp] theorem warn_res2 (b : Word) (s : State) : (warn b s).res2 = s.res2 := rfl
@[simp] theorem warn_res3 (b : Word) (s : State) : (warn b s).res3 = s.res3 := rfl
@[simp] theorem warn_mag (b : Word) (s : State) : (warn b s).mag = s.mag := rfl
@[simp] theorem warn_bin (b : Word) (s : State) : (warn b s).bin = s.bin := rfl
@[simp] theorem warn_bout (b : Word) (s : State) : (warn b s).bout = s.bout := rfl
@[simp] theorem warn_namebuf (b : Word) (s : State) : (warn b s).namebuf = s.namebuf := rfl
@[simp] theorem warn_sin (b : Word) (s : State) : (warn b s).sin = s.sin := rfl
@[simp] theorem warn_sout (b : Word) (s : State) : (warn b s).sout = s.sout := rfl
@[simp] theorem warn_params (b : Word) (s : State) : (warn b s).params = s.params := rfl
@[simp] theorem warn_inbox (b : Word) (s : State) : (warn b s).inbox = s.inbox := rfl
@[simp] theorem warn_hostData (b : Word) (s : State) : (warn b s).hostData = s.hostData := rfl
@[simp] theorem warn_free (b : Word) (s : State) : (warn b s).free = s.free := rfl

end warnFields

/-- A command that raises an error answers the error completion, and nothing else. -/
@[simp] theorem fail_eq (e : ErrCode) (s : State) : fail e s = .next (raiseErr e s) := rfl

/-- A command that ends well answers the completed state, and nothing else. -/
@[simp] theorem succeed_eq (s : State) : succeed s = .next (complete s) := rfl

end Sys2Proof.Machine
end

