-- ==== Sys2Proof/Laws/Ops.lean ====
section
/-!
SUPPORT. The buffer operations: a read after a write, the canonical form, and, for each shared operation of
Machine/Ops.lean, all it can answer.
-/

namespace Sys2Proof.Machine

/-! ## One element -/

@[simp] theorem readElem_nil {α : Type} (a : Nat) : readElem ([] : List (Nat × α)) a = none := rfl

theorem readElem_cons {α : Type} (k : Nat) (v : α) (m : List (Nat × α)) (a : Nat) :
    readElem ((k, v) :: m) a = if a = k then some v else readElem m a := by
  rw [readElem, List.lookup_cons]
  by_cases h : a = k
  · simp [h]
  · rw [if_neg h, beq_false_of_ne h]
    rfl

theorem readElem_append {α : Type} (m n : List (Nat × α)) (a : Nat) :
    readElem (m ++ n) a = (readElem m a).or (readElem n a) := by
  induction m with
  | nil => simp
  | cons c m ih =>
    obtain ⟨k, v⟩ := c
    rw [List.cons_append, readElem_cons, readElem_cons, ih]
    split <;> simp

theorem readElem_filter {α : Type} (m : List (Nat × α)) (p : Nat → Bool) (a : Nat) :
    readElem (m.filter fun c => p c.1) a = if p a then readElem m a else none := by
  induction m with
  | nil => simp
  | cons c m ih =>
    obtain ⟨k, v⟩ := c
    rw [List.filter_cons, readElem_cons]
    by_cases hk : a = k
    · subst hk
      by_cases hp : p a = true
      · simp [hp, readElem_cons]
      · simpa [hp] using ih
    · by_cases hp : p k = true
      · simpa [hp, readElem_cons, hk] using ih
      · simpa [hp, hk] using ih

theorem readElem_cellsFrom {α : Type} (off : Nat) (xs : List α) (a : Nat) :
    readElem (cellsFrom off xs) a = if off ≤ a then xs[a - off]? else none := by
  induction xs generalizing off with
  | nil => simp [cellsFrom]
  | cons x xs ih =>
    rw [cellsFrom, readElem_cons, ih]
    by_cases h : a = off
    · simp [h]
    · by_cases h2 : off ≤ a
      · have e : a - off = (a - (off + 1)) + 1 := by omega
        simp [h, h2, e, show off + 1 ≤ a by omega]
      · simp [h, h2, show ¬ off + 1 ≤ a by omega]

/-- Reading after a write (R30, R36): the written elements, and every other element as it was. -/
theorem readElem_writeRun {α : Type} (m : List (Nat × α)) (off : Nat) (xs : List α) (a : Nat) :
    readElem (writeRun m off xs) a = if off ≤ a ∧ a < off + xs.length then xs[a - off]? else readElem m a := by
  cases xs with
  | nil => simp [writeRun, show ¬ (off ≤ a ∧ a < off) by omega]
  | cons x xs =>
    rw [writeRun, readElem_append, readElem_append, readElem_filter m (fun k => k < off),
      readElem_filter m (fun k => off + (x :: xs).length ≤ k), readElem_cellsFrom]
    by_cases h1 : off ≤ a
    · by_cases h2 : a < off + (x :: xs).length
      · have hi : a - off < (x :: xs).length := by omega
        simp only [h1, h2, show ¬ a < off by omega, decide_false, and_self, if_true]
        simp [List.getElem?_eq_getElem hi]
      · have hi : (x :: xs).length ≤ a - off := by omega
        simp only [h1, h2, show ¬ a < off by omega, decide_false, and_false, if_true, if_false,
          List.getElem?_eq_none hi, show off + (x :: xs).length ≤ a by omega, decide_true]
        simp
    · simp only [h1, show a < off by omega, show ¬ off + (x :: xs).length ≤ a by omega, decide_true, decide_false,
        false_and, if_true, if_false]
      simp

/-! ## The canonical form -/

/-- The canonical form in terms of all entries. -/
theorem bufferOk_iff {α : Type} (cap : Nat) (m : List (Nat × α)) :
    bufferOk cap m = true ↔ m.Pairwise (fun c d => c.1 < d.1) ∧ ∀ c ∈ m, c.1 < cap := by
  simp [bufferOk, keysRiseFrom_iff]

@[simp] theorem bufferOk_nil {α : Type} (cap : Nat) : bufferOk cap ([] : List (Nat × α)) = true := rfl

theorem mem_cellsFrom {α : Type} (off : Nat) (xs : List α) (c : Nat × α) (h : c ∈ cellsFrom off xs) :
    off ≤ c.1 ∧ c.1 < off + xs.length ∧ c.2 ∈ xs := by
  induction xs generalizing off with
  | nil => simp [cellsFrom] at h
  | cons x xs ih =>
    rcases List.mem_cons.mp h with rfl | h
    · simp
    · obtain ⟨h1, h2, h3⟩ := ih _ h
      simp only [List.length_cons]
      exact ⟨by omega, by omega, List.mem_cons_of_mem _ h3⟩

theorem pairwise_cellsFrom {α : Type} (off : Nat) (xs : List α) :
    (cellsFrom off xs).Pairwise fun c d => c.1 < d.1 := by
  induction xs generalizing off with
  | nil => exact List.Pairwise.nil
  | cons x xs ih => exact List.Pairwise.cons (fun d hd => (mem_cellsFrom _ _ d hd).1) (ih _)

/-- Every entry after a write is a written element or was there before. -/
theorem mem_writeRun {α : Type} (m : List (Nat × α)) (off : Nat) (xs : List α) (c : Nat × α)
    (h : c ∈ writeRun m off xs) : c ∈ m ∨ (off ≤ c.1 ∧ c.1 < off + xs.length ∧ c.2 ∈ xs) := by
  cases xs with
  | nil => exact .inl h
  | cons x xs =>
    simp only [writeRun, List.mem_append, List.mem_filter] at h
    rcases h with (h | h) | h
    · exact .inl h.1
    · exact .inr (mem_cellsFrom _ _ c h)
    · exact .inl h.1

/-- A write inside the capacity keeps the canonical form. -/
theorem bufferOk_writeRun {α : Type} (cap : Nat) (m : List (Nat × α)) (off : Nat) (xs : List α)
    (hm : bufferOk cap m = true) (h : off + xs.length ≤ cap) : bufferOk cap (writeRun m off xs) = true := by
  rw [bufferOk_iff] at hm ⊢
  refine ⟨?_, fun c hc => ?_⟩
  · cases xs with
    | nil => exact hm.1
    | cons x xs =>
      rw [writeRun, List.pairwise_append, List.pairwise_append]
      refine ⟨⟨hm.1.filter _, pairwise_cellsFrom _ _, fun c hc d hd => ?_⟩, hm.1.filter _, fun c hc d hd => ?_⟩
      · have h1 := (List.mem_filter.mp hc).2
        have h2 := (mem_cellsFrom _ _ d hd).1
        simp only [decide_eq_true_eq] at h1
        omega
      · have h2 := (List.mem_filter.mp hd).2
        simp only [decide_eq_true_eq] at h2
        rcases List.mem_append.mp hc with hc | hc
        · have h1 := (List.mem_filter.mp hc).2
          simp only [decide_eq_true_eq] at h1
          omega
        · have h1 := (mem_cellsFrom _ _ c hc).2.1
          omega
  · rcases mem_writeRun m off xs c hc with hc | hc
    · exact hm.2 c hc
    · omega

/-! ## Runs of elements -/

/-- What `readRun` answers has the length asked for, and its elements stand in the buffer. -/
theorem readRun_some {α : Type} (m : List (Nat × α)) (off n : Nat) (xs : List α) (h : readRun m off n = some xs) :
    xs.length = n ∧ ∀ x ∈ xs, ∃ c ∈ m, c.2 = x := by
  induction m generalizing off n xs with
  | nil =>
    cases n with
    | zero => simp [readRun] at h; subst h; simp
    | succ n => simp [readRun] at h
  | cons c m ih =>
    obtain ⟨a, v⟩ := c
    cases n with
    | zero => simp [readRun] at h; subst h; simp
    | succ n =>
      rw [readRun] at h
      split at h
      · obtain ⟨h1, h2⟩ := ih _ _ _ h
        exact ⟨h1, fun x hx => by obtain ⟨c, hc, e⟩ := h2 x hx; exact ⟨c, by simp [hc], e⟩⟩
      · split at h
        · obtain ⟨ys, hys, rfl⟩ := Option.map_eq_some_iff.mp h
          obtain ⟨h1, h2⟩ := ih _ _ _ hys
          refine ⟨by simp [h1], fun x hx => ?_⟩
          rcases List.mem_cons.mp hx with rfl | hx
          · exact ⟨(a, x), by simp, rfl⟩
          · obtain ⟨c, hc, e⟩ := h2 x hx; exact ⟨c, by simp [hc], e⟩
        · exact absurd h (by simp)

/-- Every element of a run that `readRun` answers is read by `readElem`, in any buffer. -/
theorem readElem_of_readRun {α : Type} (m : List (Nat × α)) (off n : Nat) (xs : List α)
    (h : readRun m off n = some xs) (i : Nat) (hi : i < n) : readElem m (off + i) = xs[i]? := by
  induction m generalizing off n xs i with
  | nil =>
    cases n with
    | zero => omega
    | succ n => simp [readRun] at h
  | cons c m ih =>
    obtain ⟨a, v⟩ := c
    cases n with
    | zero => omega
    | succ n =>
      rw [readRun] at h
      rw [readElem_cons]
      split at h
      · next hlt =>
        rw [if_neg (by omega)]
        exact ih _ _ _ h _ hi
      · split at h
        · next he =>
          subst he
          obtain ⟨ys, hys, rfl⟩ := Option.map_eq_some_iff.mp h
          cases i with
          | zero => simp
          | succ i =>
            rw [if_neg (by omega), show a + (i + 1) = a + 1 + i by omega, ih _ _ _ hys i (by omega)]
            simp
        · exact absurd h (by simp)

/-- A run in which one element holds no value is not read (R190). -/
theorem readRun_eq_none {α : Type} (m : List (Nat × α)) (off n i : Nat) (hi : i < n)
    (h : readElem m (off + i) = none) : readRun m off n = none := by
  cases hr : readRun m off n with
  | none => rfl
  | some xs =>
    have h1 := readElem_of_readRun m off n xs hr i hi
    rw [h, eq_comm, List.getElem?_eq_none_iff, (readRun_some m off n xs hr).1] at h1
    omega

/-- Reading back a run that was just listed. -/
theorem readRun_cellsFrom {α : Type} (off : Nat) (xs : List α) : readRun (cellsFrom off xs) off xs.length = some xs := by
  induction xs generalizing off with
  | nil => simp [cellsFrom, readRun]
  | cons x xs ih => simp [cellsFrom, readRun, ih]

/-- In a buffer in canonical form a run is its elements one by one. -/
theorem readRun_eq_some_iff {α : Type} (cap : Nat) (m : List (Nat × α)) (hm : bufferOk cap m = true) (off n : Nat)
    (xs : List α) :
    readRun m off n = some xs ↔ xs.length = n ∧ ∀ i, i < n → readElem m (off + i) = xs[i]? := by
  rw [bufferOk_iff] at hm
  have hp := hm.1
  clear hm
  induction m generalizing off n xs with
  | nil =>
    cases n with
    | zero => simp [readRun, eq_comm]
    | succ n =>
      refine iff_of_false (by simp [readRun]) ?_
      rintro ⟨h1, h2⟩
      have := h2 0 (by omega)
      rw [readElem_nil, eq_comm, List.getElem?_eq_none_iff] at this
      omega
  | cons c m ih =>
    obtain ⟨a, v⟩ := c
    rw [List.pairwise_cons] at hp
    have ih : ∀ off n xs, readRun m off n = some xs ↔ xs.length = n ∧ ∀ i, i < n → readElem m (off + i) = xs[i]? :=
      fun off n xs => ih off n xs hp.2
    cases n with
    | zero => simp [readRun, eq_comm]
    | succ n =>
      rw [readRun]
      split
      · next hlt =>
        rw [ih]
        simp only [readElem_cons]
        refine and_congr_right fun _ => forall_congr' fun i => imp_congr_right fun _ => ?_
        rw [if_neg (by omega)]
      · next hlt =>
        split
        · next he =>
          subst he
          rw [Option.map_eq_some_iff]
          constructor
          · rintro ⟨ys, hys, rfl⟩
            obtain ⟨h1, h2⟩ := (ih _ _ _).mp hys
            refine ⟨by simp [h1], fun i hi => ?_⟩
            rw [readElem_cons]
            cases i with
            | zero => simp
            | succ i => rw [if_neg (by omega), show a + (i + 1) = a + 1 + i by omega, h2 i (by omega)]; simp
          · rintro ⟨h1, h2⟩
            cases xs with
            | nil => simp at h1
            | cons x ys =>
              have h0 := h2 0 (by omega)
              rw [readElem_cons] at h0
              simp only [Nat.add_zero, if_true, List.getElem?_cons_zero, Option.some.injEq] at h0
              subst h0
              refine ⟨ys, (ih _ _ _).mpr ⟨by simpa using h1, fun i hi => ?_⟩, rfl⟩
              have h := h2 (i + 1) (by omega)
              rw [readElem_cons, if_neg (by omega), show a + (i + 1) = a + 1 + i by omega] at h
              simpa using h
        · next hne =>
          refine iff_of_false (by simp) ?_
          rintro ⟨h1, h2⟩
          have h := h2 0 (by omega)
          rw [readElem_cons, if_neg (by omega), Nat.add_zero] at h
          have hnone : readElem m off = none := by
            rw [readElem, List.lookup_eq_none_iff]
            intro p hmem
            have := hp.1 p hmem
            simp only at this
            simp only [bne_iff_ne, ne_eq]
            omega
          rw [hnone, eq_comm, List.getElem?_eq_none_iff] at h
          omega

/-! ## All that a shared operation can answer -/

/-- `withBin`: the capacity error, the fault of R190, or what the continuation answers on the bytes read. -/
theorem withBin_cases (n : Nat) (s : State) (k : List Byte → Answer) :
    (s.params.binCap < n ∧ withBin n s k = .next (raiseErr .cap s)) ∨
      (n ≤ s.params.binCap ∧ readRun s.bin 0 n = none ∧ withBin n s k = .fault (.unwrittenElement .bin)) ∨
      ∃ bs, n ≤ s.params.binCap ∧ readRun s.bin 0 n = some bs ∧ withBin n s k = k bs := by
  unfold withBin
  split
  · next h => exact .inl ⟨h, rfl⟩
  · next h =>
    refine .inr ?_
    cases hr : readRun s.bin 0 n with
    | none => exact .inl ⟨by omega, rfl, rfl⟩
    | some bs => exact .inr ⟨bs, by omega, rfl, rfl⟩

/-- `withSin`: the capacity error, the fault of R190, or what the continuation answers on the samples read. -/
theorem withSin_cases (n : Nat) (s : State) (k : List Sample → Answer) :
    (s.params.sinCap < n ∧ withSin n s k = .next (raiseErr .cap s)) ∨
      (n ≤ s.params.sinCap ∧ readRun s.sin 0 n = none ∧ withSin n s k = .fault (.unwrittenElement .sin)) ∨
      ∃ xs, n ≤ s.params.sinCap ∧ readRun s.sin 0 n = some xs ∧ withSin n s k = k xs := by
  unfold withSin
  split
  · next h => exact .inl ⟨h, rfl⟩
  · next h =>
    refine .inr ?_
    cases hr : readRun s.sin 0 n with
    | none => exact .inl ⟨by omega, rfl, rfl⟩
    | some bs => exact .inr ⟨bs, by omega, rfl, rfl⟩

/-- `withName`: the fault of R190, or what the continuation answers on the name read. -/
theorem withName_cases (n : Nat) (s : State) (k : List Byte → Answer) :
    (readRun s.namebuf 0 n = none ∧ withName n s k = .fault (.unwrittenElement .namebuf)) ∨
      ∃ bs, readRun s.namebuf 0 n = some bs ∧ withName n s k = k bs := by
  unfold withName
  cases hr : readRun s.namebuf 0 n with
  | none => exact .inl ⟨rfl, rfl⟩
  | some bs => exact .inr ⟨bs, rfl, rfl⟩

/-- `commitBytes`: the capacity error on `s`, or the completed state with the bytes in `BOUT`. -/
theorem commitBytes_cases (out : List Byte) (s t : State) :
    (s.params.boutCap < out.length ∧ commitBytes out s t = .next (raiseErr .cap s)) ∨
      (out.length ≤ s.params.boutCap ∧
        commitBytes out s t = .next (complete { t with bout := writeRun t.bout 0 out })) := by
  unfold commitBytes
  split
  · next h => exact .inl ⟨h, rfl⟩
  · next h => exact .inr ⟨by omega, rfl⟩

/-- `commitSamples`: the capacity error on `s`, or the completed state with the samples in `SOUT`. -/
theorem commitSamples_cases (out : List Sample) (s t : State) :
    (s.params.soutCap < out.length ∧ commitSamples out s t = .next (raiseErr .cap s)) ∨
      (out.length ≤ s.params.soutCap ∧
        commitSamples out s t = .next (complete { t with sout := writeRun t.sout 0 out })) := by
  unfold commitSamples
  split
  · next h => exact .inl ⟨h, rfl⟩
  · next h => exact .inr ⟨by omega, rfl⟩

end Sys2Proof.Machine
end

