-- ==== Sys2Proof/Laws/PerInstr.lean ====
section
/-!
SUPPORT. Laws stated once per command, about commands as syntax.
-/

namespace Sys2Proof.Laws.WordOfFamily

/-- The number of a command's family (spec/30_encoding.md R52). -/
def familyOf : Instr → Nat
  | .gfmul | .gfdiv | .gfpmul => 1
  | .rsenc1 | .rsdec1 | .rsenc | .rsdec => 2
  | .crc32 => 3
  | .frame | .parse => 4
  | .tone | .preamb | .mod => 5
  | .goertz | .syncfind | .detect | .demod => 6
  | .encode | .decode => 7

/-- R50: the word of the command, as the opcode table numbers its bits, is read back as the command, and bits 7:4 are the
number of its family. -/
def Statement (i : Instr) : Prop :=
  decodeTableWord 32 (encode i).toNat = some i ∧ (encode i).extractLsb' 4 4 = BitVec.ofNat 4 (familyOf i)

theorem gfmul : Statement .gfmul := by unfold Statement; decide

theorem gfdiv : Statement .gfdiv := by unfold Statement; decide

theorem gfpmul : Statement .gfpmul := by unfold Statement; decide

theorem rsenc1 : Statement .rsenc1 := by unfold Statement; decide

theorem rsdec1 : Statement .rsdec1 := by unfold Statement; decide

theorem rsenc : Statement .rsenc := by unfold Statement; decide

theorem rsdec : Statement .rsdec := by unfold Statement; decide

theorem crc32 : Statement .crc32 := by unfold Statement; decide

theorem frame : Statement .frame := by unfold Statement; decide

theorem parse : Statement .parse := by unfold Statement; decide

theorem tone : Statement .tone := by unfold Statement; decide

theorem preamb : Statement .preamb := by unfold Statement; decide

theorem mod : Statement .mod := by unfold Statement; decide

theorem goertz : Statement .goertz := by unfold Statement; decide

theorem syncfind : Statement .syncfind := by unfold Statement; decide

theorem detect : Statement .detect := by unfold Statement; decide

theorem demod : Statement .demod := by unfold Statement; decide

theorem encode : Statement .encode := by unfold Statement; decide

theorem decode : Statement .decode := by unfold Statement; decide

end Sys2Proof.Laws.WordOfFamily
end

