-- ==== Sys2Proof/Laws/Probe.lean ====
section
/-!
SUPPORT. Signals whose demodulation is known without evaluating 256 magnitudes: windows that are zero but for their last
samples. They are the concrete audio of the witnesses in Tests/Slice0.lean.
-/

namespace Sys2Proof.Machine

open RealNum

/-! ## Windows that begin with zeros -/

theorem mulTerms_nil (x : Sample) : RealSum.mulTerms x [] = [] := by
  induction x with
  | nil => rfl
  | cons t x ih =>
    have h : RealSum.mulTerms (t :: x) [] = RealSum.mulTerms x [] := rfl
    rw [h, ih]

theorem sum_mul_nil (x : Sample) : RealSum.mul x [] = [] := by rw [RealSum.mul, mulTerms_nil]; rfl

theorem goertzelStep_zero (c : Sample) :
    goertzelStep exactArithmetic c { q1 := [], q2 := [] } [] = { q1 := [], q2 := [] } := by
  simp [goertzelStep, exactArithmetic, sum_mul_nil, RealSum.sub, RealSum.neg, RealSum.add]

theorem exact_const_zero : exactArithmetic.const 0 = [] := by decide +kernel

/-- Leading zeros leave the accumulators at 0. -/
theorem goertzelWindow_zeros (n : Nat) (w : List Sample) (f : Nat) :
    goertzelWindow exactArithmetic (List.replicate n [] ++ w) f = goertzelWindow exactArithmetic w f := by
  have h : ∀ c n, (List.replicate n ([] : Sample)).foldl (goertzelStep exactArithmetic c) { q1 := [], q2 := [] }
      = { q1 := [], q2 := [] } := by
    intro c n
    induction n with
    | zero => rfl
    | succ n ih => rw [List.replicate_succ, List.foldl_cons, goertzelStep_zero, ih]
  simp only [goertzelWindow, exact_const_zero, List.foldl_append, h]

/-- R135: "an all-zero window gives exactly 0". -/
theorem goertzelWindow_silence (n f : Nat) : goertzelWindow exactArithmetic (List.replicate n []) f = { square := [] } := by
  have h := goertzelWindow_zeros n [] f
  rw [List.append_nil] at h
  rw [h]
  simp only [goertzelWindow, exact_const_zero, List.foldl_nil]
  rfl

/-! ## A window that holds one byte -/

/-- A data window that ends in the three samples 2, `8·cos ω`, -1, `ω` the angle of the tone `b`. -/
def probe (b : Byte) : List Sample :=
  List.replicate 1320 [] ++
    [RealSum.ofTrig (cosTerm 2 0), RealSum.ofTrig (cosTerm 8 (angleNumber (freq b.toNat) 1)),
      RealSum.ofTrig (cosTerm (-1) 0)]

/-- The square of the magnitude of the three samples, as a real number. -/
theorem realOf_probe (v f : Nat) :
    realOf (goertzelWindow exactArithmetic
      [RealSum.ofTrig (cosTerm 2 0), RealSum.ofTrig (cosTerm 8 v), RealSum.ofTrig (cosTerm (-1) 0)]
      f).square =
      9 + 72 * Real.cos (Real.pi * v / 882) ^ 2 -
        8 * (Real.cos (Real.pi * (angleNumber f 1 : Nat) / 882) - Real.cos (Real.pi * v / 882)) ^ 2 := by
  simp only [goertzelWindow, List.foldl_cons, List.foldl_nil, goertzelStep, exactArithmetic, realOf_add, realOf_mul,
    realOf_sub, realOf_ofTrig, trigValue_ofRat, trigValue_cosTerm, trigValue_sinTerm]
  have h := Real.sin_sq_add_cos_sq (Real.pi * (angleNumber f 1 : Nat) / 882)
  have hs : Real.sin (Real.pi * (angleNumber f 1 : Nat) / 882) ^ 2
      = 1 - Real.cos (Real.pi * (angleNumber f 1 : Nat) / 882) ^ 2 := by linarith
  have h0 : Real.cos (Real.pi * (0 : Nat) / 882) = 1 := by simp
  rw [h0]
  push_cast
  generalize Real.cos (Real.pi * (angleNumber f 1 : Nat) / 882) = c at *
  generalize Real.sin (Real.pi * (angleNumber f 1 : Nat) / 882) = d at *
  linear_combination (4 * c + 8 * Real.cos (Real.pi * v / 882)) ^ 2 * hs

theorem angleNumber_freq {k : Nat} (h : k ≤ 255) : angleNumber (freq k) 1 = 80 + 2 * k := by
  have : freq k = 2000 + k * 50 := by
    rw [freq, if_neg (by omega)]; rfl
  rw [this, angleNumber, show sampleRate = 44100 from rfl]
  omega

theorem cos_angle_inj {v w : Nat} (hv : v ≤ 882) (hw : w ≤ 882)
    (h : Real.cos (Real.pi * v / 882) = Real.cos (Real.pi * w / 882)) : v = w := by
  have hp := Real.pi_pos
  have hm : ∀ n : Nat, n ≤ 882 → Real.pi * n / 882 ∈ Set.Icc 0 Real.pi := by
    intro n hn
    have : (n : ℝ) ≤ 882 := by exact_mod_cast hn
    constructor
    · positivity
    · rw [div_le_iff₀ (by norm_num)]; exact mul_le_mul_of_nonneg_left this hp.le
  have := Real.injOn_cos (hm v hv) (hm w hw) h
  have h2 : (v : ℝ) = w := by
    have h3 : Real.pi * v = Real.pi * w := by linarith
    exact mul_left_cancel₀ hp.ne' h3
  exact_mod_cast h2

/-- A fold over tones ends in the tone that is strictly strongest. -/
theorem foldl_detectStep (w : List Sample) (k₀ : Nat)
    (h : ∀ k, k ≤ 255 → k ≠ k₀ →
      magOf (goertzelWindow exactArithmetic w (freq k)) < magOf (goertzelWindow exactArithmetic w (freq k₀)))
    (l : List Nat) (hl : ∀ k ∈ l, k ≤ 255) (b : BestTone) (hb : b.magnitude = goertzelWindow exactArithmetic w (freq b.tone))
    (hb' : b.tone ≤ 255) (hk : b.tone = k₀ ∨ k₀ ∈ l) : (l.foldl (detectStep exactArithmetic w) b).tone = k₀ := by
  induction l generalizing b with
  | nil => simpa using hk
  | cons k l ih =>
    rw [List.foldl_cons]
    have hk255 : k ≤ 255 := hl k List.mem_cons_self
    have hl' : ∀ k ∈ l, k ≤ 255 := fun j hj => hl j (List.mem_cons_of_mem _ hj)
    have hs : detectStep exactArithmetic w b k =
        if exactArithmetic.greater (goertzelWindow exactArithmetic w (freq k)) b.magnitude
          then { tone := k, magnitude := goertzelWindow exactArithmetic w (freq k) } else b := rfl
    rw [hs, hb]
    have hiff := exact_greater_iff (goertzelWindow exactArithmetic w (freq k))
      (goertzelWindow exactArithmetic w (freq b.tone)) (ok_goertzelWindow keepsForm_exact w _)
      (ok_goertzelWindow keepsForm_exact w _) (goertzelWindow_nonneg w _)
    by_cases hg : exactArithmetic.greater (goertzelWindow exactArithmetic w (freq k))
        (goertzelWindow exactArithmetic w (freq b.tone)) = true
    · rw [if_pos hg]
      rw [hiff] at hg
      refine ih hl' _ rfl hk255 ?_
      by_cases hkk : k = k₀
      · exact .inl hkk
      · rcases hk with hk | hk
        · rw [hk] at hg
          exact absurd hg (not_lt.mpr (h k hk255 hkk).le)
        · rcases List.mem_cons.mp hk with hk | hk
          · exact absurd hk.symm hkk
          · exact .inr hk
    · rw [if_neg hg]
      rw [hiff] at hg
      refine ih hl' b hb hb' ?_
      rcases hk with hk | hk
      · exact .inl hk
      · rcases List.mem_cons.mp hk with hk | hk
        · by_cases hbk : b.tone = k₀
          · exact .inl hbk
          · rw [← hk] at hg
            exact absurd (h b.tone hb' hbk) hg
        · exact .inr hk

theorem length_probe (b : Byte) : (probe b).length = 1323 := by
  rw [probe, List.length_append, List.length_replicate]; rfl

/-- The tone detected in a probe is its byte. -/
theorem detectTone_probe (x : List Sample) (s : Nat) (b : Byte) (hx : slice x s 1323 = probe b) :
    (detectTone exactArithmetic x s).tone = b.toNat := by
  have hb : b.toNat ≤ 255 := by have := b.isLt; omega
  have hx' : slice x s symbolLen = probe b := hx
  have hlt : ∀ k, k ≤ 255 → k ≠ b.toNat →
      magOf (goertzelWindow exactArithmetic (probe b) (freq k)) <
        magOf (goertzelWindow exactArithmetic (probe b) (freq b.toNat)) := by
    intro k hk hne
    rw [probe, goertzelWindow_zeros, goertzelWindow_zeros]
    rw [magOf, magOf]
    refine Real.sqrt_lt_sqrt (goertzelWindow_nonneg _ _) ?_
    rw [realOf_probe, realOf_probe, angleNumber_freq hk, angleNumber_freq hb]
    have hne' : Real.cos (Real.pi * (80 + 2 * k : Nat) / 882) ≠ Real.cos (Real.pi * (80 + 2 * b.toNat : Nat) / 882) :=
      fun h => hne (by have := cos_angle_inj (by omega) (by omega) h; omega)
    have : 0 < (Real.cos (Real.pi * (80 + 2 * k : Nat) / 882) -
        Real.cos (Real.pi * (80 + 2 * b.toNat : Nat) / 882)) ^ 2 := by
      have := sub_ne_zero.mpr hne'
      positivity
    linarith
  rw [detectTone, hx']
  refine foldl_detectStep (probe b) b.toNat hlt _ ?_ _ rfl (by simp) ?_
  · intro k hk
    rw [List.mem_range'_1] at hk
    omega
  · by_cases h0 : b.toNat = 0
    · exact .inl h0.symm
    · refine .inr ?_
      rw [List.mem_range'_1]
      omega

/-- The byte read from a probe. -/
theorem detectByte_probe (x : List Sample) (s : Nat) (b : Byte) (hx : slice x s 1323 = probe b) :
    detectByte exactArithmetic x s = b := by
  rw [detectByte, detectTone_probe x s b hx, BitVec.ofNat_toNat, BitVec.setWidth_eq]

/-! ## A recording -/

/-- A window that ends in one click: its magnitude is 11 at every frequency. -/
def click : List Sample := List.replicate 1322 [] ++ [RealSum.ofTrig (cosTerm 11 0)]

/-- Four clicks and a silent window: a preamble to R137. -/
def clicks : List Sample := click ++ click ++ click ++ click ++ List.replicate 1323 []

/-- Windows that hold bytes. -/
def probes (data : List Byte) : List Sample := data.flatMap probe

/-- A recording of `data` behind a length field `dlen`. -/
def recording (dlen : Word) (data : List Byte) : List Sample := clicks ++ (probes (le32 dlen) ++ probes data)

theorem length_click : click.length = 1323 := by
  rw [click, List.length_append, List.length_replicate]; rfl

theorem length_clicks : clicks.length = 6615 := by
  simp only [clicks, List.length_append, length_click, List.length_replicate]

theorem length_probes (data : List Byte) : (probes data).length = 1323 * data.length := by
  induction data with
  | nil => rfl
  | cons b data ih => simp only [probes, List.flatMap_cons, List.length_append, length_probe] at *; simp [ih]; ring

theorem length_recording (dlen : Word) (data : List Byte) :
    (recording dlen data).length = 11907 + 1323 * data.length := by
  simp only [recording, List.length_append, length_clicks, length_probes, le32, List.length_cons, List.length_nil]
  omega

/-- A slice that lies behind a prefix. -/
theorem slice_append_right {α : Type} (a b : List α) (off len : Nat) (n : Nat) (h : a.length = n) :
    slice (a ++ b) (n + off) len = slice b off len := by
  subst h
  rw [slice, slice, List.drop_append, List.drop_eq_nil_of_le (by omega), List.nil_append, Nat.add_sub_cancel_left]

/-- A slice that is a prefix. -/
theorem slice_append_left {α : Type} (a b : List α) (n : Nat) (h : a.length = n) : slice (a ++ b) 0 n = a := by
  subst h
  simp [slice]

theorem slice_probes (data : List Byte) (tail : List Sample) (i : Nat) (h : i < data.length) :
    slice (probes data ++ tail) (1323 * i) 1323 = probe (data.getD i 0) := by
  induction data generalizing i with
  | nil => simp at h
  | cons b data ih =>
    have he : probes (b :: data) ++ tail = probe b ++ (probes data ++ tail) := by simp [probes]
    rw [he]
    cases i with
    | zero => exact slice_append_left _ _ _ (length_probe b)
    | succ i =>
      rw [show 1323 * (i + 1) = 1323 + 1323 * i by ring, slice_append_right _ _ _ _ _ (length_probe b)]
      rw [ih i (by simpa using h)]
      simp

theorem above_click :
    exactArithmetic.above (goertzelWindow exactArithmetic [RealSum.ofTrig (cosTerm 11 0)] 1000) 10 = true := by decide +kernel

theorem four_of_five (p : Nat → Bool) (h : ∀ i, i < 4 → p i = true) : 4 ≤ ((List.range 5).filter p).length := by
  have h5 : List.range 5 = [0, 1, 2, 3, 4] := rfl
  rw [h5]
  simp only [List.filter_cons, h 0 (by omega), h 1 (by omega), h 2 (by omega), h 3 (by omega), if_true,
    List.length_cons]
  omega

/-- Wherever the clicks begin, enough of the five windows there exceed the threshold. -/
theorem syncCount_clicks (pre y : List Sample) :
    syncMin ≤ syncCount exactArithmetic 10 (pre ++ (clicks ++ y)) pre.length := by
  have hL := length_click
  have hw : ∀ i, i < 4 → slice (pre ++ (clicks ++ y)) (pre.length + i * 1323) 1323 = click := by
    intro i hi
    have hc : clicks ++ y = click ++ (click ++ (click ++ (click ++ (List.replicate 1323 [] ++ y)))) := by
      simp only [clicks, List.append_assoc]
    rw [slice_append_right _ _ _ _ _ rfl, hc]
    match i, hi with
    | 0, _ => rw [show 0 * 1323 = 0 by norm_num]; exact slice_append_left _ _ _ hL
    | 1, _ =>
      rw [show 1 * 1323 = 1323 + 0 by norm_num, slice_append_right _ _ _ _ _ hL]
      exact slice_append_left _ _ _ hL
    | 2, _ =>
      rw [show 2 * 1323 = 1323 + (1323 + 0) by norm_num, slice_append_right _ _ _ _ _ hL,
        slice_append_right _ _ _ _ _ hL]
      exact slice_append_left _ _ _ hL
    | 3, _ =>
      rw [show 3 * 1323 = 1323 + (1323 + (1323 + 0)) by norm_num, slice_append_right _ _ _ _ _ hL,
        slice_append_right _ _ _ _ _ hL, slice_append_right _ _ _ _ _ hL]
      exact slice_append_left _ _ _ hL
  refine four_of_five _ fun i hi => ?_
  have h1 : goertzel exactArithmetic (pre ++ (clicks ++ y)) (pre.length + i * symbolLen) syncFreq
      = goertzelWindow exactArithmetic (slice (pre ++ (clicks ++ y)) (pre.length + i * 1323) 1323) 1000 := by
    rw [goertzel, symbolLen, syncFreq]
  rw [h1, hw i hi, click, goertzelWindow_zeros]
  exact above_click

/-- The search finds the clicks at its cursor and goes on behind them. -/
theorem searchFrom_clicks (pre y : List Sample) (fuel : Nat) :
    searchFrom exactArithmetic 10 (pre ++ (clicks ++ y)) (fuel + 1) pre.length =
      (pre.length + 6615) :: searchFrom exactArithmetic 10 (pre ++ (clicks ++ y)) fuel (pre.length + 6615) := by
  rw [searchFrom, if_pos (by rw [List.length_append, List.length_append, length_clicks, preambleLen]; omega),
    if_pos (syncCount_clicks pre y), preambleLen]

/-- Behind the last whole preamble the search finds nothing. -/
theorem searchFrom_past_end (x : List Sample) (fuel s : Nat) (h : x.length < s + 6615) :
    searchFrom exactArithmetic 10 x fuel s = [] := by
  cases fuel with
  | zero => rfl
  | succ n => rw [searchFrom, if_neg (by rw [preambleLen]; omega)]

/-- The search finds the clicks at the very beginning and goes on behind them. -/
theorem findPreambles_clicks (y : List Sample) :
    findPreambles exactArithmetic 10 (clicks ++ y) =
      6615 :: searchFrom exactArithmetic 10 (clicks ++ y) ((clicks ++ y).length / stride) 6615 := by
  have h := searchFrom_clicks [] y ((clicks ++ y).length / stride)
  rw [List.nil_append, List.length_nil, Nat.zero_add] at h
  rw [findPreambles, h]

/-- The clicks alone are one preamble. -/
theorem findPreambles_clicks_alone : findPreambles exactArithmetic 10 clicks = [6615] := by
  have h := findPreambles_clicks []
  rw [List.append_nil] at h
  rw [h, searchFrom_past_end _ _ _ (by rw [length_clicks]; omega)]

/-- Clicks behind clicks are two preambles. -/
theorem findPreambles_clicks_twice : findPreambles exactArithmetic 10 (clicks ++ clicks) = [6615, 13230] := by
  have hl : (clicks ++ clicks).length = 13230 := by rw [List.length_append, length_clicks]
  have h := searchFrom_clicks clicks [] 19
  rw [List.append_nil, length_clicks] at h
  rw [findPreambles_clicks, hl, show 13230 / stride = 19 + 1 from rfl, h,
    searchFrom_past_end _ _ _ (by rw [hl]; omega)]

/-- The data loop on probes: all of them, and the flag tells whether more were asked for. -/
theorem readSymbols_probes (pre : List Sample) (data : List Byte) :
    ∀ n, data.length ≤ n →
      readSymbols exactArithmetic (pre ++ probes data) n pre.length =
      { bytes := data, truncated := decide (data.length < n), lost := false } := by
  intro n
  induction n generalizing pre data with
  | zero =>
    intro h
    cases data with
    | nil => rfl
    | cons b data => simp at h
  | succ n ih =>
    intro h
    cases data with
    | nil =>
      have hl : (pre ++ probes []).length = pre.length := by simp [probes]
      rw [readSymbols, if_pos (by rw [hl, show symbolLen = 1323 from rfl]; omega)]
      simp
    | cons b data =>
      have he : pre ++ probes (b :: data) = (pre ++ probe b) ++ probes data := by simp [probes]
      have hl : (pre ++ probe b).length = pre.length + symbolLen := by
        rw [List.length_append, length_probe]; rfl
      have hn : data.length ≤ n := by simpa using h
      rw [readSymbols, if_neg, he, ← hl, ih (pre ++ probe b) data hn]
      · have hs : slice ((pre ++ probe b) ++ probes data) pre.length 1323 = probe b := by
          rw [List.append_assoc]
          have h0 := slice_append_right pre (probe b ++ probes data) 0 1323 _ rfl
          rw [Nat.add_zero] at h0
          rw [h0]
          exact slice_append_left _ _ _ (length_probe b)
        rw [detectByte_probe _ _ _ hs]
        simp [toneLost_exact]
      · rw [he, List.length_append, hl]; omega

/-- A recording demodulates to what it holds: to all bytes of it, truncated when the length field says more. -/
theorem demodulate_recording (dlen : Word) (data : List Byte) (h : data.length ≤ dlen.toNat) :
    demodulate exactArithmetic 10 (recording dlen data) =
      .ok { bytes := data, dlen := dlen.toNat, start := 6615, truncated := decide (data.length < dlen.toNat),
            lost := false } := by
  have hf := findPreambles_clicks (probes (le32 dlen) ++ probes data)
  rw [demodulate]
  have hr : recording dlen data = clicks ++ (probes (le32 dlen) ++ probes data) := rfl
  rw [← hr] at hf
  rw [hf]
  have hlen := length_recording dlen data
  have hb : ∀ j, j < 4 → detectByte exactArithmetic (recording dlen data) (6615 + j * symbolLen) = (le32 dlen).getD j 0 := by
    intro j hj
    apply detectByte_probe
    rw [hr, slice_append_right _ _ _ _ _ length_clicks, show j * symbolLen = 1323 * j from Nat.mul_comm _ _,
      slice_probes _ _ _ (by simpa [le32] using hj)]
  have hd : unle32 ((List.range 4).map fun j => detectByte exactArithmetic (recording dlen data) (6615 + j * symbolLen))
      = dlen.toNat := by
    have hrange : List.range 4 = [0, 1, 2, 3] := by decide
    rw [hrange]
    simp only [List.map_cons, List.map_nil, hb 0 (by omega), hb 1 (by omega), hb 2 (by omega), hb 3 (by omega)]
    simp only [unle32, le32, List.getD_cons_zero, List.getD_cons_succ, BitVec.toNat_setWidth, BitVec.toNat_ushiftRight,
      Nat.shiftRight_eq_div_pow]
    have := dlen.isLt
    omega
  have hrd : readSymbols exactArithmetic (recording dlen data) dlen.toNat (6615 + lengthFieldLen)
      = { bytes := data, truncated := decide (data.length < dlen.toNat), lost := false } := by
    have := readSymbols_probes (clicks ++ probes (le32 dlen)) data dlen.toNat h
    rw [List.length_append, length_clicks, length_probes, List.append_assoc] at this
    exact this
  simp only [hd, hrd, toneLost_exact]
  rw [if_neg (by rw [hlen, show lengthFieldLen = 5292 from rfl]; omega)]
  simp

end Sys2Proof.Machine
end

