-- ==== Sys2Proof/Laws/ReedSolomon.lean ====
section
/-!
SUPPORT. Lengths in the Reed–Solomon codec, the value of `GEN` (spec/10_state.md R19), and the round trip of one block
(spec/41_reed_solomon.md R92 (a)).
-/

namespace Sys2Proof.Machine

/-- R19: the 33 coefficients of the generator. -/
theorem genTable_eq : genTable =
    [0x01, 0x74, 0x40, 0x34, 0xAE, 0x36, 0x7E, 0x10, 0xC2, 0xA2, 0x21, 0x21, 0x9D, 0xB0, 0xC5, 0xE1,
     0x0C, 0x3B, 0x37, 0xFD, 0xE4, 0x94, 0x2F, 0xB3, 0xB9, 0x18, 0x8A, 0xFD, 0x14, 0x8E, 0x37, 0xAC, 0x58] := by
  decide +kernel

@[simp] theorem length_xorAt (r : List Byte) (i : Nat) (v : Byte) : (xorAt r i v).length = r.length := by
  simp [xorAt]

/-- A fold of operations that keep the length keeps the length. -/
theorem length_foldl_of_keeps {β : Type} (f : List Byte → β → List Byte) (h : ∀ r x, (f r x).length = r.length)
    (l : List β) (r : List Byte) : (l.foldl f r).length = r.length := by
  induction l generalizing r with
  | nil => rfl
  | cons x l ih => rw [List.foldl_cons, ih, h]

@[simp] theorem length_rsRound (r : List Byte) (i : Nat) : (rsRound r i).length = r.length := by
  unfold rsRound
  dsimp only
  split
  · rfl
  · exact length_foldl_of_keeps _ (fun r j => length_xorAt r _ _) _ _

theorem length_rsDivide (m : List Byte) : (rsDivide m).length = m.length + 32 := by
  rw [rsDivide, length_foldl_of_keeps _ length_rsRound, List.length_append, List.length_replicate, nsym]

theorem length_rsEncodeBlock (m : List Byte) (h : m.length = 223) : (rsEncodeBlock m).length = 255 := by
  rw [rsEncodeBlock, List.length_append, List.length_drop, length_rsDivide, h, rsK]

theorem mismatches_self (c : List Byte) : mismatches c c = 0 := by
  have h : ∀ c : List Byte, (c.zip c).filter (fun p => p.1 != p.2) = [] := by
    intro c
    induction c with
    | nil => rfl
    | cons b c ih => simpa [List.zip_cons_cons] using ih
  rw [mismatches, h, List.length_nil]

/-- R92 (a): an encoded block is accepted with no mismatch. -/
theorem rsDecodeBlock_rsEncodeBlock (m : List Byte) (h : m.length = 223) :
    rsDecodeBlock (rsEncodeBlock m) = { accept := true, message := m, count := 0 } := by
  have ht : (rsEncodeBlock m).take rsK = m := by
    rw [rsEncodeBlock, List.take_append_of_le_length (by rw [h, rsK]), List.take_of_length_le (by rw [h, rsK])]
  simp [rsDecodeBlock, ht, mismatches_self]

/-- Decoding a stream of one encoded block gives its message. -/
theorem rsDecode_one_block (m : List Byte) (h : m.length = 223) :
    rsDecode (rsEncodeBlock m) = { out := m, dropped := 0, blocks := 1 } := by
  have hl := length_rsEncodeBlock m h
  have hs : slice (rsEncodeBlock m) (rsN * 0) rsN = rsEncodeBlock m := by
    rw [slice, Nat.mul_zero, List.drop_zero, List.take_of_length_le (by rw [hl, rsN])]
  have hr : List.range 1 = [0] := rfl
  simp only [rsDecode, hl, show (255 : Nat) / rsN = 1 from rfl, hr, List.map_cons, List.map_nil, hs,
    rsDecodeBlock_rsEncodeBlock m h]
  simp

end Sys2Proof.Machine
end

