-- ==== Sys2Proof/Tests/Slice0.lean ====
section
/-!
SUPPORT. Tests, all named theorems. Expected values come from spec/95_test_vectors.md (V<n>) and from the examples of the
rules; a `witness_<Name>` shows concrete states and operands that meet the hypotheses of the obligation `<Name>`, one
conjunct or one theorem per clause.
-/

namespace Sys2Proof.Machine.Tests

-- Elaborated one after another: `decide +kernel` in many theorems at once starts a thread for each.
set_option Elab.async false

open Sys2Proof Sys2Proof.Machine RealNum

/-- An idle block after reset with concrete parameters. -/
def blank : State :=
  { State.reset with
    params :=
      { binCap := 300, boutCap := 600, sinCap := 2000000, soutCap := 2000000, syncThreshold := 10, numerics := .exact } }

/-- The block with the given arguments and bytes in `BIN` from offset 0. -/
def withArgs (a0 a1 : Word) (bs : List Byte) : State := { blank with arg0 := a0, arg1 := a1, bin := cellsFrom 0 bs }

/-- The block with samples in `SIN` from offset 0, their number in `ARG0`, and the other arguments. -/
def withAudio (x : List Sample) (a1 a2 : Word) : State :=
  { blank with arg0 := BitVec.ofNat 32 x.length, arg1 := a1, arg2 := a2, sin := cellsFrom 0 x }

/-- The state an answer goes on with. -/
def nextOf : Answer → Option State
  | .next t => some t
  | _ => none

/-- The fault an answer stops with. -/
def faultOf : Answer → Option Fault
  | .fault f => some f
  | _ => none

/-! ## WellFormed: each check refuses an ill-formed term -/

theorem test_zeroField_refuses : zeroFieldOk 0x00000110 = false := by decide
theorem test_opcode_refuses : opcodeOk 0x00000013 = false := by decide
theorem test_commandWord_refuses : commandWordOk 0x80000010 = false := by decide
theorem test_params_refuses_small : Params.ok { blank.params with binCap := 254 } = false := by decide
theorem test_params_refuses_large : Params.ok { blank.params with soutCap := 2 ^ 32 } = false := by decide +kernel
theorem test_params_accepts : Params.ok blank.params = true := by decide +kernel
theorem test_keys_refuses : keysRiseFrom 0 [(3, 0), (3, 1)] = false := by decide
theorem test_trig_refuses_zero : Trig.ok [(0, 0)] = false := by decide +kernel
theorem test_trig_refuses_angle : Trig.ok [(441, 1)] = false := by decide +kernel
theorem test_product_refuses : Product.ok [2, 1] = false := by decide
theorem test_parts_refuse_twice : partsDistinct [([3], [(0, 1)]), ([3], [(0, 2)])] = false := by decide
theorem test_sample_refuses :
    Sample.ok [([2, 1], [(0, 1)])] = false ∧ Sample.ok [([], [])] = false ∧ Sample.ok [([], [(441, 1)])] = false := by
  decide +kernel
theorem test_sample_accepts : Sample.ok [([], [(0, 1), (440, -1)]), ([7, 7], [(0, 2)])] = true := by decide +kernel
theorem test_buffer_refuses : bufferOk 4 [(4, (0 : Byte))] = false := by decide
theorem test_memory_refuses : Memory.wf { blank with namebuf := [(255, 0x41)] } = false := by decide +kernel

/-! ## Decode: the words of R52, bits 31:8 zero, then the family and the operation -/

theorem test_decode_gfmul : decode 0b00000000_00000000_00000000_0001_0000 = .ok .gfmul := by decide
theorem test_decode_gfdiv : decode 0b00000000_00000000_00000000_0001_0001 = .ok .gfdiv := by decide
theorem test_decode_gfpmul : decode 0b00000000_00000000_00000000_0001_0010 = .ok .gfpmul := by decide
theorem test_decode_rsenc1 : decode 0b00000000_00000000_00000000_0010_0000 = .ok .rsenc1 := by decide
theorem test_decode_rsdec1 : decode 0b00000000_00000000_00000000_0010_0001 = .ok .rsdec1 := by decide
theorem test_decode_rsenc : decode 0b00000000_00000000_00000000_0010_0010 = .ok .rsenc := by decide
theorem test_decode_rsdec : decode 0b00000000_00000000_00000000_0010_0011 = .ok .rsdec := by decide
theorem test_decode_crc32 : decode 0b00000000_00000000_00000000_0011_0000 = .ok .crc32 := by decide
theorem test_decode_frame : decode 0b00000000_00000000_00000000_0100_0000 = .ok .frame := by decide
theorem test_decode_parse : decode 0b00000000_00000000_00000000_0100_0001 = .ok .parse := by decide
theorem test_decode_tone : decode 0b00000000_00000000_00000000_0101_0000 = .ok .tone := by decide
theorem test_decode_preamb : decode 0b00000000_00000000_00000000_0101_0001 = .ok .preamb := by decide
theorem test_decode_mod : decode 0b00000000_00000000_00000000_0101_0010 = .ok .mod := by decide
theorem test_decode_goertz : decode 0b00000000_00000000_00000000_0110_0000 = .ok .goertz := by decide
theorem test_decode_syncfind : decode 0b00000000_00000000_00000000_0110_0001 = .ok .syncfind := by decide
theorem test_decode_detect : decode 0b00000000_00000000_00000000_0110_0010 = .ok .detect := by decide
theorem test_decode_demod : decode 0b00000000_00000000_00000000_0110_0011 = .ok .demod := by decide
theorem test_decode_encode : decode 0b00000000_00000000_00000000_0111_0000 = .ok .encode := by decide
theorem test_decode_decode : decode 0b00000000_00000000_00000000_0111_0001 = .ok .decode := by decide
theorem test_decode_refuses_high_bit : decode 0x01000010 = .error .zeroFieldSet := by decide
theorem test_decode_refuses_unlisted : decode 0x00000072 = .error .unlistedOpcode := by decide
theorem test_decodeTableWord : decodeTableWord 32 0x63 = some .demod := by decide

/-! ## Tables (R17, R18, V1, V5) -/

theorem test_exp_values : expAt 8 = 0x1D ∧ expAt 254 = 0x8E ∧ expAt 255 = 1 ∧ expAt 509 = 0x8E := by decide +kernel
theorem test_log_values : logAt 0 = none ∧ logAt 2 = some 1 ∧ logAt 29 = some 8 ∧ logAt 255 = some 175 := by
  decide +kernel
theorem test_generator_first_steps : polyMul [1, 3, 2] [1, 4] = [1, 7, 0x0E, 8] := by decide +kernel

/-! ## GF(256) (V3, V4) -/

theorem test_gfmul_reduces : (nextOf (exec .gfmul (withArgs 2 128 []))).map (fun t => (t.res0, t.status)) =
    some (0x1D, 0x002) := by decide +kernel
theorem test_gfmul_largest_index : (nextOf (exec .gfmul (withArgs 0x8E 0x8E []))).map (fun t => t.res0) =
    some 0x47 := by decide +kernel
theorem test_gfdiv_inverse : (nextOf (exec .gfdiv (withArgs 1 2 []))).map (fun t => (t.res0, t.status)) =
    some (0x8E, 0x002) := by decide +kernel
theorem test_gfdiv_arg_before_div0 :
    (nextOf (exec .gfdiv (withArgs 7 300 []))).map (fun t => t.status) = some 0x202 ∧
    (nextOf (exec .gfdiv (withArgs 0 0 []))).map (fun t => t.status) = some 0x402 := by decide +kernel
theorem test_gfpmul_product : (nextOf (exec .gfpmul (withArgs 3 2 [1, 2, 3, 4, 5]))).map (fun t => (t.bout, t.res0)) =
    some ([(0, 0x04), (1, 0x0D), (2, 0x06), (3, 0x0F)], 4) := by decide +kernel
theorem test_gfpmul_leading_zero : (nextOf (exec .gfpmul (withArgs 2 2 [0, 1, 1, 0]))).map (fun t => t.bout) =
    some [(0, 0), (1, 1), (2, 0)] := by decide +kernel

/-! ## Reed–Solomon (V7, V8, V8b) -/

/-- The message whose only nonzero byte is the last one (V8). -/
theorem test_rsenc1_last_byte : (rsDivide (List.replicate 222 0 ++ [1])).drop 223 =
    [0x74, 0x40, 0x34, 0xAE, 0x36, 0x7E, 0x10, 0xC2, 0xA2, 0x21, 0x21, 0x9D, 0xB0, 0xC5, 0xE1, 0x0C,
     0x3B, 0x37, 0xFD, 0xE4, 0x94, 0x2F, 0xB3, 0xB9, 0x18, 0x8A, 0xFD, 0x14, 0x8E, 0x37, 0xAC, 0x58] := by
  unfold rsDivide rsRound
  rw [genTable_eq]
  decide +kernel

/-- A codeword of zeros with `n` wrong parity bytes. -/
def wrongParity (n : Nat) : List Byte :=
  List.replicate 223 0 ++ List.replicate n 0xFF ++ List.replicate (32 - n) 0

theorem test_rsdec1_accepts_16 :
    (nextOf (exec .rsdec1 (withArgs 0 0 (wrongParity 16)))).map (fun t => (t.res0, t.res1, t.bout.length)) =
      some (1, 16, 223) := by decide +kernel
theorem test_rsdec1_rejects_17 :
    (nextOf (exec .rsdec1 (withArgs 0 0 (wrongParity 17)))).map (fun t => (t.res0, t.res1, t.bout, t.status)) =
      some (0, 17, [], 0x002) := by decide +kernel
theorem test_rsenc_two_blocks :
    (nextOf (exec .rsenc (withArgs 224 0 (List.replicate 224 0)))).map (fun t => (t.res0, t.res1, t.bout.length)) =
      some (510, 2, 510) := by decide +kernel
theorem test_rsenc_empty : (nextOf (exec .rsenc blank)).map (fun t => (t.res0, t.res1, t.status)) =
    some (0, 0, 0x002) := by decide +kernel
theorem test_rsdec_zeros :
    (nextOf (exec .rsdec (withArgs 255 0 (List.replicate 255 0)))).map (fun t => (t.res0, t.res1, t.res2)) =
      some (223, 0, 1) := by decide +kernel
theorem test_rsdec_partial_block :
    (nextOf (exec .rsdec (withArgs 254 0 (List.replicate 254 0)))).map (fun t => (t.res0, t.res1, t.res2)) =
      some (0, 0, 0) := by decide +kernel

/-! ## CRC32 (V9) -/

theorem test_crc32_a : (nextOf (exec .crc32 (withArgs 1 0 [0x61]))).map (fun t => t.res0) = some 0xE8B7BE43 := by
  decide +kernel
theorem test_crc32_unwritten_faults : faultOf (exec .crc32 (withArgs 2 0 [0x61])) = some (.unwrittenElement .bin) := by
  decide +kernel

/-! ## Packet (V10, V11) -/

/-- Packet (a) of V10. -/
def packetX : List Byte := [0x41, 0x45, 0x44, 0x43, 0x01, 0x78, 0, 0, 0, 0, 0xF8, 0x99, 0x3D, 0xDC]

/-- Packet (b) of V10 with byte 17 changed, as in V11 (d). -/
def packetFlipped : List Byte :=
  [0x41, 0x45, 0x44, 0x43, 0x06, 0x68, 0x69, 0x2E, 0x74, 0x78, 0x74, 0x05, 0, 0, 0,
   0x48, 0x65, 0x6D, 0x6C, 0x6F, 0xFA, 0x38, 0x6F, 0xC1]

theorem test_frame_x :
    (nextOf (exec .frame { withArgs 0 1 [] with namebuf := [(0, 0x78)] })).map (fun t => (t.bout, t.res0, t.res1)) =
      some (cellsFrom 0 packetX, 14, 1) := by decide +kernel
theorem test_frame_empty_name : (nextOf (exec .frame (withArgs 5 0 []))).map (fun t => (t.status, t.bout)) =
    some (0x502, []) := by decide +kernel
theorem test_frame_unwritten_name_faults :
    faultOf (exec .frame (withArgs 1 1 [9])) = some (.unwrittenElement .namebuf) := by decide +kernel
theorem test_parse_delivers :
    (nextOf (exec .parse (withArgs 14 0 packetX))).map (fun t => (t.res1, t.res2, t.namebuf, t.warn)) =
      some (1, 0xDC3D99F8, [(0, 0x78)], 0) ∧
    (nextOf (exec .parse (withArgs 24 0 packetFlipped))).map (fun t => (t.res2, t.res3, t.warn, t.status)) =
      some (0xC16F38FA, 0xC0AD52CD, 0x4, 0x002) := by decide +kernel
theorem test_parse_errors :
    parse [0x41, 0x45, 0x44, 0x43, 0x01, 0x78, 0xFF, 0xFF, 0xFF, 0xFF, 0, 0, 0, 0] = .error .size ∧
    (nextOf (exec .parse (withArgs 13 0 []))).map (fun t => t.status) = some 0x902 := by decide +kernel

/-! ## Modulator (V12): sample 66 of `TONE 256` is 0.007479413, of `TONE 255` sample 1 is 0.004573554 -/

/-- A sample is greater than a rational number. -/
def sampleAbove (x : Sample) (q : Rat) : Bool := positive (RealSum.sub x (RealSum.ofTrig (ofRat q)))

theorem test_tone_samples :
    sampleAbove (toneSample exactArithmetic 1000 66) (7479412 / 1000000000) = true ∧
    sampleAbove (toneSample exactArithmetic 1000 66) (7479414 / 1000000000) = false ∧
    sampleAbove (toneSample exactArithmetic 14750 1) (4573553 / 1000000000) = true ∧
    sampleAbove (toneSample exactArithmetic 14750 1) (4573555 / 1000000000) = false := by decide +kernel
theorem test_tone_selector_range : (nextOf (exec .tone (withArgs 257 0 []))).map (fun t => t.status) = some 0x202 := by
  decide +kernel
theorem test_preamb_count : (nextOf (exec .preamb blank)).map (fun t => (t.res0, t.status)) = some (6615, 0x002) := by
  decide +kernel
theorem test_mod_empty_frame : (nextOf (exec .mod blank)).map (fun t => (t.res0, t.status)) = some (18522, 0x002) := by
  decide +kernel
theorem test_mod_cap : (nextOf (exec .mod { blank with params := { blank.params with soutCap := 18521 } })).map
    (fun t => t.status) = some 0x302 := by decide +kernel

/-! ## Demodulator -/

/-- The samples of `withAudio` are read back. -/
theorem readRun_withAudio (x : List Sample) (a1 a2 : Word) : readRun (withAudio x a1 a2).sin 0 x.length = some x :=
  readRun_cellsFrom 0 x

theorem arg0_withAudio (x : List Sample) (a1 a2 : Word) (h : x.length ≤ 2000000) :
    (withAudio x a1 a2).arg0.toNat = x.length := by
  show (BitVec.ofNat 32 x.length).toNat = x.length
  rw [BitVec.toNat_ofNat]
  omega

theorem withSin_withAudio (x : List Sample) (a1 a2 : Word) (h : x.length ≤ 2000000) (k : List Sample → Answer) :
    withSin (withAudio x a1 a2).arg0.toNat (withAudio x a1 a2) k = k x := by
  rw [arg0_withAudio x a1 a2 h]
  rcases withSin_cases x.length (withAudio x a1 a2) k with ⟨h1, -⟩ | ⟨-, h1, -⟩ | ⟨xs, -, h1, h2⟩
  · exact absurd h1 (by show ¬ 2000000 < x.length; omega)
  · rw [readRun_withAudio] at h1; cases h1
  · rw [readRun_withAudio] at h1; cases h1; exact h2

theorem windowFits_withAudio (x : List Sample) (a1 a2 : Word) (h : x.length ≤ 2000000)
    (hw : a1.toNat + 1323 ≤ x.length) : windowFits (withAudio x a1 a2).arg1 (withAudio x a1 a2).arg0 = true := by
  rw [windowFits, arg0_withAudio x a1 a2 h, decide_eq_true_iff]
  exact hw

theorem arithmetic_withAudio (x : List Sample) (a1 a2 : Word) : (withAudio x a1 a2).arithmetic = exactArithmetic := rfl

/-- `n` zero samples. -/
def silence (n : Nat) : List Sample := List.replicate n []

theorem length_silence (n : Nat) : (silence n).length = n := List.length_replicate

/-- R135: "an all-zero window gives exactly 0". -/
theorem test_goertz_silence :
    (nextOf (exec .goertz (withAudio (silence 1323) 0 256))).map (fun t => (t.mag, t.status)) =
      some ({ square := [] }, 0x002) := by
  have hg : goertzel exactArithmetic (silence 1323) 0 (freq 256) = { square := [] } := by
    rw [goertzel, slice, List.drop_zero, List.take_of_length_le (by rw [length_silence, symbolLen])]
    exact goertzelWindow_silence 1323 _
  have ht : toneOperand (withAudio (silence 1323) 0 256).arg2 = some 256 := rfl
  have h0 : (withAudio (silence 1323) 0 256).arg1.toNat = 0 := rfl
  rw [exec, execGoertz, ht]
  dsimp only
  rw [if_pos (windowFits_withAudio _ _ _ (by rw [length_silence]; omega) (by rw [length_silence]; decide)),
    withSin_withAudio _ _ _ (by rw [length_silence]; omega), h0, arithmetic_withAudio, hg]
  rfl

/-- One click of size 11 has magnitude 11, the modulus of its Fourier sum (R136 (a)). -/
theorem test_goertz_click : magOf (goertzel exactArithmetic click 0 (freq 256)) = 11 := by
  have hg : goertzel exactArithmetic click 0 (freq 256) = { square := [([], [(0, 121)])] } := by
    rw [goertzel, slice, List.drop_zero, List.take_of_length_le (by rw [length_click, symbolLen]), click,
      goertzelWindow_zeros]
    decide +kernel
  rw [hg, magOf]
  have : realOf [([], [(0, 121)])] = 11 ^ 2 := by norm_num [realOf, trigValue]
  rw [this, Real.sqrt_sq (by norm_num)]

/-- R138: "`L = 6615` holding exactly one preamble gives `pos = [6615]`". -/
theorem test_syncfind_one_preamble :
    (nextOf (exec .syncfind (withAudio clicks 0 0))).map (fun t => (t.res0, t.res1, t.bout)) =
      some (1, 6615, [(0, 0xD7), (1, 0x19), (2, 0x00), (3, 0x00)]) := by
  rw [exec, execSyncfind, withSin_withAudio _ _ _ (by rw [length_clicks]; omega)]
  rw [arithmetic_withAudio, show (withAudio clicks 0 0).params.syncThreshold = 10 from rfl, findPreambles_clicks_alone]
  rfl

/-- R137: "Return all such positions": a second preamble is found too. -/
theorem test_syncfind_two_preambles :
    (nextOf (exec .syncfind (withAudio (clicks ++ clicks) 0 0))).map (fun t => (t.res0, t.res1, t.bout)) =
      some (2, 6615, [(0, 0xD7), (1, 0x19), (2, 0), (3, 0), (4, 0xAE), (5, 0x33), (6, 0), (7, 0)]) := by
  rw [exec, execSyncfind, withSin_withAudio _ _ _ (by rw [List.length_append, length_clicks]; omega)]
  rw [arithmetic_withAudio, show (withAudio (clicks ++ clicks) 0 0).params.syncThreshold = 10 from rfl,
    findPreambles_clicks_twice]
  rfl

/-- R138: "`L < 6615` gives no position". -/
theorem test_syncfind_nothing :
    (nextOf (exec .syncfind { withArgs 0 0 [] with res1 := 7 })).map (fun t => (t.res0, t.res1, t.status)) =
      some (0, 7, 0x002) := by decide +kernel

/-- R139: the window that holds the tone 77 is detected as 77. -/
theorem test_detect_tone : (nextOf (exec .detect (withAudio (probe 77) 0 0))).map (fun t => (t.res0, t.status)) =
    some (77, 0x002) := by
  have hd : (detectTone exactArithmetic (probe 77) 0).tone = 77 :=
    detectTone_probe (probe 77) 0 77 (by rw [slice, List.drop_zero, List.take_of_length_le (by rw [length_probe])])
  have h0 : (withAudio (probe 77) 0 0).arg1.toNat = 0 := rfl
  rw [exec, execDetect,
    if_pos (windowFits_withAudio _ _ _ (by rw [length_probe]; omega) (by rw [length_probe]; decide)),
    withSin_withAudio _ _ _ (by rw [length_probe]; omega), h0]
  dsimp only
  rw [arithmetic_withAudio, hd]
  rfl

/-- R190: a sample that nobody has written is not read as 0. -/
theorem test_goertz_unwritten_faults :
    faultOf (exec .goertz { blank with arg0 := 1323, arg2 := 256 }) = some (.unwrittenElement .sin) := by decide +kernel

theorem test_detect_window_past_end : (nextOf (exec .detect (withArgs 1322 0 []))).map (fun t => t.status) =
    some 0x202 := by decide +kernel

/-- R140: the bytes, the detected length, the data start; nothing is truncated. -/
theorem test_demod_frame :
    (nextOf (exec .demod (withAudio (recording 4 [0x00, 0xFF, 0x41, 0x80]) 0 0))).map
        (fun t => (t.res0, t.res1, t.res2, t.bout, t.warn)) =
      some (4, 4, 6615, [(0, 0x00), (1, 0xFF), (2, 0x41), (3, 0x80)], 0) := by
  rw [exec, execDemod, withSin_withAudio _ _ _ (by rw [length_recording]; decide)]
  rw [arithmetic_withAudio, show (withAudio (recording 4 [0x00, 0xFF, 0x41, 0x80]) 0 0).params.syncThreshold = 10 from rfl,
    demodulate_recording _ _ (by decide)]
  rfl

/-- R140: audio that ends early gives what was decoded, with `W_TRUNC`. -/
theorem test_demod_truncated :
    (nextOf (exec .demod (withAudio (recording 4 [0x00, 0xFF]) 0 0))).map (fun t => (t.res0, t.res1, t.bout, t.warn)) =
      some (2, 4, [(0, 0x00), (1, 0xFF)], 1) := by
  rw [exec, execDemod, withSin_withAudio _ _ _ (by rw [length_recording]; decide)]
  rw [arithmetic_withAudio, show (withAudio (recording 4 [0x00, 0xFF]) 0 0).params.syncThreshold = 10 from rfl,
    demodulate_recording _ _ (by decide)]
  rfl

/-- An arithmetic whose comparisons all fail, but for the one of R137. -/
def notANumber : Arithmetic where
  const _ := []
  sin _ _ := []
  cos _ _ := []
  add _ _ := []
  sub _ _ := []
  mul _ _ := []
  sqrt _ := { square := [] }
  above _ _ := true
  greater _ _ := false
  noTone _ := true

/-- R141: an implementation that finds no tone delivers byte 0 for the symbol and sets `W_TONE`. -/
theorem test_lost_tone_is_warned :
    demodulate notANumber 10 (silence 11907) =
      .ok { bytes := [], dlen := 0, start := 6615, truncated := false, lost := true } ∧
    detectByte notANumber (silence 11907) 6615 = 0 ∧
    ({ bytes := [], dlen := 0, start := 6615, truncated := false, lost := true } : Demodulated).warning = 0x2 := by
  decide +kernel

/-! ## Pipelines -/

/-- The message block of packet (a) of V10. -/
def messageX : List Byte := packetX ++ List.replicate 209 0

theorem length_messageX : messageX.length = 223 := by decide +kernel

theorem parse_messageX : parse messageX =
    .ok { name := [0x78], payload := [], stored := 0xDC3D99F8, computed := 0xDC3D99F8 } := by decide +kernel

/-- Audio that holds the codeword of packet (a). -/
def audioX : List Sample := recording 255 (rsEncodeBlock messageX)

theorem length_audioX : audioX.length = 349272 := by
  rw [audioX, length_recording, length_rsEncodeBlock _ length_messageX]

theorem demodulate_audioX : demodulate exactArithmetic 10 audioX =
    .ok { bytes := rsEncodeBlock messageX, dlen := 255, start := 6615, truncated := false, lost := false } := by
  have hl := length_rsEncodeBlock _ length_messageX
  have h := demodulate_recording 255 (rsEncodeBlock messageX) (by rw [hl]; decide)
  rw [hl] at h
  exact h

theorem decodeAudio_of_stages (threshold : Rat) (x : List Sample) (d : Demodulated) (m : BatchDecoded) (p : Parsed)
    (h1 : demodulate exactArithmetic threshold x = .ok d) (h2 : rsDecode d.bytes = m) (h3 : parse m.out = .ok p) :
    decodeAudio exactArithmetic threshold x = { warnings := d.warning ||| p.warning, result := .ok (p, m.dropped, d.dlen) } := by
  subst h2
  rw [decodeAudio, h1]
  dsimp only
  rw [h3]

theorem decodeAudio_audioX : decodeAudio exactArithmetic 10 audioX =
    { warnings := 0 ||| 0
      result := .ok ({ name := [0x78], payload := [], stored := 0xDC3D99F8, computed := 0xDC3D99F8 }, 0, 255) } :=
  decodeAudio_of_stages _ _ _ _ _ demodulate_audioX (rsDecode_one_block _ length_messageX) parse_messageX

/-- R160 (2): the name "x" and an empty payload are recovered. -/
theorem test_decode_x : (nextOf (exec .decode (withAudio audioX 0 0))).map
    (fun t => (t.res0, t.res1, t.res2, t.res3, t.namebuf)) = some (0, 1, 0, 255, [(0, 0x78)]) := by
  rw [exec, execDecode, withSin_withAudio _ _ _ (by rw [length_audioX]; omega),
    arithmetic_withAudio, show (withAudio audioX 0 0).params.syncThreshold = 10 from rfl, decodeAudio_audioX]
  rfl

/-- R158: "a truncation inside the only FEC block ends as `E_SHORT` with `WARN.W_TRUNC = 1`". -/
theorem test_decode_truncated : (nextOf (exec .decode (withAudio (recording 255 [0x41]) 0 0))).map
    (fun t => (t.status, t.warn, t.res0, t.bout)) = some (0x902, 1, 0, []) := by
  rw [exec, execDecode, withSin_withAudio _ _ _ (by rw [length_recording]; decide)]
  dsimp only
  rw [arithmetic_withAudio, show (withAudio (recording 255 [0x41]) 0 0).params.syncThreshold = 10 from rfl, decodeAudio,
    demodulate_recording _ _ (by decide)]
  rfl

/-- A block whose `BIN` has the largest capacity. -/
def bigBin (plen : Word) : State :=
  { blank with arg0 := plen, arg1 := 1, params := { blank.params with binCap := 2 ^ 32 - 1 } }

/-- R156: the largest payload for a one-byte name is 3755990993 bytes; one more is `E_LEN`. -/
theorem test_encode_length_limit :
    (nextOf (exec .encode (bigBin 3755990994))).map (fun t => t.status) = some 0x602 ∧
    (nextOf (exec .encode (bigBin 3755990993))).map (fun t => t.status) = some 0x302 := by decide +kernel

theorem test_encode_empty_name : (nextOf (exec .encode (withArgs 5 0 []))).map (fun t => t.status) = some 0x502 := by
  decide +kernel

/-! ## Steps -/

/-- A host that writes two arguments, launches `GFMUL` and waits (R62): four steps end with the product. -/
theorem test_script_line :
    (match Sys2Proof.core.run 4 { blank with inbox := scriptLine .gfmul [2, 128] } with
      | .next t => some (t.res0, t.status, t.cmd)
      | _ => none) = some (0x1D, 0x002, 0x10) := by decide +kernel

theorem test_fetch_word_runs : (nextOf (step (blank.withFetchWord 32 0x61))).map (fun t => (t.res0, t.status)) =
    some (0, 0x002) := by decide +kernel

/-- R53 (V21): an illegal word completes at once, so the next host write is neither refused nor ignored. -/
theorem test_illegal_word_completes_at_once :
    (match Sys2Proof.core.run 2 { blank with inbox := [.writeReg 0x00 0x00000110, .writeReg 0x10 5] } with
      | .next t => some (t.cmd, t.status, t.warn, t.arg0)
      | _ => none) = some (0x110, 0x102, 0, 5) := by decide +kernel

/-- A sample that is a named real, such as `√2/2`, is stored and read back (R8, R16). -/
theorem test_named_real_sample :
    (match Sys2Proof.core.run 2
        { blank with inbox := [.writeSamples .sin 2 [RealSum.named 3], .readSample .sin 2] } with
      | .next t => some t.hostData
      | _ => none) = some (.sample [([3], [(0, 1)])]) ∧
    RealSum.mul (RealSum.named 3) (RealSum.sub (RealSum.named 2) (RealSum.named 2)) = [] := by decide +kernel

theorem test_reset_while_busy_keeps_buffers :
    (nextOf (step { launch 0x10 (withArgs 1 1 [7]) with inbox := [.resetInput] })).map (fun t => (t.bin, t.status)) =
      some ([(0, 7)], 0) := by decide +kernel

theorem test_busy_write_is_refused :
    (match step { launch 0x10 blank with inbox := [.writeReg 0x10 5] } with
      | .refused r => some r
      | _ => none) = some .hostWriteWhileBusy := by decide +kernel

/-! ## Witnesses: states and operands that meet the hypotheses of the obligations -/

/-- A busy block whose `CMD` holds the word of a command. -/
def busyWith (i : Instr) (s : State) : State := launch (encode i) s

/-- A state with every kind of content, for the invariant. -/
def filled : State :=
  { blank with
    bin := [(0, 5), (299, 7)]
    sin := [(0, [([], [(0, 1), (440, -1)]), ([5], [(0, 1)])])]
    mag := { square := [([], [(0, 121)])] }
    inbox := [.writeReg 0x10 5] }

theorem witness_StepRunsTheCommandInCmd :
    (busyWith .gfmul blank).busy = true ∧ decode (busyWith .gfmul blank).cmd = .ok .gfmul ∧
    (busyWith .gfmul blank).inbox = [] ∧ ({ busyWith .gfmul blank with inbox := [.wait] } : State).inbox = .wait :: [] ∧
    blank.busy = false ∧ blank.inbox = [] := by decide +kernel

theorem witness_IllegalWordCompletesAtOnce :
    blank.busy = false ∧ (∀ i : Instr, (0x00000110 : Word) ≠ encode i) ∧
    ({ blank with inbox := [.writeReg 0x00 0x00000110] } : State).inbox = .writeReg 0x00 0x00000110 :: [] :=
  ⟨by decide, by intro i; cases i <;> decide, rfl⟩

theorem witness_CmdWriteLaunchesOnlyWhenIdle :
    (({ blank with inbox := [.writeReg 0x00 0x10] } : State).busy = false ∧ (0x10 : Word) = encode .gfmul) ∧
    ({ busyWith .crc32 blank with inbox := [.writeReg 0x00 0x13] } : State).busy = true := by decide +kernel

theorem witness_EveryStepKeepsStateOk : StateOk filled ∧ ∃ t, step filled = .next t := by
  refine ⟨⟨by decide +kernel, ?_, ?_, by decide +kernel, .inl rfl, by unfold legalWarn; decide, by decide +kernel, ?_⟩,
    _, rfl⟩
  · show ∀ c ∈ [((0 : Nat), ([([], [(0, 1), (440, -1)]), ([5], [(0, 1)])] : Sample))], Sample.ok c.2 = true
    decide +kernel
  · intro c hc
    cases hc
  · intro h
    exact absurd h (by decide)

/-- For AnsweredCommandHasALegalStatus, CommandsWriteOnlyWhatTheTableNames and OutputsBeyondTheResultKeepTheirValues. -/
theorem witness_CommandAnswers :
    ∃ t, exec .gfpmul (withArgs 2 1 [1, 2, 3]) = .next t ∧ t.err = 0 ∧
      (withArgs 2 1 [1, 2, 3]).params.ok = true ∧ boutWritten .gfpmul t = 2 :=
  ⟨_, rfl, by decide +kernel, by decide +kernel, by decide +kernel⟩

/-- The packet of V11 (d) in a block whose `BOUT` holds four bytes. -/
def noRoom : State :=
  { withArgs 24 0 packetFlipped with params := { blank.params with boutCap := 4 } }

/-- An error without a warning, an error with one, and a word that does not decode. -/
theorem witness_ErrorLeavesTheStateAsLaunched :
    (∃ t, exec .gfdiv (withArgs 7 0 []) = .next t ∧ t.err = 0x04 ∧ stageWarnings .gfdiv (withArgs 7 0 []) = 0) ∧
    (∃ t, exec .parse noRoom = .next t ∧ t.err = 0x03 ∧ t.warn = 0x4 ∧ stageWarnings .parse noRoom = 0x4) ∧
    decode 0x00000110 = .error .zeroFieldSet ∧ decode 0x00000013 = .error .unlistedOpcode :=
  ⟨⟨_, rfl, by decide +kernel, by decide +kernel⟩,
    ⟨_, rfl, by decide +kernel, by decide +kernel, by decide +kernel⟩, by decide, by decide⟩

theorem witness_GfmulWritesTheFieldProduct :
    (withArgs 255 0 []).arg0 = (255 : Byte).setWidth 32 ∧ (withArgs 255 0 []).arg1 = (0 : Byte).setWidth 32 ∧
    255 < (withArgs 256 0 []).arg0.toNat ∧ 255 < (withArgs 0 256 []).arg1.toNat ∧
    logAt 0x8E = some 254 ∧ logAt 1 = some 0 := by decide +kernel

theorem witness_GfdivWritesTheQuotient :
    (withArgs 255 0 []).arg0 = (255 : Byte).setWidth 32 ∧ (withArgs 255 0 []).arg1 = (0 : Byte).setWidth 32 ∧
    (withArgs 255 1 []).arg1 = (1 : Byte).setWidth 32 ∧ (1 : Byte) ≠ 0 ∧
    255 < (withArgs 0 256 []).arg1.toNat ∧ logAt 0x8E = some 254 ∧ logAt 1 = some 0 := by decide +kernel

theorem witness_GfpmulWritesTheConvolution :
    (∃ a b : List Byte, 0 < a.length ∧ 0 < b.length ∧ (withArgs 1 1 [5, 7]).arg0.toNat = a.length ∧
      (withArgs 1 1 [5, 7]).arg1.toNat = b.length ∧ a.length + b.length ≤ (withArgs 1 1 [5, 7]).params.binCap ∧
      a.length + b.length - 1 ≤ (withArgs 1 1 [5, 7]).params.boutCap ∧
      readRun (withArgs 1 1 [5, 7]).bin 0 (a.length + b.length) = some (a ++ b)) ∧
    (withArgs 0 2 []).arg0 = 0 ∧ (withArgs 2 0 []).arg1 = 0 ∧
    (withArgs 1 300 []).params.binCap < (withArgs 1 300 []).arg0.toNat + (withArgs 1 300 []).arg1.toNat :=
  ⟨⟨[5], [7], by decide +kernel⟩, by decide +kernel⟩

theorem witness_GfLawsOfTheSource : (1 : Byte) ≠ 0 ∧ 254 ≤ 254 := by decide

theorem witness_GfIsAField : logAt 0x8E = some 254 ∧ (0xFF : Byte) ≠ 0 := by decide +kernel

theorem witness_Rsenc1WritesTheCodeword :
    (withArgs 0 0 (List.replicate 223 1)).params.ok = true ∧
    readRun (withArgs 0 0 (List.replicate 223 1)).bin 0 223 = some (List.replicate 223 1) := by decide +kernel

theorem witness_Rsdec1AcceptsOrRejects :
    (∀ n ∈ [16, 17], (withArgs 0 0 (wrongParity n)).params.ok = true ∧
      readRun (withArgs 0 0 (wrongParity n)).bin 0 255 = some (wrongParity n)) ∧
    (rsDecodeBlock (wrongParity 16)).count = 16 ∧ (rsDecodeBlock (wrongParity 17)).count = 17 := by decide +kernel

theorem witness_VerdictCountsParityMismatches : (wrongParity 17).length = 255 := by decide +kernel

theorem witness_RsencWritesTheBlocks :
    (withArgs 224 0 (List.replicate 224 9)).arg0.toNat = (List.replicate 224 (9 : Byte)).length ∧
    224 ≤ (withArgs 224 0 (List.replicate 224 9)).params.binCap ∧
    255 * ((224 + 222) / 223) ≤ (withArgs 224 0 (List.replicate 224 9)).params.boutCap ∧
    readRun (withArgs 224 0 (List.replicate 224 9)).bin 0 224 = some (List.replicate 224 9) ∧
    (1 < (224 + 222) / 223 ∧ [(9 : Byte)] = slice (List.replicate 224 9) (223 * 1) 223) ∧
    (withArgs 301 0 []).params.binCap < (withArgs 301 0 []).arg0.toNat := by decide +kernel

theorem witness_RsdecWritesTheAcceptedMessages :
    (withArgs 255 0 (wrongParity 16)).arg0.toNat = (wrongParity 16).length ∧
    (wrongParity 16).length ≤ (withArgs 255 0 (wrongParity 16)).params.binCap ∧
    readRun (withArgs 255 0 (wrongParity 16)).bin 0 (wrongParity 16).length = some (wrongParity 16) ∧
    (rsDecode (wrongParity 16)).out.length = 223 ∧
    (rsDecode (wrongParity 17 ++ wrongParity 16)).dropped = 1 ∧
    ({ blank.params with boutCap := 222 } : Params).boutCap < 223 ∧
    (withArgs 301 0 []).params.binCap < (withArgs 301 0 []).arg0.toNat := by decide +kernel

/-- For CodewordsVanishAtTheRoots, EncoderIsLinear and WrongMessageByteIsRejected. -/
theorem witness_MessageBlocks : messageX.length = 223 ∧ 222 < 223 ∧ (0x80 : Byte) ≠ 0 := by decide +kernel

theorem witness_Crc32WritesTheChecksum :
    (withArgs 1 0 [0x61]).arg0.toNat = [(0x61 : Byte)].length ∧ 1 ≤ (withArgs 1 0 [0x61]).params.binCap ∧
    readRun (withArgs 1 0 [0x61]).bin 0 1 = some [0x61] ∧
    (withArgs 301 0 []).params.binCap < (withArgs 301 0 []).arg0.toNat := by decide +kernel

/-- A block that holds a name and a payload, for FRAME and ENCODE. -/
def named (payload name : List Byte) : State :=
  { withArgs (BitVec.ofNat 32 payload.length) (BitVec.ofNat 32 name.length) payload with namebuf := cellsFrom 0 name }

theorem witness_FrameWritesThePacket :
    (named [9, 8] [0x78]).arg0.toNat = [(9 : Byte), 8].length ∧ 0 < (named [9, 8] [0x78]).arg1.toNat ∧
    [(0x78 : Byte)].length = min (named [9, 8] [0x78]).arg1.toNat 255 ∧ 2 ≤ (named [9, 8] [0x78]).params.binCap ∧
    13 + 1 + 2 ≤ (named [9, 8] [0x78]).params.boutCap ∧
    readRun (named [9, 8] [0x78]).bin 0 2 = some [9, 8] ∧ readRun (named [9, 8] [0x78]).namebuf 0 1 = some [0x78] ∧
    (withArgs 5 0 []).arg1 = 0 ∧ (withArgs 301 1 []).arg1 ≠ 0 ∧
    (withArgs 301 1 []).params.binCap < (withArgs 301 1 []).arg0.toNat := by decide +kernel

theorem witness_ParseDeliversThePacket :
    (∃ p, (withArgs 14 0 packetX).arg0.toNat = packetX.length ∧ packetX.length ≤ (withArgs 14 0 packetX).params.binCap ∧
      readRun (withArgs 14 0 packetX).bin 0 packetX.length = some packetX ∧ parse packetX = .ok p ∧
      p.payload.length ≤ (withArgs 14 0 packetX).params.boutCap) ∧
    (withArgs 301 0 []).params.binCap < (withArgs 301 0 []).arg0.toNat ∧
    (withArgs 13 0 []).arg0.toNat ≤ (withArgs 13 0 []).params.binCap ∧ (withArgs 13 0 []).arg0.toNat < 14 ∧
    (withArgs 14 0 (List.replicate 14 0)).arg0.toNat = (List.replicate 14 (0 : Byte)).length ∧
    readRun (withArgs 14 0 (List.replicate 14 0)).bin 0 14 = some (List.replicate 14 0) ∧
    parse (List.replicate 14 0) = .error .magic :=
  ⟨⟨{ name := [0x78], payload := [], stored := 0xDC3D99F8, computed := 0xDC3D99F8 }, by decide +kernel⟩,
    by decide +kernel⟩

/-- The last clause of ParseDeliversThePacket: a payload of five bytes does not fit four. -/
theorem witness_ParsePayloadDoesNotFit :
    ∃ p, noRoom.arg0.toNat = packetFlipped.length ∧ packetFlipped.length ≤ noRoom.params.binCap ∧
      readRun noRoom.bin 0 packetFlipped.length = some packetFlipped ∧ parse packetFlipped = .ok p ∧
      noRoom.params.boutCap < p.payload.length :=
  ⟨{ name := [0x68, 0x69, 0x2E, 0x74, 0x78, 0x74], payload := [0x48, 0x65, 0x6D, 0x6C, 0x6F], stored := 0xC16F38FA,
     computed := 0xC0AD52CD }, by decide +kernel⟩

theorem witness_ParseFailsOnMagicThenSize :
    (packetX.take 13).length < 14 ∧ 14 ≤ packetX.length ∧ (List.replicate 14 (0 : Byte)).take 4 ≠ [0x41, 0x45, 0x44, 0x43] ∧
    packetX.take 4 = [0x41, 0x45, 0x44, 0x43] ∧ (packetX.getD 4 0).toNat = 1 ∧ 9 + 1 ≤ packetX.length ∧
    unle32 (slice packetX (5 + 1) 4) = 0 ∧ 13 + 1 + 0 ≤ packetX.length ∧
    (packetX.set 4 6).length < 9 + 6 ∧ (packetX.set 4 5).length < 13 + 5 + unle32 (slice (packetX.set 4 5) (5 + 5) 4) := by
  decide +kernel

/-- For ParseOfFrameIsIdentity, FlippedPayloadBitIsWarnedAndDelivered, BytePathRoundTrip and
DecodeOfEncodedAudioIsIdentity. -/
theorem witness_NameAndPayload :
    1 ≤ [(0x78 : Byte)].length ∧ (List.replicate 255 (0x41 : Byte)).length ≤ 255 ∧ [(9 : Byte)].length < 2 ^ 32 ∧
    0 < [(9 : Byte)].length ∧ 7 < 8 ∧ 13 + [(0x78 : Byte)].length + [(9 : Byte)].length ≤ 3755991007 ∧
    ∃ pkt, frame [0x78] [9] = .ok pkt := ⟨by decide, by decide +kernel, by decide, by decide, by decide, by decide, _, rfl⟩

/-- For ToneWritesOneSymbol and PreambWritesFiveSyncSymbols. -/
theorem witness_ToneWritesOneSymbol :
    blank.params.ok = true ∧ 5291 ≤ 5291 ∧ (withArgs 256 0 []).arg0.toNat ≤ 256 ∧ 256 < (withArgs 257 0 []).arg0.toNat := by
  decide +kernel

theorem witness_SymbolSamplesAreTheToneFormula :
    256 ≤ 256 ∧ 255 ≤ 256 ∧ 1322 ≤ 1322 ∧ ∃ f : ℝ, f = (if (256 : ℕ) = 256 then 1000 else 2000 + 50 * ((256 : ℕ) : ℝ)) :=
  ⟨le_rfl, by decide, le_rfl, _, rfl⟩

theorem witness_ModWritesTheFrame :
    (withArgs 1 0 [0x41]).arg0.toNat = [(0x41 : Byte)].length ∧ 1 ≤ (withArgs 1 0 [0x41]).params.binCap ∧
    (14 + 1) * 1323 ≤ (withArgs 1 0 [0x41]).params.soutCap ∧ readRun (withArgs 1 0 [0x41]).bin 0 1 = some [0x41] ∧
    (withArgs 301 0 []).params.binCap < (withArgs 301 0 []).arg0.toNat := by decide +kernel

theorem witness_FrameLayoutSymbolBySymbol :
    [(0x41 : Byte)].length < 2 ^ 32 ∧ (∀ q ∈ [0, 4, 5, 8, 9, 10, 14], q < 14 + [(0x41 : Byte)].length) := by decide

theorem witness_GoertzWritesTheMagnitude :
    ((withAudio click 0 256).arg2.toNat ≤ 256 ∧
      (withAudio click 0 256).arg1.toNat + 1323 ≤ (withAudio click 0 256).arg0.toNat ∧
      (withAudio click 0 256).arg0.toNat = click.length ∧ click.length ≤ (withAudio click 0 256).params.sinCap ∧
      readRun (withAudio click 0 256).sin 0 click.length = some click) ∧
    256 < ({ blank with arg2 := 257 } : State).arg2.toNat ∧
    ({ blank with arg0 := 1322 } : State).arg0.toNat < ({ blank with arg0 := 1322 } : State).arg1.toNat + 1323 ∧
    ({ blank with arg0 := 2000001 } : State).arg1.toNat + 1323 ≤ ({ blank with arg0 := 2000001 } : State).arg0.toNat ∧
    blank.params.sinCap < ({ blank with arg0 := 2000001 } : State).arg0.toNat := by
  refine ⟨⟨by decide, ?_, ?_, ?_, readRun_withAudio _ _ _⟩, by decide +kernel⟩
  · rw [arg0_withAudio _ _ _ (by rw [length_click]; omega), length_click]
    decide
  · rw [arg0_withAudio _ _ _ (by rw [length_click]; omega)]
  · rw [length_click]
    decide +kernel

/-- For MagnitudeIsTheRealGoertzel, MagnitudeIsTheFourierModulus and DetectedToneIsTheLeastMaximum. -/
theorem witness_Windows : 256 ≤ 256 ∧ 0 + 1323 ≤ click.length ∧
    ∃ m : ℕ → ℝ, ∀ k, m k = realGoertzel ((slice click 0 1323).map realOf) (2000 + 50 * (k : ℝ)) :=
  ⟨le_rfl, by rw [length_click], _, fun _ => rfl⟩

theorem witness_SyncfindWritesThePositions :
    ((withAudio clicks 0 0).arg0.toNat = clicks.length ∧ clicks.length ≤ (withAudio clicks 0 0).params.sinCap ∧
      readRun (withAudio clicks 0 0).sin 0 clicks.length = some clicks ∧
      findPreambles (withAudio clicks 0 0).arithmetic (withAudio clicks 0 0).params.syncThreshold clicks = [6615] ∧
      4 * [6615].length ≤ (withAudio clicks 0 0).params.boutCap) ∧
    ({ blank.params with boutCap := 3 } : Params).boutCap < 4 * [6615].length ∧
    blank.params.sinCap < ({ blank with arg0 := 2000001 } : State).arg0.toNat := by
  refine ⟨⟨arg0_withAudio _ _ _ ?_, ?_, readRun_withAudio _ _ _, findPreambles_clicks_alone, by decide +kernel⟩,
    by decide +kernel⟩
  · rw [length_clicks]; omega
  · rw [length_clicks]; decide +kernel

/-- For SyncCountComparesRealMagnitudes and SearchFindsEveryGridMatch. -/
theorem witness_Search :
    0 + 6615 ≤ clicks.length ∧ findPreambles exactArithmetic 10 (clicks ++ clicks) = 6615 :: [13230] ∧
    findPreambles exactArithmetic 10 clicks = 6615 :: [] ∧ findPreambles exactArithmetic 10 [] = [] :=
  ⟨by rw [length_clicks], findPreambles_clicks_twice, findPreambles_clicks_alone, rfl⟩

theorem witness_DetectWritesTheStrongestTone :
    ((withAudio (probe 77) 0 0).arg1.toNat + 1323 ≤ (withAudio (probe 77) 0 0).arg0.toNat ∧
      (withAudio (probe 77) 0 0).arg0.toNat = (probe 77).length ∧
      (probe 77).length ≤ (withAudio (probe 77) 0 0).params.sinCap ∧
      readRun (withAudio (probe 77) 0 0).sin 0 (probe 77).length = some (probe 77)) ∧
    ({ blank with arg0 := 1322 } : State).arg0.toNat < ({ blank with arg0 := 1322 } : State).arg1.toNat + 1323 ∧
    ({ blank with arg0 := 2000001 } : State).arg1.toNat + 1323 ≤ ({ blank with arg0 := 2000001 } : State).arg0.toNat ∧
    blank.params.sinCap < ({ blank with arg0 := 2000001 } : State).arg0.toNat := by
  refine ⟨⟨?_, arg0_withAudio _ _ _ ?_, ?_, readRun_withAudio _ _ _⟩, by decide +kernel⟩
  · rw [arg0_withAudio _ _ _ (by rw [length_probe]; omega), length_probe]
    decide
  · rw [length_probe]; omega
  · rw [length_probe]; decide +kernel

/-- Every clause of DEMOD: a whole frame (which fits a `BOUT` of 600 and not one of 1), a truncated one, audio longer than
`SIN_CAP`, no preamble, and no length field. -/
theorem witness_DemodDeliversTheBytes :
    ((withAudio (recording 2 [7, 9]) 0 0).arg0.toNat = (recording 2 [7, 9]).length ∧
      readRun (withAudio (recording 2 [7, 9]) 0 0).sin 0 (recording 2 [7, 9]).length = some (recording 2 [7, 9]) ∧
      demodulate (withAudio (recording 2 [7, 9]) 0 0).arithmetic (withAudio (recording 2 [7, 9]) 0 0).params.syncThreshold (recording 2 [7, 9]) =
        .ok { bytes := [7, 9], dlen := 2, start := 6615, truncated := false, lost := false } ∧
      demodulate exactArithmetic 10 (recording 3 [7, 9]) = .ok { bytes := [7, 9], dlen := 3, start := 6615, truncated := true, lost := false } ∧
      [(7 : Byte), 9].length ≤ blank.params.boutCap ∧
      ({ blank.params with boutCap := 1 } : Params).boutCap < [(7 : Byte), 9].length) ∧
    blank.params.sinCap < ({ blank with arg0 := 2000001 } : State).arg0.toNat ∧
    (blank.arg0.toNat = ([] : List Sample).length ∧ readRun blank.sin 0 0 = some [] ∧
      findPreambles blank.arithmetic blank.params.syncThreshold [] = []) ∧
    ((withAudio clicks 0 0).arg0.toNat = clicks.length ∧
      readRun (withAudio clicks 0 0).sin 0 clicks.length = some clicks ∧
      findPreambles (withAudio clicks 0 0).arithmetic (withAudio clicks 0 0).params.syncThreshold clicks = 6615 :: [] ∧ clicks.length < 6615 + 5292) := by
  refine ⟨⟨arg0_withAudio _ _ _ ?_, readRun_withAudio _ _ _, demodulate_recording 2 [7, 9] (by decide),
    demodulate_recording 3 [7, 9] (by decide), by decide +kernel, by decide⟩, by decide +kernel,
    ⟨rfl, rfl, rfl⟩, arg0_withAudio _ _ _ ?_, readRun_withAudio _ _ _, findPreambles_clicks_alone, ?_⟩
  · rw [length_recording]; decide
  · rw [length_clicks]; omega
  · rw [length_clicks]; omega

theorem witness_DemodulatedFrameIsReadSymbolBySymbol :
    demodulate exactArithmetic 10 (recording 2 [7, 9]) = .ok { bytes := [7, 9], dlen := 2, start := 6615, truncated := false, lost := false } ∧
    1 < [(7 : Byte), 9].length ∧ toneLost notANumber (silence 11907) 6615 = true :=
  ⟨demodulate_recording 2 [7, 9] (by decide), by decide, by decide +kernel⟩

theorem witness_SilenceHasNoPreamble :
    (withAudio (silence 7000) 0 0).params.numerics = .exact ∧ 0 ≤ blank.params.syncThreshold ∧ (withAudio (silence 7000) 0 0).arg0.toNat = 7000 ∧
    7000 ≤ (withAudio (silence 7000) 0 0).params.sinCap ∧
    readRun (withAudio (silence 7000) 0 0).sin 0 7000 = some (List.replicate 7000 []) := by
  have h := readRun_withAudio (silence 7000) 0 0
  have h2 := arg0_withAudio (silence 7000) 0 0 (by rw [length_silence]; omega)
  rw [length_silence] at h h2
  exact ⟨rfl, by decide +kernel, h2, by decide +kernel, h⟩

theorem witness_DemodulateOfModulateIsIdentity : ∃ x, [(0x41 : Byte)].length ≤ 2 ^ 32 - 1 ∧ modulate exactArithmetic [0x41] = .ok x :=
  ⟨_, by decide, by rw [modulate, if_neg (by decide)]⟩

theorem witness_EncodeWritesTheAudioFrame :
    ((named [9, 8] [0x78]).arg0.toNat = [(9 : Byte), 8].length ∧ 0 < (named [9, 8] [0x78]).arg1.toNat ∧
      [(0x78 : Byte)].length = min (named [9, 8] [0x78]).arg1.toNat 255 ∧ 2 ≤ (named [9, 8] [0x78]).params.binCap ∧
      255 = 255 * ((13 + 1 + 2 + 222) / 223) ∧ 255 ≤ 2 ^ 32 - 1 ∧
      (14 + 255) * 1323 ≤ (named [9, 8] [0x78]).params.soutCap ∧
      readRun (named [9, 8] [0x78]).bin 0 2 = some [9, 8] ∧ readRun (named [9, 8] [0x78]).namebuf 0 1 = some [0x78]) ∧
    (withArgs 5 0 []).arg1 = 0 ∧
    ((withArgs 301 1 []).arg1 ≠ 0 ∧ (withArgs 301 1 []).params.binCap < (withArgs 301 1 []).arg0.toNat) ∧
    ((bigBin 3755990994).arg1 ≠ 0 ∧ (bigBin 3755990994).arg0.toNat ≤ (bigBin 3755990994).params.binCap ∧
      2 ^ 32 - 1 < 255 * ((13 + min (bigBin 3755990994).arg1.toNat 255 + (bigBin 3755990994).arg0.toNat + 222) / 223)) ∧
    (255 * ((13 + min (bigBin 3755990993).arg1.toNat 255 + (bigBin 3755990993).arg0.toNat + 222) / 223) ≤ 2 ^ 32 - 1 ∧
      (bigBin 3755990993).params.soutCap <
        (14 + 255 * ((13 + min (bigBin 3755990993).arg1.toNat 255 + (bigBin 3755990993).arg0.toNat + 222) / 223)) *
          1323) := by decide +kernel

/-- Every clause of DECODE: audio longer than `SIN_CAP`, no preamble, a parse error behind a truncation, and a parsed packet, whose empty payload fits. -/
theorem witness_DecodeComposesTheStages :
    blank.params.sinCap < ({ blank with arg0 := 2000001 } : State).arg0.toNat ∧
    ((withAudio audioX 0 0).arg0.toNat = audioX.length ∧ audioX.length ≤ (withAudio audioX 0 0).params.sinCap ∧
      readRun (withAudio audioX 0 0).sin 0 audioX.length = some audioX ∧
      demodulate (withAudio audioX 0 0).arithmetic (withAudio audioX 0 0).params.syncThreshold audioX =
        .ok { bytes := rsEncodeBlock messageX, dlen := 255, start := 6615, truncated := false, lost := false } ∧
      parse (rsDecode (rsEncodeBlock messageX)).out =
        .ok { name := [0x78], payload := [], stored := 0xDC3D99F8, computed := 0xDC3D99F8 }) ∧
    (demodulate exactArithmetic 10 (recording 255 [0x41]) = .ok { bytes := [0x41], dlen := 255, start := 6615, truncated := true, lost := false } ∧
      parse (rsDecode [0x41]).out = .error .short) ∧
    (blank.arg0.toNat = ([] : List Sample).length ∧ readRun blank.sin 0 0 = some [] ∧
      demodulate blank.arithmetic blank.params.syncThreshold [] = .error .noPreamble) := by
  refine ⟨by decide +kernel, ⟨arg0_withAudio _ _ _ ?_, ?_, readRun_withAudio _ _ _, demodulate_audioX, ?_⟩,
    ⟨demodulate_recording 255 [0x41] (by decide), rfl⟩, rfl, rfl, rfl⟩
  · rw [length_audioX]; omega
  · rw [length_audioX]; decide +kernel
  · rw [rsDecode_one_block _ length_messageX]; exact parse_messageX

/-- A message block whose packet carries one payload byte, for the clause of DECODE where the payload does not fit. -/
def messagePayload : List Byte :=
  [0x41, 0x45, 0x44, 0x43, 0x01, 0x78, 1, 0, 0, 0, 9, 0, 0, 0, 0] ++ List.replicate 208 0

theorem witness_DecodePayloadDoesNotFit :
    demodulate exactArithmetic 10 (recording 255 (rsEncodeBlock messagePayload)) =
      .ok { bytes := rsEncodeBlock messagePayload, dlen := 255, start := 6615, truncated := false, lost := false } ∧
    (∃ p, parse (rsDecode (rsEncodeBlock messagePayload)).out = .ok p ∧ p.payload = [9] ∧
      ({ blank.params with boutCap := 0 } : Params).boutCap < p.payload.length) := by
  have hm : messagePayload.length = 223 := by decide +kernel
  have hl := length_rsEncodeBlock _ hm
  have h := demodulate_recording 255 (rsEncodeBlock messagePayload) (by rw [hl]; decide)
  rw [hl] at h
  refine ⟨h, { name := [0x78], payload := [9], stored := 0, computed := crc32 (messagePayload.take 11) }, ?_, rfl,
    by decide⟩
  rw [rsDecode_one_block _ hm]
  decide +kernel

theorem witness_HostReadsRegistersByOffset :
    blank.busy = false ∧ ({ blank with inbox := [.readReg 0x30] } : State).inbox = .readReg 0x30 :: [] ∧
    (0x34 ≤ 0xFF ∧ 0xFF ≤ 0xFF) ∧ (busyWith .gfmul blank).busy = true := by decide +kernel

theorem witness_HostWritesRegistersByOffset :
    ({ blank with inbox := [.writeReg 0x1C 5] } : State).inbox = .writeReg 0x1C 5 :: [] ∧ blank.busy = false ∧
    (busyWith .gfmul blank).busy = true ∧ 0x34 ≤ 0x34 := by decide +kernel

theorem witness_HostWritesBuffers :
    ({ blank with inbox := [.writeBytes .bin 298 [1, 2]] } : State).inbox = .writeBytes .bin 298 [1, 2] :: [] ∧
    298 + [(1 : Byte), 2].length ≤ blank.params.binCap ∧ 254 + [(1 : Byte)].length ≤ 255 ∧
    599 + [(1 : Byte)].length ≤ blank.params.boutCap ∧ blank.busy = false ∧ (busyWith .gfmul blank).busy = true := by
  decide +kernel

/-- A block whose output buffers hold an element, at the last offset. -/
def withOutputs : State := { blank with bout := [(599, 7)], sout := [(1999999, RealSum.named 3)], namebuf := [(254, 0x41)] }

/-- The clauses of HostWritesBuffers for samples, reads and copies, at the last offset of each buffer. -/
theorem witness_HostReadsAndCopies :
    (1999999 + [RealSum.named 3].length ≤ blank.params.sinCap ∧
      ({ blank with inbox := [.writeSamples .sin 1999999 [RealSum.named 3]] } : State).busy = false) ∧
    (599 < withOutputs.params.boutCap ∧ readElem withOutputs.bout 599 = some 7 ∧
      readElem withOutputs.namebuf 254 = some 0x41 ∧ withOutputs.busy = false) ∧
    (599 + 1 ≤ withOutputs.params.boutCap ∧ 299 + 1 ≤ withOutputs.params.binCap ∧
      readRun withOutputs.bout 599 1 = some [7]) ∧
    1999999 + 1 ≤ withOutputs.params.soutCap ∧ readElem withOutputs.sout 1999999 = some (RealSum.named 3) ∧
    readRun withOutputs.sout 1999999 1 = some [RealSum.named 3] := by
  refine ⟨?_, ?_, ?_, by decide +kernel, rfl, rfl⟩ <;> decide +kernel

/-- Arguments in range with the last element of `BIN` unwritten: the clause of R190 of GFPMUL, RSENC1, RSDEC1, RSENC, RSDEC,
CRC32, PARSE and MOD. -/
theorem witness_UnwrittenBin :
    ((withArgs 1 1 [5]).arg0 ≠ 0 ∧ (withArgs 1 1 [5]).arg1 ≠ 0 ∧ 1 + 1 ≤ (withArgs 1 1 [5]).params.binCap ∧
      1 < (withArgs 1 1 [5]).arg0.toNat + (withArgs 1 1 [5]).arg1.toNat ∧ readElem (withArgs 1 1 [5]).bin 1 = none) ∧
    (blank.params.ok = true ∧ readElem (withArgs 0 0 (List.replicate 222 1)).bin 222 = none ∧
      readElem (withArgs 0 0 (List.replicate 254 1)).bin 254 = none) ∧
    ((withArgs 2 0 [1]).arg0.toNat ≤ (withArgs 2 0 [1]).params.binCap ∧
      255 * ((2 + 222) / 223) ≤ (withArgs 2 0 [1]).params.boutCap ∧ (14 + 2) * 1323 ≤ (withArgs 2 0 [1]).params.soutCap ∧
      1 < (withArgs 2 0 [1]).arg0.toNat ∧ readElem (withArgs 2 0 [1]).bin 1 = none) ∧
    (14 ≤ (withArgs 14 0 (packetX.take 13)).arg0.toNat ∧ 13 < (withArgs 14 0 (packetX.take 13)).arg0.toNat ∧
      readElem (withArgs 14 0 (packetX.take 13)).bin 13 = none) := by decide +kernel

/-- The clauses of R190 of FRAME and ENCODE: the last byte of the payload unwritten, or the name. -/
theorem witness_UnwrittenPayloadOrName :
    ((withArgs 2 1 [9]).arg1 ≠ 0 ∧ 2 ≤ (withArgs 2 1 [9]).params.binCap ∧ 13 + 1 + 2 ≤ (withArgs 2 1 [9]).params.boutCap ∧
      255 * ((13 + 1 + 2 + 222) / 223) ≤ 2 ^ 32 - 1 ∧
      (14 + 255 * ((13 + 1 + 2 + 222) / 223)) * 1323 ≤ (withArgs 2 1 [9]).params.soutCap ∧
      1 < (withArgs 2 1 [9]).arg0.toNat ∧ readElem (withArgs 2 1 [9]).bin 1 = none) ∧
    (readRun (withArgs 1 1 [9]).bin 0 (withArgs 1 1 [9]).arg0.toNat = some [9] ∧
      0 < min (withArgs 1 1 [9]).arg1.toNat 255 ∧ readElem (withArgs 1 1 [9]).namebuf 0 = none) := by decide +kernel

/-- A window of audio whose last sample nobody has written. -/
def shortAudio : State := { blank with arg0 := 1323, arg2 := 256, sin := cellsFrom 0 (List.replicate 1322 []) }

/-- The clauses of R190 of GOERTZ, SYNCFIND, DETECT, DEMOD and DECODE, and of the host's reads. -/
theorem witness_UnwrittenSin :
    (shortAudio.arg2.toNat ≤ 256 ∧ shortAudio.arg1.toNat + 1323 ≤ shortAudio.arg0.toNat ∧
      shortAudio.arg0.toNat ≤ shortAudio.params.sinCap ∧ 1322 < shortAudio.arg0.toNat) ∧
    readElem shortAudio.sin 1322 = none ∧ readElem shortAudio.sout 0 = none ∧
    readElem blank.bin 299 = none ∧ readElem blank.bout 599 = none ∧ readElem blank.namebuf 254 = none :=
  ⟨by decide +kernel, by decide +kernel, rfl, rfl, rfl, rfl⟩

theorem witness_ResetInputRestoresRegisters :
    ({ blank with inbox := [.resetInput] } : State).inbox = .resetInput :: [] ∧ blank.busy = false ∧
    (busyWith .gfmul blank).busy = true := by decide +kernel

end Sys2Proof.Machine.Tests
end

/-!
PROOFS. What a step can do, said once: which writes a command makes before it completes (spec/30_encoding.md R54,
spec/60_exceptions.md R171), which a host action makes (spec/10_state.md R11, R16), and the invariant of Safety.lean, which
all of them keep.
-/

namespace Sys2Proof.Machine

/-! ## `STATUS` and `WARN` -/

/-- A completion leaves BUSY 0 (R14), whatever the code is. -/
theorem statusCompleted_busy (c : Byte) : (statusCompleted c).getLsbD 0 = false := by
  simp [statusCompleted]

/-- A completion leaves DONE 1 (R14). -/
theorem statusCompleted_done (c : Byte) : (statusCompleted c).getLsbD 1 = true := by
  simp [statusCompleted]

/-- The ERR field of a completion is its code (R14). -/
theorem statusCompleted_err (c : Byte) : (statusCompleted c).extractLsb' 8 8 = c := by
  ext i hi
  simp only [statusCompleted, BitVec.getElem_extractLsb', BitVec.getLsbD_or, BitVec.getLsbD_shiftLeft]
  interval_cases i <;> simp

/-- A launch leaves BUSY 1 (R14). -/
theorem beginCommand_busy (w : Word) (s : State) : (beginCommand w s).busy = true := by
  rw [State.busy, beginCommand_status]
  decide

/-- Every code of R166 is at most 0x0B. -/
theorem errCode_le (e : ErrCode) : e.code.toNat ≤ 0x0B := by cases e <;> decide

theorem legalStatus_statusCompleted {c : Byte} (h : c.toNat ≤ 0x0B) : legalStatus (statusCompleted c) :=
  .inr (.inr ⟨c, h, rfl⟩)

theorem legalWarn_zero (n : Numerics) : legalWarn n 0 := by simp [legalWarn]

theorem legalWarn_or {n : Numerics} {a b : Word} (ha : legalWarn n a) (hb : legalWarn n b) : legalWarn n (a ||| b) := by
  obtain ⟨haBits, haTone⟩ := ha
  obtain ⟨hbBits, hbTone⟩ := hb
  refine ⟨?_, fun hn => ?_⟩
  · rw [BitVec.and_or_distrib_right, haBits, hbBits]; rfl
  · rw [BitVec.and_or_distrib_right, haTone hn, hbTone hn]; rfl

/-- `W_CRC` is legal in every arithmetic (R107). -/
theorem legalWarn_parsed (n : Numerics) (p : Parsed) : legalWarn n p.warning := by
  unfold Parsed.warning warnIf
  split <;> simp [legalWarn, warnCrc]

/-- What a demodulated frame raises is legal: `W_TONE` only where the arithmetic can lose a tone (R141, U10). -/
theorem legalWarn_demodulated {n : Numerics} {threshold : Rat} {x : List Sample} {d : Demodulated}
    (h : demodulate (arithmeticOf n) threshold x = .ok d) : legalWarn n d.warning := by
  have trunc : legalWarn n (warnIf d.truncated warnTrunc) := by
    unfold warnIf; split <;> simp [legalWarn, warnTrunc]
  have tone : legalWarn n (warnIf d.lost warnTone) := by
    cases hl : d.lost with
    | false => simp [warnIf, legalWarn]
    | true =>
      refine ⟨by simp [warnIf, warnTone], fun hn => ?_⟩
      subst hn
      exact absurd (demodulate_lost_exact threshold x d h) (by simp [hl])
  exact legalWarn_or trunc tone

/-- The warnings of the stages of `DECODE` that ran are legal (R157, R158). -/
theorem legalWarn_decodeAudio (n : Numerics) (threshold : Rat) (x : List Sample) :
    legalWarn n (decodeAudio (arithmeticOf n) threshold x).warnings := by
  unfold decodeAudio
  split
  · exact legalWarn_zero n
  · next d hd =>
    dsimp only
    split
    · exact legalWarn_demodulated hd
    · exact legalWarn_or (legalWarn_demodulated hd) (legalWarn_parsed n _)

/-! ## Lengths and forms of what commands commit -/

/-- A name that `parse` delivers fits `NAMEBUF`: its length is a byte (R105). -/
theorem parse_name_le {buf : List Byte} {p : Parsed} (h : parse buf = .ok p) : p.name.length ≤ nameCap := by
  unfold parse at h
  dsimp only at h
  split at h
  · cases h
  split at h
  · cases h
  split at h
  · cases h
  split at h
  · cases h
  cases h
  have hb := (buf.getD 4 0).isLt
  simp only [slice, List.length_take, nameCap]
  omega

/-- A packet that `DECODE` delivers is one that `parse` delivers. -/
theorem decodeAudio_name_le {A : Arithmetic} {threshold : Rat} {x : List Sample} {p : Parsed} {k n : Nat}
    (h : (decodeAudio A threshold x).result = .ok (p, k, n)) : p.name.length ≤ nameCap := by
  unfold decodeAudio at h
  split at h
  · cases h
  dsimp only at h
  split at h
  · cases h
  · next hp => cases h; exact parse_name_le hp

theorem ok_symbol (n : Numerics) (t : Nat) : ∀ x ∈ symbol (arithmeticOf n) t, Sample.ok x = true := by
  intro x hx
  obtain ⟨i, -, rfl⟩ := List.mem_map.mp hx
  exact ok_toneSample (keepsForm_arithmeticOf n) _ i

theorem ok_preamble (n : Numerics) : ∀ x ∈ preamble (arithmeticOf n), Sample.ok x = true := by
  intro x hx
  obtain ⟨l, hl, hx⟩ := List.mem_flatten.mp hx
  rw [List.eq_of_mem_replicate hl] at hx
  exact ok_symbol n _ x hx

theorem ok_dataSymbols (n : Numerics) (bs : List Byte) :
    ∀ x ∈ dataSymbols (arithmeticOf n) bs, Sample.ok x = true := by
  intro x hx
  obtain ⟨b, -, hx⟩ := List.mem_flatMap.mp hx
  exact ok_symbol n _ x hx

theorem ok_modulate {n : Numerics} {data : List Byte} {out : List Sample}
    (h : modulate (arithmeticOf n) data = .ok out) : ∀ x ∈ out, Sample.ok x = true := by
  unfold modulate at h
  split at h
  · cases h
  rw [← Except.ok.inj h]
  simp only [List.mem_append]
  rintro x (((hx | hx) | hx) | hx)
  · exact ok_preamble n x hx
  · exact ok_dataSymbols n _ x hx
  · exact ok_dataSymbols n _ x hx
  · exact ok_preamble n x hx

theorem ok_encodeFile {n : Numerics} {name payload : List Byte} {out : List Sample}
    (h : encodeFile (arithmeticOf n) name payload = .ok out) : ∀ x ∈ out, Sample.ok x = true := by
  unfold encodeFile at h
  split at h
  · cases h
  dsimp only at h
  split at h
  · cases h
  · exact ok_modulate h

theorem ok_goertzel (n : Numerics) (x : List Sample) (s f : Nat) :
    Sample.ok (goertzel (arithmeticOf n) x s f).square = true :=
  ok_goertzelWindow (keepsForm_arithmeticOf n) _ f

/-- The magnitude of the strongest tone is the magnitude of some tone, so it is in buffer form. -/
theorem ok_detectTone (n : Numerics) (x : List Sample) (s : Nat) :
    Sample.ok (detectTone (arithmeticOf n) x s).magnitude.square = true := by
  have hwin := ok_goertzelWindow (keepsForm_arithmeticOf n) (slice x s symbolLen)
  have fold : ∀ (ks : List Nat) (best : BestTone), Sample.ok best.magnitude.square = true →
      Sample.ok (ks.foldl (detectStep (arithmeticOf n) (slice x s symbolLen)) best).magnitude.square = true := by
    intro ks
    induction ks with
    | nil => exact fun _ h => h
    | cons k ks ih =>
      intro best h
      refine ih _ ?_
      unfold detectStep
      dsimp only
      split
      · exact hwin _
      · exact h
  exact fold _ _ (hwin _)

/-! ## The writes of a command -/

/-- The states a command launched in `s` can make before it writes `STATUS` (R54, R36): result registers of any value, a
magnitude in buffer form, legal warning bits, and whole output buffers from offset 0 within their capacities. -/
inductive Results (s : State) : State → Prop
  | launched : Results s s
  | warned {t : State} {b : Word} : legalWarn s.params.numerics b → Results s t → Results s (warn b t)
  | registers {t : State} {r0 r1 r2 r3 : Word} :
      Results s t → Results s { t with res0 := r0, res1 := r1, res2 := r2, res3 := r3 }
  | magnitude {t : State} {m : Magnitude} : Sample.ok m.square = true → Results s t → Results s { t with mag := m }
  | name {t : State} {bs : List Byte} :
      bs.length ≤ nameCap → Results s t → Results s { t with namebuf := writeRun t.namebuf 0 bs }
  | bytes {t : State} {bs : List Byte} :
      bs.length ≤ s.params.boutCap → Results s t → Results s { t with bout := writeRun t.bout 0 bs }
  | samples {t : State} {xs : List Sample} :
      xs.length ≤ s.params.soutCap → (∀ x ∈ xs, Sample.ok x = true) → Results s t →
      Results s { t with sout := writeRun t.sout 0 xs }

/-- `t` is a completion of the command launched in `s`: the writes of `Results`, then `STATUS` with a code of R166. -/
def Completion (s t : State) : Prop :=
  ∃ (u : State) (c : Byte), Results s u ∧ c.toNat ≤ 0x0B ∧ t = { u with status := statusCompleted c }

/-- A command launched in `s` that answers `a` completes, if it answers a next state at all. -/
def Completes (s : State) (a : Answer) : Prop := ∀ t, a = .next t → Completion s t

/-- No command writes the parameters (R7). -/
theorem Results.params {s t : State} (h : Results s t) : t.params = s.params := by
  induction h with
  | launched => rfl
  | warned _ _ ih | registers _ ih | magnitude _ _ ih | name _ _ ih | bytes _ _ ih | samples _ _ _ ih => exact ih

section completes

variable {s u t : State}

theorem completes_fault (f : Fault) : Completes s (.fault f) := by
  intro t h; cases h

theorem completes_fail (e : ErrCode) (hu : Results s u) : Completes s (fail e u) := by
  intro t h
  cases h
  exact ⟨u, e.code, hu, errCode_le e, rfl⟩

theorem completes_succeed (ht : Results s t) : Completes s (succeed t) := by
  intro t' h
  cases h
  exact ⟨t, 0, ht, by decide, rfl⟩

theorem completes_withBin (n : Nat) (k : List Byte → Answer) (hk : ∀ bs, Completes s (k bs)) :
    Completes s (withBin n s k) := by
  rcases withBin_cases n s k with ⟨-, h⟩ | ⟨-, -, h⟩ | ⟨bs, -, -, h⟩ <;> rw [h]
  · exact completes_fail .cap .launched
  · exact completes_fault _
  · exact hk bs

theorem completes_withName (n : Nat) (k : List Byte → Answer) (hk : ∀ bs, Completes s (k bs)) :
    Completes s (withName n s k) := by
  rcases withName_cases n s k with ⟨-, h⟩ | ⟨bs, -, h⟩ <;> rw [h]
  · exact completes_fault _
  · exact hk bs

theorem completes_withSin (n : Nat) (k : List Sample → Answer) (hk : ∀ xs, Completes s (k xs)) :
    Completes s (withSin n s k) := by
  rcases withSin_cases n s k with ⟨-, h⟩ | ⟨-, -, h⟩ | ⟨xs, -, -, h⟩ <;> rw [h]
  · exact completes_fail .cap .launched
  · exact completes_fault _
  · exact hk xs

theorem completes_commitBytes (out : List Byte) (hu : Results s u) (ht : Results s t) :
    Completes s (commitBytes out u t) := by
  rcases commitBytes_cases out u t with ⟨-, h⟩ | ⟨hlen, h⟩ <;> rw [h]
  · exact completes_fail .cap hu
  · exact completes_succeed (.bytes (hu.params ▸ hlen) ht)

theorem completes_commitSamples (out : List Sample) (hout : ∀ x ∈ out, Sample.ok x = true) (hu : Results s u)
    (ht : Results s t) : Completes s (commitSamples out u t) := by
  rcases commitSamples_cases out u t with ⟨-, h⟩ | ⟨hlen, h⟩ <;> rw [h]
  · exact completes_fail .cap hu
  · exact completes_succeed (.samples (hu.params ▸ hlen) hout ht)

end completes

/-! ## Every command completes -/

section commands

variable (s : State)

theorem completes_execGfmul : Completes s (execGfmul s) := by
  unfold execGfmul
  split
  · exact completes_succeed (.registers .launched)
  · exact completes_fail .arg .launched

theorem completes_execGfdiv : Completes s (execGfdiv s) := by
  unfold execGfdiv
  split
  · split
    · exact completes_succeed (.registers .launched)
    · exact completes_fail .div0 .launched
  · exact completes_fail .arg .launched

theorem completes_execGfpmul : Completes s (execGfpmul s) := by
  unfold execGfpmul
  dsimp only
  split
  · exact completes_fail .arg .launched
  split
  · exact completes_fail .cap .launched
  exact completes_withBin _ _ fun _ => completes_commitBytes _ .launched (.registers .launched)

theorem completes_execRsenc1 : Completes s (execRsenc1 s) :=
  completes_withBin _ _ fun _ => completes_commitBytes _ .launched (.registers .launched)

theorem completes_execRsdec1 : Completes s (execRsdec1 s) := by
  refine completes_withBin _ _ fun c => ?_
  dsimp only
  split
  · exact completes_commitBytes _ .launched (.registers .launched)
  · exact completes_succeed (.registers .launched)

theorem completes_execRsenc : Completes s (execRsenc s) := by
  unfold execRsenc
  dsimp only
  split
  · exact completes_fail .cap .launched
  · exact completes_withBin _ _ fun _ => completes_commitBytes _ .launched (.registers .launched)

theorem completes_execRsdec : Completes s (execRsdec s) :=
  completes_withBin _ _ fun _ => completes_commitBytes _ .launched (.registers .launched)

theorem completes_execCrc32 : Completes s (execCrc32 s) :=
  completes_withBin _ _ fun _ => completes_succeed (.registers .launched)

theorem completes_execFrame : Completes s (execFrame s) := by
  unfold execFrame
  dsimp only
  split
  · exact completes_fail .name .launched
  split
  · exact completes_fail .cap .launched
  refine completes_withBin _ _ fun _ => completes_withName _ _ fun _ => ?_
  split
  · exact completes_fail _ .launched
  · exact completes_commitBytes _ .launched (.registers .launched)

theorem completes_execParse : Completes s (execParse s) := by
  unfold execParse
  dsimp only
  split
  · exact completes_fail .cap .launched
  split
  · exact completes_fail .short .launched
  refine completes_withBin _ _ fun _ => ?_
  split
  · exact completes_fail _ .launched
  · next p hp =>
    have warned : Results s (warn p.warning s) := .warned (legalWarn_parsed _ p) .launched
    exact completes_commitBytes _ warned (.registers (.name (parse_name_le hp) warned))

theorem completes_execTone : Completes s (execTone s) := by
  unfold execTone
  split
  · exact completes_commitSamples _ (ok_symbol _ _) .launched (.registers .launched)
  · exact completes_fail .arg .launched

theorem completes_execPreamb : Completes s (execPreamb s) :=
  completes_commitSamples _ (ok_preamble _) .launched (.registers .launched)

theorem completes_execMod : Completes s (execMod s) := by
  unfold execMod
  dsimp only
  split
  · exact completes_fail .cap .launched
  refine completes_withBin _ _ fun _ => ?_
  split
  · exact completes_fail _ .launched
  · next hout => exact completes_commitSamples _ (ok_modulate hout) .launched (.registers .launched)

theorem completes_execGoertz : Completes s (execGoertz s) := by
  unfold execGoertz
  split
  · exact completes_fail .arg .launched
  split
  · exact completes_withSin _ _ fun _ => completes_succeed (.magnitude (ok_goertzel _ _ _ _) .launched)
  · exact completes_fail .arg .launched

theorem completes_execSyncfind : Completes s (execSyncfind s) :=
  completes_withSin _ _ fun _ => completes_commitBytes _ .launched (.registers .launched)

theorem completes_execDetect : Completes s (execDetect s) := by
  unfold execDetect
  split
  · exact completes_withSin _ _ fun _ =>
      completes_succeed (.registers (.magnitude (ok_detectTone _ _ _) .launched))
  · exact completes_fail .arg .launched

theorem completes_execDemod : Completes s (execDemod s) := by
  refine completes_withSin _ _ fun _ => ?_
  dsimp only
  split
  · exact completes_fail _ .launched
  · next d hd =>
    have warned : Results s (warn d.warning s) := .warned (legalWarn_demodulated hd) .launched
    exact completes_commitBytes _ warned (.registers warned)

theorem completes_execEncode : Completes s (execEncode s) := by
  unfold execEncode
  dsimp only
  split
  · exact completes_fail .name .launched
  split
  · exact completes_fail .cap .launched
  split
  · exact completes_fail .len .launched
  split
  · exact completes_fail .cap .launched
  refine completes_withBin _ _ fun _ => completes_withName _ _ fun _ => ?_
  split
  · exact completes_fail _ .launched
  · next hout => exact completes_commitSamples _ (ok_encodeFile hout) .launched (.registers .launched)

theorem completes_execDecode : Completes s (execDecode s) := by
  refine completes_withSin _ _ fun x => ?_
  have warned : Results s (warn (decodeAudio s.arithmetic s.params.syncThreshold x).warnings s) :=
    .warned (legalWarn_decodeAudio _ _ x) .launched
  dsimp only
  split
  · exact completes_fail _ warned
  · next hp => exact completes_commitBytes _ warned (.registers (.name (decodeAudio_name_le hp) warned))

/-- Every command that answers a next state has completed (R36, R165, R171). -/
theorem completes_exec (i : Instr) : Completes s (exec i s) := by
  cases i with
  | gfmul => exact completes_execGfmul s
  | gfdiv => exact completes_execGfdiv s
  | gfpmul => exact completes_execGfpmul s
  | rsenc1 => exact completes_execRsenc1 s
  | rsdec1 => exact completes_execRsdec1 s
  | rsenc => exact completes_execRsenc s
  | rsdec => exact completes_execRsdec s
  | crc32 => exact completes_execCrc32 s
  | frame => exact completes_execFrame s
  | parse => exact completes_execParse s
  | tone => exact completes_execTone s
  | preamb => exact completes_execPreamb s
  | mod => exact completes_execMod s
  | goertz => exact completes_execGoertz s
  | syncfind => exact completes_execSyncfind s
  | detect => exact completes_execDetect s
  | demod => exact completes_execDemod s
  | encode => exact completes_execEncode s
  | decode => exact completes_execDecode s

end commands

/-! ## One step -/

/-- Idle, the block does nothing (R12). -/
theorem runBlock_idle {s : State} (h : s.busy = false) : runBlock s = .next s := by
  simp [runBlock, h]

/-- Busy with the word of a command, the block runs it (R13, R199). -/
theorem runBlock_busy {s : State} {i : Instr} (h : s.busy = true) (hi : decode s.cmd = .ok i) :
    runBlock s = exec i s := by
  simp [runBlock, h, hi]

/-- The block's move leaves the state as it is, or completes a command. -/
theorem runBlock_next {s t : State} (h : runBlock s = .next t) : t = s ∨ Completion s t := by
  unfold runBlock at h
  split at h
  · split at h
    · exact .inr (completes_exec s _ t h)
    · exact .inr (completes_fail .illegal .launched t h)
  · cases h; exact .inl rfl

theorem step_of_nil {s : State} (h : s.inbox = []) : step s = runBlock s := by
  rw [step, h]

theorem step_of_wait {s : State} {rest : List HostEvent} (h : s.inbox = .wait :: rest) :
    step s = runBlock { s with inbox := rest } := by
  rw [step, h]

theorem step_of_event {s : State} {e : HostEvent} {rest : List HostEvent} (h : s.inbox = e :: rest)
    (he : e ≠ .wait) : step s = hostAct e { s with inbox := rest } := by
  rw [step, h]
  cases e with
  | wait => exact absurd rfl he
  | _ => rfl

/-! ## The moves of the host -/

/-- The states an action of the host can make of `s`: a read (R11, R31, R37), a write of the arguments, a launch while idle
(R13), a write of a buffer within its capacity (R16, R30), the reset input (R190), or nothing. A copy out of an output buffer
of a busy block uses up free values as well. -/
inductive HostMove (s : State) : State → Prop
  | read (d : HostData) (n : Nat) : HostMove s { s with hostData := d, free := n }
  | args (a0 a1 a2 a3 : Word) :
      ¬ s.busy = true → HostMove s { s with arg0 := a0, arg1 := a1, arg2 := a2, arg3 := a3 }
  | launch (w : Word) : ¬ s.busy = true → HostMove s (launch w s)
  | bin {off : Nat} {bs : List Byte} (n : Nat) :
      ¬ s.busy = true → off + bs.length ≤ s.params.binCap →
      HostMove s { s with bin := writeRun s.bin off bs, free := n }
  | bout {off : Nat} {bs : List Byte} (n : Nat) :
      off + bs.length ≤ s.params.boutCap → HostMove s { s with bout := writeRun s.bout off bs, free := n }
  | namebuf {off : Nat} {bs : List Byte} (n : Nat) :
      ¬ s.busy = true → off + bs.length ≤ nameCap →
      HostMove s { s with namebuf := writeRun s.namebuf off bs, free := n }
  | sin {off : Nat} {xs : List Sample} :
      ¬ s.busy = true → off + xs.length ≤ s.params.sinCap →
      HostMove s { s with sin := writeRun s.sin off (xs.map RealSum.normalise) }
  | reset : HostMove s (resetBlock s)

section moves

variable {s t : State}

/-- Nothing is a read that returns what the last one did. -/
theorem HostMove.same : HostMove s s := .read s.hostData s.free

theorem hostReadReg_move {off : Nat} (h : hostReadReg off s = .next t) : HostMove s t := by
  unfold hostReadReg at h
  split at h
  · cases h
  split at h
  · cases h; exact .read _ _
  · cases h; exact .read _ s.free

theorem hostWriteReg_move {off : Nat} {v : Word} (h : hostWriteReg off v s = .next t) : HostMove s t := by
  unfold hostWriteReg at h
  split at h
  · cases h
  · split at h
    · cases h; exact .same
    · cases h; exact .launch v ‹_›
  · split at h
    · cases h
    · cases h; exact .args v _ _ _ ‹_›
  · split at h
    · cases h
    · cases h; exact .args _ v _ _ ‹_›
  · split at h
    · cases h
    · cases h; exact .args _ _ v _ ‹_›
  · split at h
    · cases h
    · cases h; exact .args _ _ _ v ‹_›
  all_goals cases h; exact .same

/-- A write of bytes, also with free values used up before it. -/
theorem hostWriteBytes_move {sp : ByteSpace} {off n : Nat} {bs : List Byte}
    (h : hostWriteBytes sp off bs { s with free := n } = .next t) : HostMove s t := by
  unfold hostWriteBytes at h
  split at h
  · cases h
  next hcap =>
  have fits : off + bs.length ≤ byteCap s sp := Nat.le_of_not_lt hcap
  cases sp with
  | bin =>
    dsimp only at h
    split at h
    · cases h
    · cases h; exact .bin n ‹_› fits
  | namebuf =>
    dsimp only at h
    split at h
    · cases h
    · cases h; exact .namebuf n ‹_› fits
  | bout => cases h; exact .bout n fits

theorem hostWriteSamples_move {sp : SampleSpace} {off : Nat} {xs : List Sample}
    (h : hostWriteSamples sp off xs s = .next t) : HostMove s t := by
  cases sp with
  | sout => cases h
  | sin =>
    unfold hostWriteSamples at h
    dsimp only at h
    split at h
    · cases h
    next hcap =>
    split at h
    · cases h
    · cases h; exact .sin ‹_› (Nat.le_of_not_lt hcap)

theorem hostReadByte_move {sp : ByteSpace} {off : Nat} (h : hostReadByte sp off s = .next t) : HostMove s t := by
  unfold hostReadByte at h
  split at h
  · cases h
  split at h
  · cases h; exact .read _ _
  split at h
  · cases h
  · cases h; exact .read _ s.free

theorem hostReadSample_move {sp : SampleSpace} {off : Nat} (h : hostReadSample sp off s = .next t) : HostMove s t := by
  unfold hostReadSample at h
  split at h
  · cases h
  split at h
  · cases h; exact .read _ _
  split at h
  · cases h
  · cases h; exact .read _ s.free

theorem hostCopyBytes_move {dst src : ByteSpace} {off a b : Nat} (h : hostCopyBytes dst off src a b s = .next t) :
    HostMove s t := by
  unfold hostCopyBytes at h
  split at h
  · cases h
  split at h
  · exact hostWriteBytes_move h
  split at h
  · cases h
  · exact hostWriteBytes_move (n := s.free) h

theorem hostCopySamples_move {dst src : SampleSpace} {off a b : Nat}
    (h : hostCopySamples dst off src a b s = .next t) : HostMove s t := by
  unfold hostCopySamples at h
  split at h
  · cases h
  split at h
  · cases h
  · exact hostWriteSamples_move h

/-- All that an action of the host can do. -/
theorem hostAct_move {e : HostEvent} (h : hostAct e s = .next t) : HostMove s t := by
  cases e with
  | writeReg off v => exact hostWriteReg_move h
  | readReg off => exact hostReadReg_move h
  | writeBytes sp off bs => exact hostWriteBytes_move (n := s.free) h
  | writeSamples sp off xs => exact hostWriteSamples_move h
  | readByte sp off => exact hostReadByte_move h
  | readSample sp off => exact hostReadSample_move h
  | copyBytes dst off src a b => exact hostCopyBytes_move h
  | copySamples dst off src a b => exact hostCopySamples_move h
  | wait => cases h; exact .same
  | resetInput => cases h; exact .reset

/-- All that a step can do, after it has taken the head of the inbox: nothing, a completion, or a move of the host. -/
theorem step_next (h : step s = .next t) :
    ∃ rest, t = { s with inbox := rest } ∨ Completion { s with inbox := rest } t ∨ HostMove { s with inbox := rest } t := by
  cases hin : s.inbox with
  | nil =>
    rw [step_of_nil hin] at h
    exact ⟨s.inbox, (runBlock_next h).imp_right .inl⟩
  | cons e rest =>
    refine ⟨rest, ?_⟩
    by_cases he : e = .wait
    · subst he
      rw [step_of_wait hin] at h
      exact (runBlock_next h).imp_right .inl
    · rw [step_of_event hin he] at h
      exact .inr (.inr (hostAct_move h))

/-! ## The invariant -/

/-- The part of `StateOk` about the buffers, `MAG`, `WARN` and the parameters, one field per buffer. -/
structure DataOk (s : State) : Prop where
  bin : bufferOk s.params.binCap s.bin = true
  bout : bufferOk s.params.boutCap s.bout = true
  namebuf : bufferOk nameCap s.namebuf = true
  sin : bufferOk s.params.sinCap s.sin = true
  sout : bufferOk s.params.soutCap s.sout = true
  sinForm : samplesOk s.sin
  soutForm : samplesOk s.sout
  mag : Sample.ok s.mag.square = true
  warn : legalWarn s.params.numerics s.warn
  params : s.params.ok = true

/-- The part of `StateOk` about `STATUS` and `CMD`. -/
structure ControlOk (s : State) : Prop where
  status : legalStatus s.status
  command : s.busy = true → ∃ i, decode s.cmd = .ok i

/-- The invariant is its two parts. -/
theorem stateOk_iff (s : State) : StateOk s ↔ DataOk s ∧ ControlOk s := by
  simp only [StateOk, Memory.wf, Bool.and_eq_true]
  constructor
  · rintro ⟨⟨⟨⟨⟨bin, bout⟩, namebuf⟩, sin⟩, sout⟩, sinForm, soutForm, mag, status, warn, params, command⟩
    exact ⟨⟨bin, bout, namebuf, sin, sout, sinForm, soutForm, mag, warn, params⟩, ⟨status, command⟩⟩
  · rintro ⟨d, c⟩
    exact ⟨⟨⟨⟨⟨d.bin, d.bout⟩, d.namebuf⟩, d.sin⟩, d.sout⟩, d.sinForm, d.soutForm, d.mag, c.status, d.warn, d.params,
      c.command⟩

/-- A completed command leaves the block idle with a legal `STATUS`. -/
theorem controlOk_of_completed {c : Byte} (h : s.status = statusCompleted c) (hc : c.toNat ≤ 0x0B) : ControlOk s where
  status := h ▸ legalStatus_statusCompleted hc
  command hb := absurd hb (by rw [State.busy, h, statusCompleted_busy]; decide)

/-- The reset value of `STATUS` is legal, and idle. -/
theorem controlOk_of_zero (h : s.status = 0) : ControlOk s where
  status := .inl h
  command hb := absurd hb (by rw [State.busy, h]; decide)

/-- A write from offset 0 within the capacity keeps the canonical form. -/
theorem bufferOk_writeRun_zero {α : Type} {cap : Nat} {m : List (Nat × α)} {xs : List α} (hm : bufferOk cap m = true)
    (h : xs.length ≤ cap) : bufferOk cap (writeRun m 0 xs) = true :=
  bufferOk_writeRun cap m 0 xs hm (by omega)

/-- A write of samples in buffer form keeps a buffer of samples in buffer form. -/
theorem samplesOk_writeRun {m : List (Nat × Sample)} {off : Nat} {xs : List Sample} (hm : samplesOk m)
    (hx : ∀ x ∈ xs, Sample.ok x = true) : samplesOk (writeRun m off xs) := by
  intro c hc
  rcases mem_writeRun m off xs c hc with hc | ⟨-, -, hc⟩
  · exact hm c hc
  · exact hx _ hc

/-- The writes of a command keep the data in order. -/
theorem Results.dataOk (h : Results s t) (hs : DataOk s) : DataOk t := by
  induction h with
  | launched => exact hs
  | @warned u b hb hu ih => exact { ih with warn := legalWarn_or ih.warn (hu.params ▸ hb) }
  | registers _ ih => exact { ih with }
  | magnitude hm _ ih => exact { ih with mag := hm }
  | name hlen _ ih => exact { ih with namebuf := bufferOk_writeRun_zero ih.namebuf hlen }
  | bytes hlen hu ih => exact { ih with bout := bufferOk_writeRun_zero ih.bout (hu.params ▸ hlen) }
  | samples hlen hx hu ih =>
    exact { ih with
      sout := bufferOk_writeRun_zero ih.sout (hu.params ▸ hlen)
      soutForm := samplesOk_writeRun ih.soutForm hx }

theorem Completion.stateOk (h : Completion s t) (hs : StateOk s) : StateOk t := by
  obtain ⟨u, c, hu, hc, rfl⟩ := h
  obtain ⟨hdata, -⟩ := (stateOk_iff s).mp hs
  exact (stateOk_iff _).mpr ⟨{ hu.dataOk hdata with }, controlOk_of_completed rfl hc⟩

theorem Completion.params (h : Completion s t) : t.params = s.params := by
  obtain ⟨u, c, hu, -, rfl⟩ := h
  exact hu.params

/-- A launch leaves `STATUS` legal, and the block busy only with the word of a command (R53). -/
theorem controlOk_launch (w : Word) (s : State) : ControlOk (launch w s) := by
  cases hd : decode w with
  | ok i =>
    rw [launch_of_decode s hd]
    exact ⟨.inr (.inl rfl), fun _ => ⟨i, hd⟩⟩
  | error e =>
    rw [launch_of_illegal s hd]
    exact controlOk_of_completed rfl (errCode_le .illegal)

theorem dataOk_launch (w : Word) (hs : DataOk s) : DataOk (launch w s) := by
  cases hd : decode w with
  | ok i => rw [launch_of_decode s hd]; exact { hs with warn := legalWarn_zero _ }
  | error e => rw [launch_of_illegal s hd]; exact { hs with warn := legalWarn_zero _ }

/-- A reset leaves the block idle, and the buffers of an abandoned command as they were (R190). -/
theorem stateOk_resetBlock (hs : DataOk s) : StateOk (resetBlock s) := by
  refine (stateOk_iff _).mpr ?_
  unfold resetBlock
  dsimp only
  split
  · exact ⟨{ hs with mag := sample_ok_nil, warn := legalWarn_zero _ }, controlOk_of_zero rfl⟩
  · have empty : samplesOk [] := by simp [samplesOk]
    exact ⟨⟨rfl, rfl, rfl, rfl, rfl, empty, empty, sample_ok_nil, legalWarn_zero _, hs.params⟩, controlOk_of_zero rfl⟩

theorem HostMove.stateOk (h : HostMove s t) (hs : StateOk s) : StateOk t := by
  obtain ⟨data, control⟩ := (stateOk_iff s).mp hs
  cases h with
  | read d n => exact hs
  | args a0 a1 a2 a3 _ => exact hs
  | launch w _ => exact (stateOk_iff _).mpr ⟨dataOk_launch w data, controlOk_launch w s⟩
  | bin n _ fits =>
    exact (stateOk_iff _).mpr ⟨{ data with bin := bufferOk_writeRun _ _ _ _ data.bin fits }, { control with }⟩
  | bout n fits =>
    exact (stateOk_iff _).mpr ⟨{ data with bout := bufferOk_writeRun _ _ _ _ data.bout fits }, { control with }⟩
  | namebuf n _ fits =>
    exact (stateOk_iff _).mpr ⟨{ data with namebuf := bufferOk_writeRun _ _ _ _ data.namebuf fits }, { control with }⟩
  | @sin off xs _ fits =>
    have form : ∀ x ∈ xs.map RealSum.normalise, Sample.ok x = true := by
      intro x hx
      obtain ⟨y, -, rfl⟩ := List.mem_map.mp hx
      exact sample_ok_normalise y
    exact (stateOk_iff _).mpr
      ⟨{ data with
          sin := bufferOk_writeRun _ _ _ _ data.sin (by simpa using fits)
          sinForm := samplesOk_writeRun data.sinForm form }, { control with }⟩
  | reset => exact stateOk_resetBlock data

theorem HostMove.params (h : HostMove s t) : t.params = s.params := by
  cases h with
  | launch w _ => exact launch_params w s
  | reset => unfold resetBlock; dsimp only; split <;> rfl
  | read | args | bin | bout | namebuf | sin => rfl

end moves

end Sys2Proof.Machine

/-!
PROOFS. The decoder's inverse (spec/30_encoding.md R50, R51) and the registers and buffers as the host sees them
(spec/10_state.md R11, R13, R16; spec/20_memory.md R30, R37), one lemma per operation of Machine/HostPort.lean.
-/

namespace Sys2Proof.Machine

/-! ## Command words -/

/-- Every row of the opcode table names the opcode of its command (R52). -/
theorem opcodeTable_row : ∀ p ∈ opcodeTable, p.1 = opcodeOf p.2 := by decide

/-- An opcode that names a command is the command's own (R52). -/
theorem opcodeOf_of_commandOf {op : Byte} {i : Instr} (h : commandOf op = some i) : op = opcodeOf i := by
  obtain ⟨before, after, htable, -⟩ := List.lookup_eq_some_iff.mp h
  exact opcodeTable_row (op, i) (by rw [htable]; simp)

/-- A word with a zero field of 0 is its opcode (R50). -/
theorem setWidth_opcode_of_zeroFieldOk {w : Word} (h : zeroFieldOk w = true) : (w.setWidth 8).setWidth 32 = w := by
  have hzero : w >>> 8 = 0#32 := by simpa [zeroFieldOk] using h
  have hnat := congrArg BitVec.toNat hzero
  simp only [BitVec.toNat_ushiftRight, Nat.shiftRight_eq_div_pow, BitVec.toNat_ofNat] at hnat
  apply BitVec.eq_of_toNat_eq
  simp only [BitVec.toNat_setWidth]
  have := w.isLt
  omega

theorem decode_encode (i : Instr) : decode (encode i) = .ok i := by cases i <;> rfl

/-- Only the word of a command decodes to it (R51). -/
theorem eq_encode_of_decode {w : Word} {i : Instr} (h : decode w = .ok i) : w = encode i := by
  unfold decode at h
  split at h
  · next hzero =>
    split at h
    · next j hj =>
      cases h
      rw [encode, ← opcodeOf_of_commandOf hj, setWidth_opcode_of_zeroFieldOk hzero]
    · cases h
  · cases h

/-- A word that is no command's word is illegal (R53). -/
theorem exists_decode_error {w : Word} (h : ∀ i : Instr, w ≠ encode i) : ∃ e, decode w = .error e := by
  cases hd : decode w with
  | ok i => exact absurd (eq_encode_of_decode hd) (h i)
  | error e => exact ⟨e, rfl⟩

/-! ## Registers by offset (R11) -/

theorem regAt_reserved {off : Nat} (h : 0x34 ≤ off ∧ off ≤ 0xFF) : regAt off = some .reserved := by
  have hne : ∀ k, k < 0x34 → off ≠ k := fun k hk => by omega
  simp [regAt, hne, h]

section registers

variable {s : State} {off : Nat} {r : RegName}

theorem hostReadReg_idle (hidle : s.busy = false) (hr : regAt off = some r) :
    hostReadReg off s = .next { s with hostData := regValue s r } := by
  simp [hostReadReg, hr, hidle]

theorem hostReadReg_busy_kept (hr : regAt off = some r) (hopen : regOpenWhileBusy r = false) :
    hostReadReg off s = .next { s with hostData := regValue s r } := by
  simp [hostReadReg, hr, hopen]

theorem hostReadReg_busy_free (hbusy : s.busy = true) (hr : regAt off = some r) (hopen : regOpenWhileBusy r = true) :
    hostReadReg off s = .next { s with hostData := regFree s.free r, free := s.free + 1 } := by
  simp [hostReadReg, hr, hbusy, hopen]

/-- The registers a host write leaves alone at any time (R11; busy: log entry 21). -/
def ignoresWrites : RegName → Bool
  | .status | .warn | .res0 | .res1 | .res2 | .res3 | .mag | .reserved => true
  | .cmd | .arg0 | .arg1 | .arg2 | .arg3 => false

theorem hostWriteReg_ignored (v : Word) (hr : regAt off = some r) (hro : ignoresWrites r = true) :
    hostWriteReg off v s = .next s := by
  unfold hostWriteReg
  rw [hr]
  cases r with
  | cmd | arg0 | arg1 | arg2 | arg3 => cases hro
  | _ => rfl

theorem hostWriteReg_cmd_idle (w : Word) (hidle : s.busy = false) : hostWriteReg 0x00 w s = .next (launch w s) := by
  simp [hostWriteReg, regAt, hidle]

theorem hostWriteReg_cmd_busy (w : Word) (hbusy : s.busy = true) : hostWriteReg 0x00 w s = .next s := by
  simp [hostWriteReg, regAt, hbusy]

theorem hostWriteReg_arg_idle (v : Word) (hidle : s.busy = false) :
    hostWriteReg 0x10 v s = .next { s with arg0 := v } ∧ hostWriteReg 0x14 v s = .next { s with arg1 := v } ∧
    hostWriteReg 0x18 v s = .next { s with arg2 := v } ∧ hostWriteReg 0x1C v s = .next { s with arg3 := v } := by
  simp [hostWriteReg, regAt, hidle]

theorem hostWriteReg_arg_busy (v : Word) (hbusy : s.busy = true) (hoff : off ∈ [0x10, 0x14, 0x18, 0x1C]) :
    hostWriteReg off v s = .refused .hostWriteWhileBusy := by
  simp only [List.mem_cons, List.not_mem_nil, or_false] at hoff
  rcases hoff with rfl | rfl | rfl | rfl <;> simp [hostWriteReg, regAt, hbusy]

end registers

/-! ## Buffers (R16, R30, R37) -/

section buffers

variable {s : State} {off : Nat}

theorem hostWriteBytes_bin_idle {bs : List Byte} (hidle : s.busy = false) (hfit : off + bs.length ≤ s.params.binCap) :
    hostWriteBytes .bin off bs s = .next { s with bin := writeRun s.bin off bs } := by
  simp [hostWriteBytes, byteCap, hidle, hfit]

theorem hostWriteBytes_namebuf_idle {bs : List Byte} (hidle : s.busy = false) (hfit : off + bs.length ≤ nameCap) :
    hostWriteBytes .namebuf off bs s = .next { s with namebuf := writeRun s.namebuf off bs } := by
  simp [hostWriteBytes, byteCap, hidle, hfit]

theorem hostWriteBytes_bout {bs : List Byte} (hfit : off + bs.length ≤ s.params.boutCap) :
    hostWriteBytes .bout off bs s = .next { s with bout := writeRun s.bout off bs } := by
  simp [hostWriteBytes, byteCap, Nat.not_lt.mpr hfit]

theorem hostWriteBytes_busy {sp : ByteSpace} {bs : List Byte} (hsp : sp ≠ .bout) (hbusy : s.busy = true)
    (hfit : off + bs.length ≤ byteCap s sp) : hostWriteBytes sp off bs s = .refused .hostWriteWhileBusy := by
  unfold hostWriteBytes
  rw [if_neg (Nat.not_lt.mpr hfit)]
  cases sp with
  | bin | namebuf => simp [hbusy]
  | bout => exact absurd rfl hsp

theorem hostWriteSamples_sin_idle {xs : List Sample} (hidle : s.busy = false)
    (hfit : off + xs.length ≤ s.params.sinCap) :
    hostWriteSamples .sin off xs s = .next { s with sin := writeRun s.sin off (xs.map RealSum.normalise) } := by
  simp [hostWriteSamples, hidle, hfit]

theorem hostWriteSamples_sin_busy {xs : List Sample} (hbusy : s.busy = true)
    (hfit : off + xs.length ≤ s.params.sinCap) :
    hostWriteSamples .sin off xs s = .refused .hostWriteWhileBusy := by
  simp [hostWriteSamples, hbusy, hfit]

/-- An element outside the written run reads as before. -/
theorem readElem_writeRun_outside {α : Type} {m : List (Nat × α)} {xs : List α} {a : Nat}
    (h : ¬ (off ≤ a ∧ a < off + xs.length)) : readElem (writeRun m off xs) a = readElem m a := by
  rw [readElem_writeRun, if_neg h]

/-- An element of the written run reads as written. -/
theorem readElem_writeRun_at {α : Type} {m : List (Nat × α)} {xs : List α} {i : Nat} {x : α} (h : xs[i]? = some x) :
    readElem (writeRun m off xs) (off + i) = some x := by
  have hi : i < xs.length := (List.getElem?_eq_some_iff.mp h).1
  rw [readElem_writeRun, if_pos ⟨by omega, by omega⟩, Nat.add_sub_cancel_left, h]

/-- A sample the host wrote reads in buffer form, as the same real number (log entry 18). -/
theorem readElem_writeRun_normalised {m : List (Nat × Sample)} {xs : List Sample} {i : Nat} {x : Sample}
    (h : xs[i]? = some x) :
    ∃ y, readElem (writeRun m off (xs.map RealSum.normalise)) (off + i) = some y ∧ realOf y = realOf x ∧
      Sample.ok y = true :=
  ⟨RealSum.normalise x, readElem_writeRun_at (by rw [List.getElem?_map, h]; rfl), realOf_normalise x,
    sample_ok_normalise x⟩

theorem hostReadByte_idle {sp : ByteSpace} {b : Byte} (hidle : s.busy = false) (hcap : off < byteCap s sp)
    (h : readElem (byteCells s sp) off = some b) : hostReadByte sp off s = .next { s with hostData := .byte b } := by
  simp [hostReadByte, hidle, hcap, h]

theorem hostReadByte_idle_unwritten {sp : ByteSpace} (hidle : s.busy = false) (hcap : off < byteCap s sp)
    (h : readElem (byteCells s sp) off = none) :
    hostReadByte sp off s = .fault (.unwrittenElement (ByteSpace.space sp)) := by
  simp [hostReadByte, hidle, hcap, h]

theorem hostReadSample_idle {sp : SampleSpace} {x : Sample} (hidle : s.busy = false) (hcap : off < sampleCap s sp)
    (h : readElem (sampleCells s sp) off = some x) :
    hostReadSample sp off s = .next { s with hostData := .sample x } := by
  simp [hostReadSample, hidle, hcap, h]

theorem hostReadSample_idle_unwritten {sp : SampleSpace} (hidle : s.busy = false) (hcap : off < sampleCap s sp)
    (h : readElem (sampleCells s sp) off = none) :
    hostReadSample sp off s = .fault (.unwrittenElement (SampleSpace.space sp)) := by
  simp [hostReadSample, hidle, hcap, h]

/-- A copy of R62 out of an idle block's byte buffer is the write of the bytes read. -/
theorem hostCopyBytes_idle {dst src : ByteSpace} {a n : Nat} {bs : List Byte} (hidle : s.busy = false)
    (hcap : a + n ≤ byteCap s src) (h : readRun (byteCells s src) a n = some bs) :
    hostCopyBytes dst off src a (a + n) s = hostWriteBytes dst off bs s := by
  simp [hostCopyBytes, hidle, h, Nat.not_lt.mpr hcap]

/-- A copy of R62 between sample buffers is the write of the samples read. -/
theorem hostCopySamples_read {dst src : SampleSpace} {a n : Nat} {xs : List Sample}
    (hcap : a + n ≤ sampleCap s src) (h : readRun (sampleCells s src) a n = some xs) :
    hostCopySamples dst off src a (a + n) s = hostWriteSamples dst off xs s := by
  simp [hostCopySamples, h, Nat.not_lt.mpr hcap]

end buffers

end Sys2Proof.Machine

/-!
PROOFS. The obligations of the state and of the host's side, from the laws above.
-/

namespace Sys2Proof.Machine

/-! ## Steps of the block -/

/-- Settles O3. -/
theorem stepRunsTheCommandInCmd : Obligations.StepRunsTheCommandInCmd := by
  refine ⟨fun s i hbusy hi => ⟨fun hin => ?_, fun rest hin => ?_⟩, fun s hidle hin => ?_, fun s i => ?_⟩
  · rw [step_of_nil hin, runBlock_busy hbusy hi]
  · exact (step_of_wait hin).trans (runBlock_busy hbusy hi)
  · rw [step_of_nil hin, runBlock_idle hidle]
  · have hword : BitVec.ofNat 32 ((encode i).toNat % 2 ^ 32) = encode i := by
      rw [Nat.mod_eq_of_lt (encode i).isLt, BitVec.ofNat_toNat, BitVec.setWidth_eq]
    calc step (s.withFetchWord 32 (encode i).toNat)
        = step { beginCommand (encode i) s with inbox := .wait :: s.inbox } := by
          rw [State.withFetchWord, hword, launch_encode]
      _ = runBlock (beginCommand (encode i) s) := step_of_wait rfl
      _ = exec i (beginCommand (encode i) s) := runBlock_busy (beginCommand_busy _ s) (decode_encode i)

/-- Settles O4: the launch of an illegal word is its completion (R53). -/
theorem illegalWordCompletesAtOnce : Obligations.IllegalWordCompletesAtOnce := by
  intro s w rest hidle hw hin
  obtain ⟨e, he⟩ := exists_decode_error hw
  refine ⟨_, rfl, ?_, statusCompleted_busy 0x01, statusCompleted_done 0x01, statusCompleted_err 0x01⟩
  have hlaunch := (hostWriteReg_cmd_idle (s := { s with inbox := rest }) w hidle).trans
    (congrArg Host.Outcome.next (launch_of_illegal _ he))
  exact (step_of_event hin (by simp)).trans hlaunch

/-- Settles O5. -/
theorem cmdWriteLaunchesOnlyWhenIdle : Obligations.CmdWriteLaunchesOnlyWhenIdle := by
  intro s w rest hin
  rw [step_of_event hin (by simp), hostAct]
  refine ⟨fun hidle i hw => ?_, fun hbusy => hostWriteReg_cmd_busy w hbusy⟩
  subst hw
  exact (hostWriteReg_cmd_idle (s := { s with inbox := rest }) (encode i) hidle).trans
    (congrArg Host.Outcome.next (launch_encode i _))

/-- Settles O9: a completion writes `STATUS` last, with a code of R166. -/
theorem answeredCommandHasALegalStatus : Obligations.AnsweredCommandHasALegalStatus := by
  intro i s t h
  obtain ⟨u, c, -, hc, rfl⟩ := completes_exec s i t h
  exact ⟨⟨c, hc, rfl, statusCompleted_err c⟩, statusCompleted_busy c, statusCompleted_done c⟩

/-- Settles O8: by cases on what a step can do (`step_next`). -/
theorem everyStepKeepsStateOk : Obligations.EveryStepKeepsStateOk := by
  refine ⟨fun s t hs h => ?_, fun s t h => ?_⟩
  · obtain ⟨rest, rfl | hc | hm⟩ := step_next h
    · exact hs
    · exact hc.stateOk hs
    · exact hm.stateOk hs
  · obtain ⟨rest, rfl | hc | hm⟩ := step_next h
    · rfl
    · exact hc.params
    · exact hm.params

/-! ## The generator -/

/-- Each of the 32 powers is evaluated by itself, so that no evaluation is long (V5). -/
theorem polyEval_genTable_of_le {i : Nat} (h : i ≤ 31) : polyEval genTable (expAt i) = 0 := by
  rw [genTable_eq]
  interval_cases i <;> decide +kernel

/-- Settles O18: `GEN` is the list `genTable_eq` writes out. -/
theorem generatorHasThe32Roots : Obligations.GeneratorHasThe32Roots := by
  refine ⟨?_, ?_, ?_, by decide +kernel, fun i hi => polyEval_genTable_of_le hi⟩ <;> rw [genTable_eq] <;> rfl

/-! ## The host's side -/

/-- Settles O57. -/
theorem hostReadsRegistersByOffset : Obligations.HostReadsRegistersByOffset := by
  refine ⟨fun s off rest v hidle hin hv => ?_, fun s off rest hbusy hin => ⟨fun hoff => ?_, fun hoff => ?_⟩⟩
  · have hmap : ∃ r, regAt off = some r ∧ regValue s r = v := by
      rcases hv with hv | ⟨hlo, hhi, rfl⟩
      · simp only [List.mem_cons, List.not_mem_nil, or_false, Prod.mk.injEq] at hv
        rcases hv with ⟨rfl, rfl⟩ | ⟨rfl, rfl⟩ | ⟨rfl, rfl⟩ | ⟨rfl, rfl⟩ | ⟨rfl, rfl⟩ | ⟨rfl, rfl⟩ | ⟨rfl, rfl⟩ |
          ⟨rfl, rfl⟩ | ⟨rfl, rfl⟩ | ⟨rfl, rfl⟩ | ⟨rfl, rfl⟩ | ⟨rfl, rfl⟩ | ⟨rfl, rfl⟩ <;> exact ⟨_, rfl, rfl⟩
      · exact ⟨.reserved, regAt_reserved ⟨hlo, hhi⟩, rfl⟩
    obtain ⟨r, hr, rfl⟩ := hmap
    exact (step_of_event hin (by simp)).trans (hostReadReg_idle hidle hr)
  · have hmap : ∃ r, regAt off = some r ∧ regOpenWhileBusy r = true := by
      simp only [List.mem_cons, List.not_mem_nil, or_false] at hoff
      rcases hoff with rfl | rfl | rfl | rfl | rfl | rfl <;> exact ⟨_, rfl, rfl⟩
    obtain ⟨r, hr, hopen⟩ := hmap
    exact ⟨_, (step_of_event hin (by simp)).trans (hostReadReg_busy_free hbusy hr hopen)⟩
  · subst hoff
    exact (step_of_event hin (by simp)).trans (hostReadReg_busy_kept (off := 0x04) (r := .status) rfl rfl)

/-- Settles O58. -/
theorem hostWritesRegistersByOffset : Obligations.HostWritesRegistersByOffset := by
  intro s off v rest hin
  rw [step_of_event hin (by simp), hostAct]
  refine ⟨fun hidle => ?_, fun hbusy hoff => hostWriteReg_arg_busy v hbusy hoff, fun hoff => ?_⟩
  · obtain ⟨harg0, harg1, harg2, harg3⟩ := hostWriteReg_arg_idle (s := { s with inbox := rest }) v hidle
    exact ⟨fun hoff => hoff ▸ harg0, fun hoff => hoff ▸ harg1, fun hoff => hoff ▸ harg2, fun hoff => hoff ▸ harg3⟩
  · have hmap : ∃ r, regAt off = some r ∧ ignoresWrites r = true := by
      rcases hoff with hoff | hoff
      · simp only [List.mem_cons, List.not_mem_nil, or_false] at hoff
        rcases hoff with rfl | rfl | rfl | rfl | rfl | rfl | rfl | rfl <;> exact ⟨_, rfl, rfl⟩
      · exact ⟨.reserved, regAt_reserved hoff, rfl⟩
    obtain ⟨r, hr, hro⟩ := hmap
    exact hostWriteReg_ignored v hr hro

section hostBuffers

variable {s : State} {rest : List HostEvent} {off : Nat}

/-- The host's write of `BIN` (R30, R37). -/
theorem step_writeBytes_bin {bs : List Byte} (hin : s.inbox = .writeBytes .bin off bs :: rest)
    (hfit : off + bs.length ≤ s.params.binCap) :
    (s.busy = true → step s = .refused .hostWriteWhileBusy) ∧
    (s.busy = false → ∃ m, step s = .next { s with inbox := rest, bin := m } ∧
      ∀ a, readElem m a = if off ≤ a ∧ a < off + bs.length then bs[a - off]? else readElem s.bin a) := by
  have hstep := step_of_event hin (by simp)
  exact ⟨fun hbusy => hstep.trans (hostWriteBytes_busy (by simp) hbusy hfit),
    fun hidle => ⟨_, hstep.trans (hostWriteBytes_bin_idle hidle hfit), readElem_writeRun s.bin off bs⟩⟩

/-- The host's write of `NAMEBUF` (R30, R37). -/
theorem step_writeBytes_namebuf {bs : List Byte} (hin : s.inbox = .writeBytes .namebuf off bs :: rest)
    (hfit : off + bs.length ≤ nameCap) :
    (s.busy = true → step s = .refused .hostWriteWhileBusy) ∧
    (s.busy = false → ∃ m, step s = .next { s with inbox := rest, namebuf := m } ∧
      ∀ a, readElem m a = if off ≤ a ∧ a < off + bs.length then bs[a - off]? else readElem s.namebuf a) := by
  have hstep := step_of_event hin (by simp)
  exact ⟨fun hbusy => hstep.trans (hostWriteBytes_busy (by simp) hbusy hfit),
    fun hidle => ⟨_, hstep.trans (hostWriteBytes_namebuf_idle hidle hfit), readElem_writeRun s.namebuf off bs⟩⟩

/-- The host's write of `BOUT`, at any time (R16). -/
theorem step_writeBytes_bout {bs : List Byte} (hin : s.inbox = .writeBytes .bout off bs :: rest)
    (hfit : off + bs.length ≤ s.params.boutCap) :
    ∃ m, step s = .next { s with inbox := rest, bout := m } ∧
      ∀ a, readElem m a = if off ≤ a ∧ a < off + bs.length then bs[a - off]? else readElem s.bout a :=
  ⟨_, (step_of_event hin (by simp)).trans (hostWriteBytes_bout hfit), readElem_writeRun s.bout off bs⟩

/-- The host's write of `SIN` (R30, R37; log entry 18). -/
theorem step_writeSamples_sin {xs : List Sample} (hin : s.inbox = .writeSamples .sin off xs :: rest)
    (hfit : off + xs.length ≤ s.params.sinCap) :
    (s.busy = true → step s = .refused .hostWriteWhileBusy) ∧
    (s.busy = false → ∃ m, step s = .next { s with inbox := rest, sin := m } ∧
      (∀ a, ¬ (off ≤ a ∧ a < off + xs.length) → readElem m a = readElem s.sin a) ∧
      ∀ i x, xs[i]? = some x → ∃ y, readElem m (off + i) = some y ∧ realOf y = realOf x ∧ Sample.ok y = true) := by
  have hstep := step_of_event hin (by simp)
  exact ⟨fun hbusy => hstep.trans (hostWriteSamples_sin_busy hbusy hfit),
    fun hidle => ⟨_, hstep.trans (hostWriteSamples_sin_idle hidle hfit),
      fun a ha => readElem_writeRun_outside (by simpa using ha), fun i x => readElem_writeRun_normalised⟩⟩

/-- The host's read of a byte of an idle block. -/
theorem step_readByte {sp : ByteSpace} (hidle : s.busy = false) (hin : s.inbox = .readByte sp off :: rest)
    (hcap : off < byteCap s sp) :
    (∀ b, readElem (byteCells s sp) off = some b → step s = .next { s with inbox := rest, hostData := .byte b }) ∧
    (readElem (byteCells s sp) off = none → step s = .fault (.unwrittenElement (ByteSpace.space sp))) := by
  have hstep := step_of_event hin (by simp)
  cases sp with
  | bin | bout | namebuf =>
    exact ⟨fun b hb => hstep.trans (hostReadByte_idle hidle hcap hb),
      fun hn => hstep.trans (hostReadByte_idle_unwritten hidle hcap hn)⟩

/-- The host's read of a sample of an idle block. -/
theorem step_readSample {sp : SampleSpace} (hidle : s.busy = false) (hin : s.inbox = .readSample sp off :: rest)
    (hcap : off < sampleCap s sp) :
    (∀ x, readElem (sampleCells s sp) off = some x → step s = .next { s with inbox := rest, hostData := .sample x }) ∧
    (readElem (sampleCells s sp) off = none → step s = .fault (.unwrittenElement (SampleSpace.space sp))) := by
  have hstep := step_of_event hin (by simp)
  cases sp with
  | sin | sout =>
    exact ⟨fun x hx => hstep.trans (hostReadSample_idle hidle hcap hx),
      fun hn => hstep.trans (hostReadSample_idle_unwritten hidle hcap hn)⟩

/-- The copy of R62 from `BOUT` to `BIN` while idle. -/
theorem step_copyBytes_bout_bin {a n : Nat} {bs : List Byte} (hidle : s.busy = false)
    (hin : s.inbox = .copyBytes .bin off .bout a (a + n) :: rest) (hsrc : a + n ≤ s.params.boutCap)
    (hdst : off + n ≤ s.params.binCap) (hrun : readRun s.bout a n = some bs) :
    bs.length = n ∧ ∃ m, step s = .next { s with inbox := rest, bin := m } ∧
      ∀ e, readElem m e = if off ≤ e ∧ e < off + n then readElem s.bout (a + (e - off)) else readElem s.bin e := by
  have hlen : bs.length = n := (readRun_some s.bout a n bs hrun).1
  refine ⟨hlen, writeRun s.bin off bs, ?_, fun e => ?_⟩
  · exact (step_of_event hin (by simp)).trans
      ((hostCopyBytes_idle (s := { s with inbox := rest }) (src := .bout) hidle hsrc hrun).trans (hostWriteBytes_bin_idle hidle (hlen ▸ hdst)))
  · rw [readElem_writeRun, hlen]
    split
    · next h => rw [readElem_of_readRun s.bout a n bs hrun (e - off) (by omega)]
    · rfl

/-- The copy of R62 from `SOUT` to `SIN` while idle. -/
theorem step_copySamples_sout_sin {a n : Nat} {xs : List Sample} (hidle : s.busy = false)
    (hin : s.inbox = .copySamples .sin off .sout a (a + n) :: rest) (hsrc : a + n ≤ s.params.soutCap)
    (hdst : off + n ≤ s.params.sinCap) (hrun : readRun s.sout a n = some xs) :
    xs.length = n ∧ ∃ m, step s = .next { s with inbox := rest, sin := m } ∧
      (∀ e, ¬ (off ≤ e ∧ e < off + n) → readElem m e = readElem s.sin e) ∧
      ∀ i x, xs[i]? = some x → ∃ y, readElem m (off + i) = some y ∧ realOf y = realOf x := by
  have hlen : xs.length = n := (readRun_some s.sout a n xs hrun).1
  refine ⟨hlen, writeRun s.sin off (xs.map RealSum.normalise), ?_, fun e he => ?_, fun i x hx => ?_⟩
  · exact (step_of_event hin (by simp)).trans
      ((hostCopySamples_read (s := { s with inbox := rest }) (src := .sout) hsrc hrun).trans (hostWriteSamples_sin_idle hidle (hlen ▸ hdst)))
  · exact readElem_writeRun_outside (by simpa [hlen] using he)
  · obtain ⟨y, hread, hreal, -⟩ := readElem_writeRun_normalised (m := s.sin) (off := off) hx
    exact ⟨y, hread, hreal⟩

end hostBuffers

/-- Settles O59: one lemma per operation of the host. -/
theorem hostWritesBuffers : Obligations.HostWritesBuffers := by
  refine ⟨fun s off bs rest => ⟨step_writeBytes_bin, step_writeBytes_namebuf, step_writeBytes_bout⟩,
    fun s off xs rest => ⟨step_writeSamples_sin, fun hin => step_of_event hin (by simp)⟩,
    fun s off b rest hidle => ⟨fun hin hcap => (step_readByte hidle hin hcap).1 b,
      fun hin hcap => (step_readByte hidle hin hcap).1 b, fun hin hcap => (step_readByte hidle hin hcap).1 b⟩,
    fun s off rest hidle => ⟨fun hin hcap => (step_readByte hidle hin hcap).2,
      fun hin hcap => (step_readByte hidle hin hcap).2, fun hin hcap => (step_readByte hidle hin hcap).2,
      fun hin hcap => (step_readSample hidle hin hcap).2, fun hin hcap => (step_readSample hidle hin hcap).2⟩,
    fun s off x rest hidle => ⟨fun hin hcap => (step_readSample hidle hin hcap).1 x,
      fun hin hcap => (step_readSample hidle hin hcap).1 x⟩,
    fun s off a n bs rest => step_copyBytes_bout_bin, fun s off a n xs rest => step_copySamples_sout_sin⟩

end Sys2Proof.Machine

/-!
PROOFS. How many elements each command writes to an output buffer, and that it writes no others (spec/20_memory.md R36,
spec/30_encoding.md R54).
-/

namespace Sys2Proof.Machine

/-! ## Lengths of what commands write -/

/-- A length below 2^32 is kept by its register (R56). -/
theorem toNat_lenWord {n : Nat} (h : n < 2 ^ 32) : (lenWord n).toNat = n := by
  rw [lenWord, BitVec.toNat_ofNat, Nat.mod_eq_of_lt h]

theorem length_slice_le {α : Type} (a : List α) (off len : Nat) : (slice a off len).length ≤ len := by
  rw [slice]
  exact List.length_take_le len _

@[simp] theorem length_le32 (v : Word) : (le32 v).length = 4 := rfl

@[simp] theorem length_le32Nat (n : Nat) : (le32Nat n).length = 4 := rfl

/-- A list made of pieces of one length. -/
theorem length_flatMap_of_const {α β : Type} {f : α → List β} {n : Nat} (h : ∀ x, (f x).length = n) (l : List α) :
    (l.flatMap f).length = l.length * n := by
  simp [List.length_flatMap, h]

/-- R73: the product of two polynomials has one coefficient less than both together. -/
theorem length_polyMul (a b : List Byte) : (polyMul a b).length = a.length + b.length - 1 := by
  have row (i : Nat) (r : List Byte) : ((List.range b.length).foldl
      (fun r j => xorAt r (i + j) (gfMul (a.getD i 0) (b.getD j 0))) r).length = r.length :=
    length_foldl_of_keeps _ (fun r j => length_xorAt r _ _) _ _
  rw [polyMul, length_foldl_of_keeps _ (fun r i => row i r), List.length_replicate]

theorem length_messageBlock (data : List Byte) (b : Nat) : (messageBlock data b).length = rsK := by
  have h := length_slice_le data (rsK * b) rsK
  rw [messageBlock, List.length_append, List.length_replicate]
  omega

/-- R89: 255 bytes for each block. -/
theorem length_rsEncode (data : List Byte) : (rsEncode data).length = rsN * blockCount data.length := by
  have block (b : Nat) : (rsEncodeBlock (messageBlock data b)).length = rsN :=
    length_rsEncodeBlock _ (length_messageBlock data b)
  rw [rsEncode, length_flatMap_of_const block, List.length_range, Nat.mul_comm]

/-- R105, R106: the length of a packet with a name of at most 255 bytes. -/
theorem length_of_frame {name payload pkt : List Byte} (hname : name.length ≤ nameCap)
    (h : frame name payload = .ok pkt) : pkt.length = packetLen name.length payload.length := by
  unfold frame at h
  split at h
  · cases h
  · rw [← Except.ok.inj h]
    simp only [frameBody, List.take_of_length_le hname, List.length_append, length_le32, length_le32Nat, packetLen, magic,
      List.length_cons, List.length_nil]
    omega

theorem length_symbol (A : Arithmetic) (t : Nat) : (symbol A t).length = symbolLen := by
  rw [symbol, List.length_map, List.length_range]

theorem length_preamble (A : Arithmetic) : (preamble A).length = preambleLen := by
  simp [preamble, length_symbol, preambleSymbols, symbolLen, preambleLen]

theorem length_dataSymbols (A : Arithmetic) (bs : List Byte) : (dataSymbols A bs).length = bs.length * symbolLen := by
  have each (b : Byte) : (symbol A b.toNat).length = symbolLen := length_symbol A b.toNat
  rw [dataSymbols, length_flatMap_of_const each]

/-- R124: a frame is 14 symbols more than its data. -/
theorem length_of_modulate {A : Arithmetic} {data : List Byte} {out : List Sample} (h : modulate A data = .ok out) :
    out.length = frameSamples data.length := by
  unfold modulate at h
  split at h
  · cases h
  · rw [← Except.ok.inj h]
    simp only [List.length_append, length_preamble, length_dataSymbols, length_le32Nat, preambleLen, frameSamples,
      symbolLen]
    omega

/-- R156: the samples of an encoded file. -/
theorem length_of_encodeFile {A : Arithmetic} {name payload : List Byte} {out : List Sample}
    (hname : name.length ≤ nameCap) (h : encodeFile A name payload = .ok out) :
    out.length = frameSamples (fecLen (packetLen name.length payload.length)) := by
  unfold encodeFile at h
  split at h
  · cases h
  · next pkt hpkt =>
    dsimp only at h
    split at h
    · cases h
    · rw [length_of_modulate h, length_rsEncode, length_of_frame hname hpkt, fecLen]

/-! ## The rest of the output buffers -/

/-- The elements of `BOUT`, `SOUT` and `NAMEBUF` from offsets `b`, `x` and `n` on read in `t` as in `s` (R36). -/
structure KeptBeyond (s t : State) (b x n : Nat) : Prop where
  bout : ∀ a, b ≤ a → readElem t.bout a = readElem s.bout a
  sout : ∀ a, x ≤ a → readElem t.sout a = readElem s.sout a
  namebuf : ∀ a, n ≤ a → readElem t.namebuf a = readElem s.namebuf a

/-- When `a` is a completion of the command `i` with `OK`, the output buffers hold beyond the written lengths what they
held in `s`. -/
def KeepsBeyond (i : Instr) (s : State) (a : Answer) : Prop :=
  ∀ t, a = .next t → t.err = 0 → KeptBeyond s t (boutWritten i t) (soutWritten i t) (nameWritten i t)

/-- The written lengths are read from `RES0` and `RES1` alone (R54). -/
theorem written_congr (i : Instr) {t u : State} (h0 : t.res0 = u.res0) (h1 : t.res1 = u.res1) :
    boutWritten i t = boutWritten i u ∧ soutWritten i t = soutWritten i u ∧ nameWritten i t = nameWritten i u := by
  simp only [boutWritten, soutWritten, nameWritten, h0, h1, and_self]

/-- An error completion is not a completion with `OK` (R166). -/
theorem raiseErr_err_ne_zero (e : ErrCode) (s : State) : (raiseErr e s).err ≠ 0 := by
  rw [State.err, raiseErr_status, statusCompleted_err]
  cases e <;> decide

/-- R7: lengths that fit `BOUT` or `SOUT` fit a register. -/
theorem outputCaps_lt {p : Params} (h : p.ok = true) : p.boutCap < 2 ^ 32 ∧ p.soutCap < 2 ^ 32 := by
  simp only [Params.ok, Bool.and_eq_true, decide_eq_true_eq] at h
  omega

section keeps

variable {i : Instr} {s u t : State}

theorem keepsBeyond_fault (f : Fault) : KeepsBeyond i s (.fault f) := by
  intro t h; cases h

theorem keepsBeyond_fail (e : ErrCode) : KeepsBeyond i s (fail e u) := by
  intro t h herr
  cases h
  exact absurd herr (raiseErr_err_ne_zero e u)

/-- A command that has written no `BOUT` and no `SOUT` before it completes. -/
theorem keepsBeyond_succeed (ht : KeptBeyond s t 0 0 (nameWritten i t)) : KeepsBeyond i s (succeed t) := by
  intro t' h _
  cases h
  obtain ⟨-, -, hname⟩ := written_congr i (complete_res0 t) (complete_res1 t)
  exact ⟨fun a _ => ht.bout a a.zero_le, fun a _ => ht.sout a a.zero_le, fun a ha => ht.namebuf a (hname ▸ ha)⟩

theorem keepsBeyond_withBin (n : Nat) (k : List Byte → Answer) (hk : ∀ bs, bs.length = n → KeepsBeyond i s (k bs)) :
    KeepsBeyond i s (withBin n s k) := by
  rcases withBin_cases n s k with ⟨-, h⟩ | ⟨-, -, h⟩ | ⟨bs, -, hrun, h⟩ <;> rw [h]
  · exact keepsBeyond_fail .cap
  · exact keepsBeyond_fault _
  · exact hk bs (readRun_some _ _ _ _ hrun).1

theorem keepsBeyond_withName (n : Nat) (k : List Byte → Answer) (hk : ∀ bs, bs.length = n → KeepsBeyond i s (k bs)) :
    KeepsBeyond i s (withName n s k) := by
  rcases withName_cases n s k with ⟨-, h⟩ | ⟨bs, hrun, h⟩ <;> rw [h]
  · exact keepsBeyond_fault _
  · exact hk bs (readRun_some _ _ _ _ hrun).1

theorem keepsBeyond_withSin (n : Nat) (k : List Sample → Answer) (hk : ∀ xs, KeepsBeyond i s (k xs)) :
    KeepsBeyond i s (withSin n s k) := by
  rcases withSin_cases n s k with ⟨-, h⟩ | ⟨-, -, h⟩ | ⟨xs, -, -, h⟩ <;> rw [h]
  · exact keepsBeyond_fail .cap
  · exact keepsBeyond_fault _
  · exact hk xs

/-- A commit of bytes whose length the registers of `t` tell. -/
theorem keepsBeyond_commitBytes {out : List Byte} (hu : u.params.ok = true)
    (ht : KeptBeyond s t 0 0 (nameWritten i t)) (hlen : out.length < 2 ^ 32 → out.length ≤ boutWritten i t) :
    KeepsBeyond i s (commitBytes out u t) := by
  rcases commitBytes_cases out u t with ⟨-, h⟩ | ⟨hfit, h⟩ <;> rw [h]
  · exact keepsBeyond_fail .cap
  · have hbytes := hlen (hfit.trans_lt (outputCaps_lt hu).1)
    intro t' h' _
    cases h'
    obtain ⟨hbout, -, hname⟩ := written_congr i (t := complete { t with bout := writeRun t.bout 0 out }) (u := t) rfl rfl
    rw [hbout, hname]
    exact ⟨fun a ha => (readElem_writeRun_outside (by omega)).trans (ht.bout a a.zero_le),
      fun a _ => ht.sout a a.zero_le, ht.namebuf⟩

/-- A commit of samples whose number the registers of `t` tell. -/
theorem keepsBeyond_commitSamples {out : List Sample} (hu : u.params.ok = true)
    (ht : KeptBeyond s t 0 0 (nameWritten i t)) (hlen : out.length < 2 ^ 32 → out.length ≤ soutWritten i t) :
    KeepsBeyond i s (commitSamples out u t) := by
  rcases commitSamples_cases out u t with ⟨-, h⟩ | ⟨hfit, h⟩ <;> rw [h]
  · exact keepsBeyond_fail .cap
  · have hsamples := hlen (hfit.trans_lt (outputCaps_lt hu).2)
    intro t' h' _
    cases h'
    obtain ⟨-, hsout, hname⟩ := written_congr i (t := complete { t with sout := writeRun t.sout 0 out }) (u := t) rfl rfl
    rw [hsout, hname]
    exact ⟨fun a _ => ht.bout a a.zero_le,
      fun a ha => (readElem_writeRun_outside (by omega)).trans (ht.sout a a.zero_le), ht.namebuf⟩

/-- A state that differs from `s` in registers only. -/
theorem keptBeyond_of_eq {n : Nat} (hbout : t.bout = s.bout) (hsout : t.sout = s.sout) (hname : t.namebuf = s.namebuf) :
    KeptBeyond s t 0 0 n :=
  ⟨fun a _ => by rw [hbout], fun a _ => by rw [hsout], fun a _ => by rw [hname]⟩

/-- A state in which the name of a packet has been written to `NAMEBUF`; the length of a name fits a register. -/
theorem keptBeyond_of_name {name : List Byte} (hbout : t.bout = s.bout) (hsout : t.sout = s.sout)
    (hname : t.namebuf = writeRun s.namebuf 0 name) (hlen : name.length ≤ nameCap) :
    KeptBeyond s t 0 0 (lenWord name.length).toNat := by
  refine ⟨fun a _ => by rw [hbout], fun a _ => by rw [hsout], fun a ha => ?_⟩
  rw [toNat_lenWord (hlen.trans_lt (by decide))] at ha
  rw [hname, readElem_writeRun_outside (by omega)]

end keeps

/-! ## Every command -/

section commands

variable (s : State)

theorem keepsBeyond_execGfmul : KeepsBeyond .gfmul s (execGfmul s) := by
  unfold execGfmul
  split
  · exact keepsBeyond_succeed (keptBeyond_of_eq rfl rfl rfl)
  · exact keepsBeyond_fail .arg

theorem keepsBeyond_execGfdiv : KeepsBeyond .gfdiv s (execGfdiv s) := by
  unfold execGfdiv
  split
  · split
    · exact keepsBeyond_succeed (keptBeyond_of_eq rfl rfl rfl)
    · exact keepsBeyond_fail .div0
  · exact keepsBeyond_fail .arg

theorem keepsBeyond_execCrc32 : KeepsBeyond .crc32 s (execCrc32 s) :=
  keepsBeyond_withBin _ _ fun _ _ => keepsBeyond_succeed (keptBeyond_of_eq rfl rfl rfl)

theorem keepsBeyond_execGoertz : KeepsBeyond .goertz s (execGoertz s) := by
  unfold execGoertz
  split
  · exact keepsBeyond_fail .arg
  split
  · exact keepsBeyond_withSin _ _ fun _ => keepsBeyond_succeed (keptBeyond_of_eq rfl rfl rfl)
  · exact keepsBeyond_fail .arg

theorem keepsBeyond_execDetect : KeepsBeyond .detect s (execDetect s) := by
  unfold execDetect
  split
  · exact keepsBeyond_withSin _ _ fun _ => keepsBeyond_succeed (keptBeyond_of_eq rfl rfl rfl)
  · exact keepsBeyond_fail .arg

section commits

variable {s} (hs : s.params.ok = true)
include hs

theorem keepsBeyond_execGfpmul : KeepsBeyond .gfpmul s (execGfpmul s) := by
  unfold execGfpmul
  dsimp only
  split
  · exact keepsBeyond_fail .arg
  split
  · exact keepsBeyond_fail .cap
  refine keepsBeyond_withBin _ _ fun bs hbs => keepsBeyond_commitBytes hs (keptBeyond_of_eq rfl rfl rfl) fun hlt => ?_
  have hlen : (polyMul (bs.take s.arg0.toNat) (bs.drop s.arg0.toNat)).length = s.arg0.toNat + s.arg1.toNat - 1 := by
    rw [length_polyMul, List.length_take, List.length_drop]
    omega
  rw [hlen] at hlt ⊢
  exact (toNat_lenWord hlt).ge

theorem keepsBeyond_execRsenc1 : KeepsBeyond .rsenc1 s (execRsenc1 s) :=
  keepsBeyond_withBin _ _ fun m hm => keepsBeyond_commitBytes hs (keptBeyond_of_eq rfl rfl rfl) fun _ =>
    (length_rsEncodeBlock m hm).le

theorem keepsBeyond_execRsdec1 : KeepsBeyond .rsdec1 s (execRsdec1 s) := by
  refine keepsBeyond_withBin _ _ fun c _ => ?_
  dsimp only
  split
  · exact keepsBeyond_commitBytes hs (keptBeyond_of_eq rfl rfl rfl) fun _ => List.length_take_le rsK c
  · exact keepsBeyond_succeed (keptBeyond_of_eq rfl rfl rfl)

theorem keepsBeyond_execRsenc : KeepsBeyond .rsenc s (execRsenc s) := by
  unfold execRsenc
  dsimp only
  split
  · exact keepsBeyond_fail .cap
  refine keepsBeyond_withBin _ _ fun data hdata => keepsBeyond_commitBytes hs (keptBeyond_of_eq rfl rfl rfl) fun hlt => ?_
  rw [length_rsEncode, hdata] at hlt ⊢
  exact (toNat_lenWord hlt).ge

theorem keepsBeyond_execRsdec : KeepsBeyond .rsdec s (execRsdec s) :=
  keepsBeyond_withBin _ _ fun _ _ => keepsBeyond_commitBytes hs (keptBeyond_of_eq rfl rfl rfl) fun hlt =>
    (toNat_lenWord hlt).ge

theorem keepsBeyond_execFrame : KeepsBeyond .frame s (execFrame s) := by
  unfold execFrame
  dsimp only
  split
  · exact keepsBeyond_fail .name
  split
  · exact keepsBeyond_fail .cap
  refine keepsBeyond_withBin _ _ fun _ _ => keepsBeyond_withName _ _ fun _ _ => ?_
  split
  · exact keepsBeyond_fail _
  · exact keepsBeyond_commitBytes hs (keptBeyond_of_eq rfl rfl rfl) fun hlt => (toNat_lenWord hlt).ge

theorem keepsBeyond_execParse : KeepsBeyond .parse s (execParse s) := by
  unfold execParse
  dsimp only
  split
  · exact keepsBeyond_fail .cap
  split
  · exact keepsBeyond_fail .short
  refine keepsBeyond_withBin _ _ fun _ _ => ?_
  split
  · exact keepsBeyond_fail _
  · next hp =>
    exact keepsBeyond_commitBytes hs (keptBeyond_of_name rfl rfl rfl (parse_name_le hp)) fun hlt =>
      (toNat_lenWord hlt).ge

theorem keepsBeyond_execTone : KeepsBeyond .tone s (execTone s) := by
  unfold execTone
  split
  · exact keepsBeyond_commitSamples hs (keptBeyond_of_eq rfl rfl rfl) fun _ => (length_symbol _ _).le
  · exact keepsBeyond_fail .arg

theorem keepsBeyond_execPreamb : KeepsBeyond .preamb s (execPreamb s) :=
  keepsBeyond_commitSamples hs (keptBeyond_of_eq rfl rfl rfl) fun _ => (length_preamble _).le

theorem keepsBeyond_execMod : KeepsBeyond .mod s (execMod s) := by
  unfold execMod
  dsimp only
  split
  · exact keepsBeyond_fail .cap
  refine keepsBeyond_withBin _ _ fun data hdata => ?_
  split
  · exact keepsBeyond_fail _
  · next hout =>
    refine keepsBeyond_commitSamples hs (keptBeyond_of_eq rfl rfl rfl) fun hlt => ?_
    rw [length_of_modulate hout, hdata] at hlt ⊢
    exact (toNat_lenWord hlt).ge

/-- The positions are four bytes each, so their number fits a register when their bytes fit `BOUT` (R138). -/
theorem keepsBeyond_execSyncfind : KeepsBeyond .syncfind s (execSyncfind s) := by
  refine keepsBeyond_withSin _ _ fun x => keepsBeyond_commitBytes hs (keptBeyond_of_eq rfl rfl rfl) fun hlt => ?_
  rw [length_flatMap_of_const length_le32Nat] at hlt ⊢
  have hcount := toNat_lenWord (n := (findPreambles s.arithmetic s.params.syncThreshold x).length) (by omega)
  simp only [boutWritten, hcount]
  omega

theorem keepsBeyond_execDemod : KeepsBeyond .demod s (execDemod s) := by
  refine keepsBeyond_withSin _ _ fun _ => ?_
  dsimp only
  split
  · exact keepsBeyond_fail _
  · exact keepsBeyond_commitBytes hs (keptBeyond_of_eq rfl rfl rfl) fun hlt => (toNat_lenWord hlt).ge

theorem keepsBeyond_execEncode : KeepsBeyond .encode s (execEncode s) := by
  unfold execEncode
  dsimp only
  split
  · exact keepsBeyond_fail .name
  split
  · exact keepsBeyond_fail .cap
  split
  · exact keepsBeyond_fail .len
  split
  · exact keepsBeyond_fail .cap
  refine keepsBeyond_withBin _ _ fun payload hpayload => keepsBeyond_withName _ _ fun name hname => ?_
  split
  · exact keepsBeyond_fail _
  · next hout =>
    have hshort : name.length ≤ nameCap := hname ▸ Nat.min_le_right _ _
    refine keepsBeyond_commitSamples hs (keptBeyond_of_eq rfl rfl rfl) fun hlt => ?_
    rw [length_of_encodeFile hshort hout, hname, hpayload] at hlt ⊢
    exact (toNat_lenWord hlt).ge

theorem keepsBeyond_execDecode : KeepsBeyond .decode s (execDecode s) := by
  refine keepsBeyond_withSin _ _ fun x => ?_
  dsimp only
  split
  · exact keepsBeyond_fail _
  · next hp =>
    exact keepsBeyond_commitBytes hs (keptBeyond_of_name rfl rfl rfl (decodeAudio_name_le hp)) fun hlt =>
      (toNat_lenWord hlt).ge

/-- No command that ends `OK` changes an output buffer beyond the length it reports (R36, R54). -/
theorem keepsBeyond_exec (i : Instr) : KeepsBeyond i s (exec i s) := by
  cases i with
  | gfmul => exact keepsBeyond_execGfmul s
  | gfdiv => exact keepsBeyond_execGfdiv s
  | gfpmul => exact keepsBeyond_execGfpmul hs
  | rsenc1 => exact keepsBeyond_execRsenc1 hs
  | rsdec1 => exact keepsBeyond_execRsdec1 hs
  | rsenc => exact keepsBeyond_execRsenc hs
  | rsdec => exact keepsBeyond_execRsdec hs
  | crc32 => exact keepsBeyond_execCrc32 s
  | frame => exact keepsBeyond_execFrame hs
  | parse => exact keepsBeyond_execParse hs
  | tone => exact keepsBeyond_execTone hs
  | preamb => exact keepsBeyond_execPreamb hs
  | mod => exact keepsBeyond_execMod hs
  | goertz => exact keepsBeyond_execGoertz s
  | syncfind => exact keepsBeyond_execSyncfind hs
  | detect => exact keepsBeyond_execDetect s
  | demod => exact keepsBeyond_execDemod hs
  | encode => exact keepsBeyond_execEncode hs
  | decode => exact keepsBeyond_execDecode hs

end commits

end commands

/-- Settles O12: each command reports the length of what it commits (`keepsBeyond_exec`). -/
theorem outputsBeyondTheResultKeepTheirValues : Obligations.OutputsBeyondTheResultKeepTheirValues := by
  intro i s t hs h herr
  obtain ⟨hbout, hsout, hname⟩ := keepsBeyond_exec hs i t h herr
  exact ⟨hbout, hsout, hname⟩

end Sys2Proof.Machine

/-!
PROOFS. Which words are commands (spec/30_encoding.md R50 to R53).
-/

namespace Sys2Proof.Machine

/-! ## The word of a command -/

theorem opcodeOf_mem_listedOpcodes (i : Instr) : opcodeOf i ∈ listedOpcodes := by cases i <;> decide

/-- Every listed opcode stands in a row of the table (R52). -/
theorem eq_opcodeOf_of_mem_listedOpcodes {op : Byte} (h : op ∈ listedOpcodes) : ∃ i, op = opcodeOf i := by
  have hcolumn : listedOpcodes = opcodeTable.map Prod.fst := rfl
  rw [hcolumn] at h
  obtain ⟨row, hrow, rfl⟩ := List.mem_map.mp h
  exact ⟨row.2, opcodeTable_row row hrow⟩

/-- Bits 7:0 of the word of a command are its opcode (R50). -/
theorem setWidth_encode (i : Instr) : (encode i).setWidth 8 = opcodeOf i := by
  rw [encode, BitVec.setWidth_setWidth_of_le _ (by decide), BitVec.setWidth_eq]

/-- Bits 31:8 of the word of a command are 0 (R50). -/
theorem encode_ushiftRight (i : Instr) : encode i >>> 8 = 0 := by
  have hop := (opcodeOf i).isLt
  rw [encode]
  bv_omega

/-- R51: a word is legal when its zero field is 0 and its opcode is listed. -/
theorem commandWordOk_iff (w : Word) :
    commandWordOk w = true ↔ zeroFieldOk w = true ∧ w.setWidth 8 ∈ listedOpcodes := by
  rw [commandWordOk, Bool.and_eq_true, opcodeOk, List.contains_iff_mem]

theorem commandWordOk_encode (i : Instr) : commandWordOk (encode i) = true := by
  rw [commandWordOk_iff, setWidth_encode, zeroFieldOk, encode_ushiftRight]
  exact ⟨rfl, opcodeOf_mem_listedOpcodes i⟩

/-! ## Decoding -/

theorem decode_eq_ok_iff (w : Word) (i : Instr) : decode w = .ok i ↔ w = encode i :=
  ⟨eq_encode_of_decode, fun h => h ▸ decode_encode i⟩

/-- R51: the legal words are the words of the commands. -/
theorem commandWordOk_iff_decode (w : Word) : commandWordOk w = true ↔ ∃ i, decode w = .ok i := by
  constructor
  · intro h
    obtain ⟨hzero, hlisted⟩ := (commandWordOk_iff w).mp h
    obtain ⟨i, hop⟩ := eq_opcodeOf_of_mem_listedOpcodes hlisted
    refine ⟨i, (decode_eq_ok_iff w i).mpr ?_⟩
    rw [encode, ← hop, setWidth_opcode_of_zeroFieldOk hzero]
  · rintro ⟨i, hi⟩
    rw [eq_encode_of_decode hi]
    exact commandWordOk_encode i

/-- R53: the other words are illegal. -/
theorem commandWordOk_eq_false_iff_decode (w : Word) : commandWordOk w = false ↔ ∃ e, decode w = .error e := by
  rw [← Bool.not_eq_true, commandWordOk_iff_decode]
  cases hd : decode w <;> simp

/-- A bit of 31:8 is looked at before the opcode (R50, R53). -/
theorem decode_of_zeroFieldSet {w : Word} (h : zeroFieldOk w = false) : decode w = .error .zeroFieldSet := by
  simp [decode, h]

theorem decode_of_unlistedOpcode {w : Word} (h : zeroFieldOk w = true) (hop : commandOf (w.setWidth 8) = none) :
    decode w = .error .unlistedOpcode := by
  simp [decode, h, hop]

/-- Settles O1: a word with a zero field of 0 is its opcode, and each listed opcode is that of one command. -/
theorem wordIsOneCommandOrIllegal : Obligations.WordIsOneCommandOrIllegal :=
  ⟨decode_eq_ok_iff, fun w => ⟨commandWordOk_iff_decode w, commandWordOk_eq_false_iff_decode w⟩,
    fun i => ⟨commandWordOk_encode i, setWidth_encode i, encode_ushiftRight i⟩⟩

/-- Settles O2: each of the 19 words is the word of its command (`decode_encode`); the four others fail one of the two
checks of the decoder. -/
theorem listedWordsDecodeAsTheTableSays : Obligations.ListedWordsDecodeAsTheTableSays :=
  ⟨decode_encode .gfmul, decode_encode .gfdiv, decode_encode .gfpmul, decode_encode .rsenc1, decode_encode .rsdec1,
    decode_encode .rsenc, decode_encode .rsdec, decode_encode .crc32, decode_encode .frame, decode_encode .parse,
    decode_encode .tone, decode_encode .preamb, decode_encode .mod, decode_encode .goertz, decode_encode .syncfind,
    decode_encode .detect, decode_encode .demod, decode_encode .encode, decode_encode .decode,
    decode_of_zeroFieldSet rfl, decode_of_zeroFieldSet rfl, decode_of_unlistedOpcode rfl rfl,
    decode_of_unlistedOpcode rfl rfl⟩

end Sys2Proof.Machine

/-!
PROOFS. Which registers and buffers a command leaves as they were (spec/30_encoding.md R54, spec/20_memory.md R36).
-/

namespace Sys2Proof.Machine

/-! ## What no command writes -/

/-- `t` has the inputs of `s`, its parameters and the model's own fields (R11, R16, R31). -/
structure SameInputs (s t : State) : Prop where
  cmd : t.cmd = s.cmd
  arg0 : t.arg0 = s.arg0
  arg1 : t.arg1 = s.arg1
  arg2 : t.arg2 = s.arg2
  arg3 : t.arg3 = s.arg3
  bin : t.bin = s.bin
  sin : t.sin = s.sin
  params : t.params = s.params
  inbox : t.inbox = s.inbox
  hostData : t.hostData = s.hostData
  free : t.free = s.free

/-- The writes of a command are to its outputs (R54). -/
theorem Results.sameInputs {s t : State} (h : Results s t) : SameInputs s t := by
  induction h with
  | launched => constructor <;> rfl
  | warned _ _ ih | registers _ ih | magnitude _ _ ih | name _ _ ih | bytes _ _ ih | samples _ _ _ ih =>
    exact { ih with }

theorem Completion.sameInputs {s t : State} (h : Completion s t) : SameInputs s t := by
  obtain ⟨u, c, hu, -, rfl⟩ := h
  exact { hu.sameInputs with }

/-! ## The result registers a command does not write -/

/-- `t` differs from `s` in no result register that the table of R54 does not name for `i`. -/
structure OnlyNamed (i : Instr) (s t : State) : Prop where
  res0 : writesRes0 i = false → t.res0 = s.res0
  res1 : writesRes1 i = false → t.res1 = s.res1
  res2 : writesRes2 i = false → t.res2 = s.res2
  res3 : writesRes3 i = false → t.res3 = s.res3
  mag : writesMag i = false → t.mag = s.mag

/-- If `a` is a next state, it differs from `s` in no result register that R54 does not name for `i`. -/
def WritesOnlyNamed (i : Instr) (s : State) (a : Answer) : Prop := ∀ t, a = .next t → OnlyNamed i s t

section writes

variable {i : Instr} {s u t : State}

theorem OnlyNamed.launched : OnlyNamed i s s := by constructor <;> exact fun _ => rfl

/-- A warning is no result (R15). -/
theorem OnlyNamed.warned (b : Word) : OnlyNamed i s (warn b s) := by constructor <;> exact fun _ => rfl

theorem writesOnlyNamed_fault (f : Fault) : WritesOnlyNamed i s (.fault f) := by
  intro t h; cases h

theorem writesOnlyNamed_fail (e : ErrCode) (hu : OnlyNamed i s u) : WritesOnlyNamed i s (fail e u) := by
  intro t h; cases h; exact { hu with }

theorem writesOnlyNamed_succeed (ht : OnlyNamed i s t) : WritesOnlyNamed i s (succeed t) := by
  intro t' h; cases h; exact { ht with }

theorem writesOnlyNamed_withBin (n : Nat) (k : List Byte → Answer) (hk : ∀ bs, WritesOnlyNamed i s (k bs)) :
    WritesOnlyNamed i s (withBin n s k) := by
  rcases withBin_cases n s k with ⟨-, h⟩ | ⟨-, -, h⟩ | ⟨bs, -, -, h⟩ <;> rw [h]
  · exact writesOnlyNamed_fail .cap .launched
  · exact writesOnlyNamed_fault _
  · exact hk bs

theorem writesOnlyNamed_withName (n : Nat) (k : List Byte → Answer) (hk : ∀ bs, WritesOnlyNamed i s (k bs)) :
    WritesOnlyNamed i s (withName n s k) := by
  rcases withName_cases n s k with ⟨-, h⟩ | ⟨bs, -, h⟩ <;> rw [h]
  · exact writesOnlyNamed_fault _
  · exact hk bs

theorem writesOnlyNamed_withSin (n : Nat) (k : List Sample → Answer) (hk : ∀ xs, WritesOnlyNamed i s (k xs)) :
    WritesOnlyNamed i s (withSin n s k) := by
  rcases withSin_cases n s k with ⟨-, h⟩ | ⟨-, -, h⟩ | ⟨xs, -, -, h⟩ <;> rw [h]
  · exact writesOnlyNamed_fail .cap .launched
  · exact writesOnlyNamed_fault _
  · exact hk xs

theorem writesOnlyNamed_commitBytes (out : List Byte) (hu : OnlyNamed i s u) (ht : OnlyNamed i s t) :
    WritesOnlyNamed i s (commitBytes out u t) := by
  rcases commitBytes_cases out u t with ⟨-, h⟩ | ⟨-, h⟩ <;> rw [h]
  · exact writesOnlyNamed_fail .cap hu
  · exact writesOnlyNamed_succeed { ht with }

theorem writesOnlyNamed_commitSamples (out : List Sample) (hu : OnlyNamed i s u) (ht : OnlyNamed i s t) :
    WritesOnlyNamed i s (commitSamples out u t) := by
  rcases commitSamples_cases out u t with ⟨-, h⟩ | ⟨-, h⟩ <;> rw [h]
  · exact writesOnlyNamed_fail .cap hu
  · exact writesOnlyNamed_succeed { ht with }

end writes

/-! ## Every command

Where a command completes, its row of R54 stands in the order `RES0`, `RES1`, `RES2`, `RES3`, `MAG`: `nofun` for a register
the row names, `fun _ => rfl` for one it does not. -/

section commands

variable (s : State)

theorem writesOnlyNamed_execGfmul : WritesOnlyNamed .gfmul s (execGfmul s) := by
  unfold execGfmul
  split
  · exact writesOnlyNamed_succeed ⟨nofun, fun _ => rfl, fun _ => rfl, fun _ => rfl, fun _ => rfl⟩
  · exact writesOnlyNamed_fail .arg .launched

theorem writesOnlyNamed_execGfdiv : WritesOnlyNamed .gfdiv s (execGfdiv s) := by
  unfold execGfdiv
  split
  · split
    · exact writesOnlyNamed_succeed ⟨nofun, fun _ => rfl, fun _ => rfl, fun _ => rfl, fun _ => rfl⟩
    · exact writesOnlyNamed_fail .div0 .launched
  · exact writesOnlyNamed_fail .arg .launched

theorem writesOnlyNamed_execGfpmul : WritesOnlyNamed .gfpmul s (execGfpmul s) := by
  unfold execGfpmul
  dsimp only
  split
  · exact writesOnlyNamed_fail .arg .launched
  split
  · exact writesOnlyNamed_fail .cap .launched
  exact writesOnlyNamed_withBin _ _ fun _ =>
    writesOnlyNamed_commitBytes _ .launched ⟨nofun, fun _ => rfl, fun _ => rfl, fun _ => rfl, fun _ => rfl⟩

theorem writesOnlyNamed_execRsenc1 : WritesOnlyNamed .rsenc1 s (execRsenc1 s) :=
  writesOnlyNamed_withBin _ _ fun _ =>
    writesOnlyNamed_commitBytes _ .launched ⟨nofun, fun _ => rfl, fun _ => rfl, fun _ => rfl, fun _ => rfl⟩

theorem writesOnlyNamed_execRsdec1 : WritesOnlyNamed .rsdec1 s (execRsdec1 s) := by
  refine writesOnlyNamed_withBin _ _ fun c => ?_
  dsimp only
  split
  · exact writesOnlyNamed_commitBytes _ .launched ⟨nofun, nofun, fun _ => rfl, fun _ => rfl, fun _ => rfl⟩
  · exact writesOnlyNamed_succeed ⟨nofun, nofun, fun _ => rfl, fun _ => rfl, fun _ => rfl⟩

theorem writesOnlyNamed_execRsenc : WritesOnlyNamed .rsenc s (execRsenc s) := by
  unfold execRsenc
  dsimp only
  split
  · exact writesOnlyNamed_fail .cap .launched
  · exact writesOnlyNamed_withBin _ _ fun _ =>
      writesOnlyNamed_commitBytes _ .launched ⟨nofun, nofun, fun _ => rfl, fun _ => rfl, fun _ => rfl⟩

theorem writesOnlyNamed_execRsdec : WritesOnlyNamed .rsdec s (execRsdec s) :=
  writesOnlyNamed_withBin _ _ fun _ =>
    writesOnlyNamed_commitBytes _ .launched ⟨nofun, nofun, nofun, fun _ => rfl, fun _ => rfl⟩

theorem writesOnlyNamed_execCrc32 : WritesOnlyNamed .crc32 s (execCrc32 s) :=
  writesOnlyNamed_withBin _ _ fun _ =>
    writesOnlyNamed_succeed ⟨nofun, fun _ => rfl, fun _ => rfl, fun _ => rfl, fun _ => rfl⟩

theorem writesOnlyNamed_execFrame : WritesOnlyNamed .frame s (execFrame s) := by
  unfold execFrame
  dsimp only
  split
  · exact writesOnlyNamed_fail .name .launched
  split
  · exact writesOnlyNamed_fail .cap .launched
  refine writesOnlyNamed_withBin _ _ fun _ => writesOnlyNamed_withName _ _ fun _ => ?_
  split
  · exact writesOnlyNamed_fail _ .launched
  · exact writesOnlyNamed_commitBytes _ .launched ⟨nofun, nofun, fun _ => rfl, fun _ => rfl, fun _ => rfl⟩

theorem writesOnlyNamed_execParse : WritesOnlyNamed .parse s (execParse s) := by
  unfold execParse
  dsimp only
  split
  · exact writesOnlyNamed_fail .cap .launched
  split
  · exact writesOnlyNamed_fail .short .launched
  refine writesOnlyNamed_withBin _ _ fun _ => ?_
  split
  · exact writesOnlyNamed_fail _ .launched
  · exact writesOnlyNamed_commitBytes _ (.warned _) ⟨nofun, nofun, nofun, nofun, fun _ => rfl⟩

theorem writesOnlyNamed_execTone : WritesOnlyNamed .tone s (execTone s) := by
  unfold execTone
  split
  · exact writesOnlyNamed_commitSamples _ .launched ⟨nofun, fun _ => rfl, fun _ => rfl, fun _ => rfl, fun _ => rfl⟩
  · exact writesOnlyNamed_fail .arg .launched

theorem writesOnlyNamed_execPreamb : WritesOnlyNamed .preamb s (execPreamb s) :=
  writesOnlyNamed_commitSamples _ .launched ⟨nofun, fun _ => rfl, fun _ => rfl, fun _ => rfl, fun _ => rfl⟩

theorem writesOnlyNamed_execMod : WritesOnlyNamed .mod s (execMod s) := by
  unfold execMod
  dsimp only
  split
  · exact writesOnlyNamed_fail .cap .launched
  refine writesOnlyNamed_withBin _ _ fun _ => ?_
  split
  · exact writesOnlyNamed_fail _ .launched
  · exact writesOnlyNamed_commitSamples _ .launched ⟨nofun, fun _ => rfl, fun _ => rfl, fun _ => rfl, fun _ => rfl⟩

theorem writesOnlyNamed_execGoertz : WritesOnlyNamed .goertz s (execGoertz s) := by
  unfold execGoertz
  split
  · exact writesOnlyNamed_fail .arg .launched
  split
  · exact writesOnlyNamed_withSin _ _ fun _ =>
      writesOnlyNamed_succeed ⟨fun _ => rfl, fun _ => rfl, fun _ => rfl, fun _ => rfl, nofun⟩
  · exact writesOnlyNamed_fail .arg .launched

theorem writesOnlyNamed_execSyncfind : WritesOnlyNamed .syncfind s (execSyncfind s) :=
  writesOnlyNamed_withSin _ _ fun _ =>
    writesOnlyNamed_commitBytes _ .launched ⟨nofun, nofun, fun _ => rfl, fun _ => rfl, fun _ => rfl⟩

theorem writesOnlyNamed_execDetect : WritesOnlyNamed .detect s (execDetect s) := by
  unfold execDetect
  split
  · exact writesOnlyNamed_withSin _ _ fun _ =>
      writesOnlyNamed_succeed ⟨nofun, fun _ => rfl, fun _ => rfl, fun _ => rfl, nofun⟩
  · exact writesOnlyNamed_fail .arg .launched

theorem writesOnlyNamed_execDemod : WritesOnlyNamed .demod s (execDemod s) := by
  refine writesOnlyNamed_withSin _ _ fun _ => ?_
  dsimp only
  split
  · exact writesOnlyNamed_fail _ .launched
  · exact writesOnlyNamed_commitBytes _ (.warned _) ⟨nofun, nofun, nofun, fun _ => rfl, fun _ => rfl⟩

theorem writesOnlyNamed_execEncode : WritesOnlyNamed .encode s (execEncode s) := by
  unfold execEncode
  dsimp only
  split
  · exact writesOnlyNamed_fail .name .launched
  split
  · exact writesOnlyNamed_fail .cap .launched
  split
  · exact writesOnlyNamed_fail .len .launched
  split
  · exact writesOnlyNamed_fail .cap .launched
  refine writesOnlyNamed_withBin _ _ fun _ => writesOnlyNamed_withName _ _ fun _ => ?_
  split
  · exact writesOnlyNamed_fail _ .launched
  · exact writesOnlyNamed_commitSamples _ .launched ⟨nofun, nofun, nofun, fun _ => rfl, fun _ => rfl⟩

theorem writesOnlyNamed_execDecode : WritesOnlyNamed .decode s (execDecode s) := by
  refine writesOnlyNamed_withSin _ _ fun _ => ?_
  dsimp only
  split
  · exact writesOnlyNamed_fail _ (.warned _)
  · exact writesOnlyNamed_commitBytes _ (.warned _) ⟨nofun, nofun, nofun, nofun, fun _ => rfl⟩

/-- A command writes no result register that its row of R54 does not name. -/
theorem writesOnlyNamed_exec (i : Instr) : WritesOnlyNamed i s (exec i s) := by
  cases i with
  | gfmul => exact writesOnlyNamed_execGfmul s
  | gfdiv => exact writesOnlyNamed_execGfdiv s
  | gfpmul => exact writesOnlyNamed_execGfpmul s
  | rsenc1 => exact writesOnlyNamed_execRsenc1 s
  | rsdec1 => exact writesOnlyNamed_execRsdec1 s
  | rsenc => exact writesOnlyNamed_execRsenc s
  | rsdec => exact writesOnlyNamed_execRsdec s
  | crc32 => exact writesOnlyNamed_execCrc32 s
  | frame => exact writesOnlyNamed_execFrame s
  | parse => exact writesOnlyNamed_execParse s
  | tone => exact writesOnlyNamed_execTone s
  | preamb => exact writesOnlyNamed_execPreamb s
  | mod => exact writesOnlyNamed_execMod s
  | goertz => exact writesOnlyNamed_execGoertz s
  | syncfind => exact writesOnlyNamed_execSyncfind s
  | detect => exact writesOnlyNamed_execDetect s
  | demod => exact writesOnlyNamed_execDemod s
  | encode => exact writesOnlyNamed_execEncode s
  | decode => exact writesOnlyNamed_execDecode s

end commands

/-- Settles O11: a completion keeps the inputs (`completes_exec`), and each command writes the results of its own row
(`writesOnlyNamed_exec`). -/
theorem commandsWriteOnlyWhatTheTableNames : Obligations.CommandsWriteOnlyWhatTheTableNames := by
  intro i s t h
  obtain ⟨hcmd, harg0, harg1, harg2, harg3, hbin, hsin, hparams, hinbox, hdata, hfree⟩ :=
    (completes_exec s i t h).sameInputs
  obtain ⟨hres0, hres1, hres2, hres3, hmag⟩ := writesOnlyNamed_exec s i t h
  exact ⟨⟨hcmd, harg0, harg1, harg2, harg3, hbin, hsin, hparams, hinbox, hdata, hfree⟩, hres0, hres1, hres2, hres3, hmag⟩

end Sys2Proof.Machine

/-!
PROOFS. The samples of a symbol in exact arithmetic (spec/30_encoding.md R60, spec/44_modulator.md R121, R122).
-/

namespace Sys2Proof.Machine

/-! ## The tone formula over the reals -/

/-- R121: the envelope of the machine is the one over the reals. -/
theorem env_eq_realEnv {i : Nat} (h : i ≤ 1322) : (env i : ℝ) = realEnv i := by
  unfold env realEnv
  rcases lt_or_ge i 132 with hrise | hrise
  · rw [if_pos (show i < rampLen from hrise), if_pos (by omega), rampLen]
    push_cast
    rfl
  · rw [if_neg (show ¬ i < rampLen from not_lt.mpr hrise), if_neg (show ¬ i ≤ 131 by omega)]
    split_ifs
    · exact Rat.cast_one
    · rw [rampLen]
      push_cast [h]
      rfl

theorem realEnv_nonneg {i : Nat} (h : i ≤ 1322) : 0 ≤ realEnv i := by
  have hi : (i : ℝ) ≤ 1322 := by exact_mod_cast h
  unfold realEnv
  split_ifs
  · positivity
  · exact zero_le_one
  · exact div_nonneg (by linarith) (by norm_num)

theorem realEnv_le_one (i : Nat) : realEnv i ≤ 1 := by
  unfold realEnv
  split_ifs with hrise hflat
  · have hi : (i : ℝ) ≤ 131 := by exact_mod_cast hrise
    rw [div_le_one (by norm_num)]
    linarith
  · exact le_rfl
  · have hi : (1191 : ℝ) ≤ i := by exact_mod_cast not_le.mp hflat
    rw [div_le_one (by norm_num)]
    linarith

theorem realEnv_first : realEnv 0 = 0 := by simp [realEnv]

theorem realEnv_last : realEnv 1322 = 0 := by norm_num [realEnv]

/-- R121: a sample is at most the amplitude 0.7 in size. -/
theorem abs_realTone_le (f : ℝ) {i : Nat} (h : i ≤ 1322) : |realTone f i| ≤ 0.7 := by
  rw [realTone, abs_mul, abs_mul, abs_of_nonneg (realEnv_nonneg h), abs_of_pos (by norm_num : (0 : ℝ) < 0.7)]
  have hsin := Real.abs_sin_le_one (2 * Real.pi * f * i / 44100)
  calc 0.7 * |Real.sin (2 * Real.pi * f * i / 44100)| * realEnv i
      ≤ 0.7 * 1 * 1 := by
        have := realEnv_nonneg h
        have := realEnv_le_one i
        gcongr
    _ = 0.7 := by norm_num

/-! ## The samples of the machine -/

/-- R60: every frequency is a multiple of 50 Hz, so no angle number is rounded (log entry 1). -/
theorem dvd_freq (t : Nat) : 50 ∣ freq t := by
  unfold freq
  split
  · decide
  · exact dvd_add (by decide) (dvd_mul_left _ _)

theorem angleNumber_mul {f : Nat} (hf : 50 ∣ f) (i : Nat) : 25 * angleNumber f i = f * i := by
  obtain ⟨k, rfl⟩ := hf
  have h : 50 * k * i * 1764 = 44100 * (2 * (k * i)) := by ring
  rw [angleNumber, sampleRate, h, Nat.mul_div_cancel_left _ (by norm_num)]
  ring

/-- The exact sine of the machine is the sine of the angle of R121. -/
theorem realOf_exact_sin {f : Nat} (hf : 50 ∣ f) (i : Nat) :
    realOf (exactArithmetic.sin f i) = Real.sin (2 * Real.pi * f * i / 44100) := by
  have hnum : (25 : ℝ) * angleNumber f i = f * i := by exact_mod_cast angleNumber_mul hf i
  rw [exactArithmetic, realOf_ofTrig, trigValue_sinTerm, Rat.cast_one, one_mul]
  congr 1
  linear_combination (Real.pi / 22050) * hnum

/-- R121 in exact arithmetic. -/
theorem realOf_toneSample {f i : Nat} (hf : 50 ∣ f) (h : i ≤ 1322) :
    realOf (toneSample exactArithmetic f i) = realTone f i := by
  have hconst (q : Rat) : realOf (exactArithmetic.const q) = q := by
    rw [exactArithmetic, realOf_ofTrig, trigValue_ofRat]
  have hmul (x y : Sample) : realOf (exactArithmetic.mul x y) = realOf x * realOf y := realOf_mul x y
  rw [toneSample, hmul, hmul, hconst, hconst, realOf_exact_sin hf, env_eq_realEnv h, realTone, amplitude]
  norm_num

/-- R60 over the reals. -/
theorem freq_cast (t : Nat) : (freq t : ℝ) = if t = 256 then 1000 else 2000 + 50 * (t : ℝ) := by
  unfold freq
  split
  · norm_num [syncFreq]
  · norm_num [baseFreq, freqSpacing, mul_comm]

theorem getElem?_symbol (A : Arithmetic) (t : Nat) {i : Nat} (h : i ≤ 1322) :
    (symbol A t)[i]? = some (toneSample A (freq t) i) := by
  have hi : i < symbolLen := Nat.lt_succ_of_le h
  rw [symbol, List.getElem?_map, List.getElem?_range hi, Option.map_some]

/-- Settles O38: the sample is computed in the reals (`realOf_toneSample`); the envelope bounds it and ends it. -/
theorem symbolSamplesAreTheToneFormula : Obligations.SymbolSamplesAreTheToneFormula := by
  intro t _ f hf i hi
  have hreal : realOf (toneSample exactArithmetic (freq t) i) = realTone f i := by
    rw [realOf_toneSample (dvd_freq t) hi, freq_cast, hf]
  refine ⟨_, getElem?_symbol _ t hi, hreal, hreal ▸ abs_realTone_le f hi, fun hend => ?_⟩
  rw [hreal, realTone]
  rcases hend with rfl | rfl
  · rw [realEnv_first, mul_zero]
  · rw [realEnv_last, mul_zero]

end Sys2Proof.Machine

/-!
PROOFS. GF(256) (spec/40_gf256.md R70 to R76): the tables list the powers of α, the product through the tables is the
product of polynomials modulo 0x11D, and the field laws follow.
-/

namespace Sys2Proof.Machine

/-! ## Exclusive-or in folds -/

/-- If each step takes the exclusive-or of two accumulators to the exclusive-or of two steps, so does the whole fold. -/
theorem foldl_xor {n : Nat} {β : Type} {f g h : BitVec n → β → BitVec n}
    (step : ∀ p q i, h (p ^^^ q) i = f p i ^^^ g q i) (l : List β) (p q : BitVec n) :
    l.foldl h (p ^^^ q) = l.foldl f p ^^^ l.foldl g q := by
  induction l generalizing p q with
  | nil => rfl
  | cons i l ih => rw [List.foldl_cons, List.foldl_cons, List.foldl_cons, step, ih]

/-- Adding `m` where exactly one of two conditions holds. -/
theorem ite_xor_add {n : Nat} (c d : Bool) (p q m : BitVec n) :
    (if (c ^^ d) = true then p ^^^ q ^^^ m else p ^^^ q) =
      (if c = true then p ^^^ m else p) ^^^ (if d = true then q ^^^ m else q) := by
  have twice : p ^^^ q = p ^^^ m ^^^ (q ^^^ m) := by
    calc p ^^^ q = p ^^^ q ^^^ (m ^^^ m) := by rw [BitVec.xor_self, BitVec.xor_zero]
      _ = p ^^^ m ^^^ (q ^^^ m) := by ac_rfl
  cases c with
  | false =>
    cases d with
    | false => rfl
    | true => exact BitVec.xor_assoc p q m
  | true =>
    cases d with
    | false =>
      show p ^^^ q ^^^ m = p ^^^ m ^^^ q
      ac_rfl
    | true => exact twice

/-- Adding a sum where one condition holds. -/
theorem ite_add_xor {n : Nat} (c : Bool) (p q m k : BitVec n) :
    (if c = true then p ^^^ q ^^^ (m ^^^ k) else p ^^^ q) =
      (if c = true then p ^^^ m else p) ^^^ (if c = true then q ^^^ k else q) := by
  cases c with
  | false => rfl
  | true =>
    show p ^^^ q ^^^ (m ^^^ k) = p ^^^ m ^^^ (q ^^^ k)
    ac_rfl

/-! ## Additive functions on bytes -/

/-- `f` takes the sum of the field, exclusive-or, to itself. -/
def XorAdditive (f : Byte → Byte) : Prop := ∀ a b, f (a ^^^ b) = f a ^^^ f b

theorem XorAdditive.zero {f : Byte → Byte} (hf : XorAdditive f) : f 0 = 0 := by
  have h := hf 0 0
  rwa [BitVec.xor_self, BitVec.xor_self] at h

theorem XorAdditive.comp {f g : Byte → Byte} (hf : XorAdditive f) (hg : XorAdditive g) :
    XorAdditive fun a => f (g a) := fun a b => (congrArg f (hg a b)).trans (hf (g a) (g b))

/-- The bits of `b` at the positions in `l`. -/
def bitsAt (l : List Nat) (b : Byte) : Byte :=
  l.foldr (fun i p => if b.getLsbD i then (1 : Byte) <<< i ^^^ p else p) 0

theorem bitsAt_range : ∀ b : Byte, bitsAt (List.range 8) b = b := by decide +kernel

/-- Additive functions that agree on the eight one-bit bytes are equal. -/
theorem XorAdditive.eq_of_bits {f g : Byte → Byte} (hf : XorAdditive f) (hg : XorAdditive g)
    (h : ∀ i < 8, f ((1 : Byte) <<< i) = g ((1 : Byte) <<< i)) (b : Byte) : f b = g b := by
  have agree (l : List Nat) (hl : ∀ i ∈ l, i < 8) : f (bitsAt l b) = g (bitsAt l b) := by
    induction l with
    | nil => exact hf.zero.trans hg.zero.symm
    | cons i l ih =>
      have ih := ih fun j hj => hl j (List.mem_cons_of_mem i hj)
      rw [bitsAt, List.foldr_cons, ← bitsAt]
      split
      · rw [hf, hg, ih, h i (hl i List.mem_cons_self)]
      · exact ih
  rw [← bitsAt_range b]
  exact agree _ fun i hi => List.mem_range.mp hi

/-! ## Shift and reduce (R70) -/

theorem carrylessProduct_xor_left (a b c : Byte) :
    carrylessProduct (a ^^^ b) c = carrylessProduct a c ^^^ carrylessProduct b c := by
  refine foldl_xor (fun p q i => ?_) _ 0 0
  rw [BitVec.setWidth_xor, BitVec.shiftLeft_xor_distrib, ite_add_xor]

theorem carrylessProduct_xor_right (a b c : Byte) :
    carrylessProduct a (b ^^^ c) = carrylessProduct a b ^^^ carrylessProduct a c := by
  refine foldl_xor (fun p q i => ?_) _ 0 0
  rw [BitVec.getLsbD_xor, ite_xor_add]

theorem reducePoly_xor (p q : BitVec 16) : reducePoly (p ^^^ q) = reducePoly p ^^^ reducePoly q := by
  rw [reducePoly, foldl_xor fun p q i => ?_, BitVec.setWidth_xor, ← reducePoly, ← reducePoly]
  rw [BitVec.getLsbD_xor, ite_xor_add]

theorem xorAdditive_shiftReduceMul_left (b : Byte) : XorAdditive fun a => shiftReduceMul a b := fun a c => by
  simp only [shiftReduceMul, carrylessProduct_xor_left, reducePoly_xor]

theorem xorAdditive_shiftReduceMul_right (a : Byte) : XorAdditive (shiftReduceMul a) := fun b c => by
  simp only [shiftReduceMul, carrylessProduct_xor_right, reducePoly_xor]

theorem shiftReduceMul_one : ∀ a : Byte, shiftReduceMul a 1 = a := by decide +kernel

/-- The step of R17 is multiplication by α. -/
theorem xtime_eq_shiftReduceMul : ∀ a : Byte, xtime a = shiftReduceMul a 2 := by decide +kernel

theorem xorAdditive_xtime : XorAdditive xtime := by
  rw [funext xtime_eq_shiftReduceMul]
  exact xorAdditive_shiftReduceMul_left 2

/-- A factor α moves out of the product: both sides are additive in `a` and in `b`, so 64 products decide it. -/
theorem shiftReduceMul_xtime (a b : Byte) : shiftReduceMul a (xtime b) = xtime (shiftReduceMul a b) := by
  have bits : ∀ i < 8, ∀ j < 8, shiftReduceMul ((1 : Byte) <<< i) (xtime ((1 : Byte) <<< j)) =
      xtime (shiftReduceMul ((1 : Byte) <<< i) ((1 : Byte) <<< j)) := by decide +kernel
  refine (xorAdditive_shiftReduceMul_left (xtime b)).eq_of_bits
    (xorAdditive_xtime.comp (xorAdditive_shiftReduceMul_left b)) (fun i hi => ?_) a
  exact ((xorAdditive_shiftReduceMul_right _).comp xorAdditive_xtime).eq_of_bits
    (xorAdditive_xtime.comp (xorAdditive_shiftReduceMul_right _)) (bits i hi) b

/-! ## The powers of α (R17) -/

/-- `α^i`: `i` steps of R17 from 1. -/
def alphaPow (i : Nat) : Byte := xtime^[i] 1

theorem alphaPow_succ (i : Nat) : alphaPow (i + 1) = xtime (alphaPow i) := Function.iterate_succ_apply' xtime i 1

/-- Multiplication by `α^i` is `i` steps. -/
theorem shiftReduceMul_alphaPow (a : Byte) (i : Nat) : shiftReduceMul a (alphaPow i) = xtime^[i] a := by
  induction i with
  | zero => exact shiftReduceMul_one a
  | succ i ih => rw [alphaPow_succ, shiftReduceMul_xtime, ih, Function.iterate_succ_apply']

/-- The exponents add up. -/
theorem shiftReduceMul_alphaPow_alphaPow (i j : Nat) :
    shiftReduceMul (alphaPow i) (alphaPow j) = alphaPow (i + j) := by
  rw [shiftReduceMul_alphaPow, alphaPow, alphaPow, ← Function.iterate_add_apply, Nat.add_comm]

theorem alphaPow_ne_zero (i : Nat) : alphaPow i ≠ 0 := by
  have hstep : ∀ a : Byte, xtime a = 0 → a = 0 := by decide +kernel
  induction i with
  | zero => decide
  | succ i ih => exact fun h => ih (hstep _ (alphaPow_succ i ▸ h))

/-- The order of α is 255: it divides 255 and none of 85, 51 and 15. -/
theorem minimalPeriod_xtime : Function.minimalPeriod xtime 1 = 255 := by
  have divisors : ∀ d ∈ Nat.divisors 255, d ∣ 85 ∨ d ∣ 51 ∨ d ∣ 15 ∨ d = 255 := by decide +kernel
  have apart {n : Nat} (hn : xtime^[n] 1 ≠ 1) : ¬ Function.minimalPeriod xtime 1 ∣ n := fun h =>
    hn ((Function.isPeriodicPt_minimalPeriod xtime 1).trans_dvd h)
  have hperiod : Function.IsPeriodicPt xtime 255 1 := by
    change xtime^[255] 1 = 1
    decide +kernel
  have hdvd := hperiod.minimalPeriod_dvd
  rcases divisors _ (Nat.mem_divisors.mpr ⟨hdvd, by decide⟩) with h | h | h | h
  · exact absurd h (apart (by decide +kernel))
  · exact absurd h (apart (by decide +kernel))
  · exact absurd h (apart (by decide +kernel))
  · exact h

theorem alphaPow_mod (i : Nat) : alphaPow (i % 255) = alphaPow i := by
  have h := Function.iterate_mod_minimalPeriod_eq (f := xtime) (x := 1) (n := i)
  rwa [minimalPeriod_xtime] at h

theorem alphaPow_add_255 (i : Nat) : alphaPow (i + 255) = alphaPow i := by
  rw [← alphaPow_mod, Nat.add_mod_right, alphaPow_mod]

theorem alphaPow_inj {i j : Nat} (hi : i < 255) (hj : j < 255) : alphaPow i = alphaPow j ↔ i = j := by
  rw [← minimalPeriod_xtime] at hi hj
  exact Function.iterate_eq_iterate_iff_of_lt_minimalPeriod hi hj

/-- R76: the 255 powers are the 255 nonzero bytes, because they differ. -/
theorem exists_alphaPow {v : Byte} (hv : v ≠ 0) : ∃ i < 255, alphaPow i = v := by
  have nonzero {a : Byte} (ha : a ≠ 0) : a.toNat ∈ Finset.Icc 1 255 := by
    have hlt := a.isLt
    have hne : a.toNat ≠ 0 := fun h => ha (BitVec.eq_of_toNat_eq h)
    exact Finset.mem_Icc.mpr ⟨by omega, by omega⟩
  have onto := Finset.surjOn_of_injOn_of_card_le (s := Finset.range 255) (t := Finset.Icc 1 255)
    (fun i => (alphaPow i).toNat) (fun i _ => nonzero (alphaPow_ne_zero i))
    (fun i hi j hj h => (alphaPow_inj (Finset.mem_range.mp hi) (Finset.mem_range.mp hj)).mp (BitVec.eq_of_toNat_eq h))
    (by simp)
  obtain ⟨i, hi, h⟩ := onto (nonzero hv)
  exact ⟨i, Finset.mem_range.mp hi, BitVec.eq_of_toNat_eq h⟩

/-! ## The tables (R17, R18) -/

theorem getElem?_powersFrom {n i : Nat} (x : Byte) (h : i < n) : (powersFrom n x)[i]? = some (xtime^[i] x) := by
  induction n generalizing i x with
  | zero => omega
  | succ n ih =>
    cases i with
    | zero => rfl
    | succ i => exact ih (xtime x) (by omega)

theorem length_powersFrom (n : Nat) (x : Byte) : (powersFrom n x).length = n := by
  induction n generalizing x with
  | zero => rfl
  | succ n ih => rw [powersFrom, List.length_cons, ih]

theorem length_expHalf : expHalf.length = 255 := length_powersFrom 255 1

theorem getElem?_expHalf {i : Nat} (h : i < 255) : expHalf[i]? = some (alphaPow i) := getElem?_powersFrom 1 h

/-- `EXP` lists the powers of α. -/
theorem expAt_eq_alphaPow {i : Nat} (h : i < 510) : expAt i = alphaPow i := by
  rw [expAt, expTable, List.getD_eq_getElem?_getD, List.getElem?_append, length_expHalf]
  split
  · next hlo => rw [getElem?_expHalf hlo, Option.getD_some]
  · next hhi =>
    obtain ⟨j, rfl⟩ : ∃ j, i = j + 255 := ⟨i - 255, by omega⟩
    rw [Nat.add_sub_cancel, getElem?_expHalf (by omega), Option.getD_some, alphaPow_add_255]

/-- `LOG` is the inverse of the powers of α. -/
theorem logAt_eq_some_iff {v : Byte} {i : Nat} : logAt v = some i ↔ i < 255 ∧ alphaPow i = v := by
  have entry (j : Nat) (hj : j < expHalf.length) : expHalf[j] = alphaPow j := by
    have h := getElem?_expHalf (length_expHalf ▸ hj)
    rwa [List.getElem?_eq_getElem hj, Option.some.injEq] at h
  rw [logAt, List.idxOf?_eq_some_iff]
  constructor
  · rintro ⟨hi, hv, -⟩
    exact ⟨length_expHalf ▸ hi, by rw [← entry i hi, hv]⟩
  · rintro ⟨hi, rfl⟩
    refine ⟨length_expHalf.symm ▸ hi, entry i _, fun j hj h => ?_⟩
    rw [entry, alphaPow_inj (by omega) hi] at h
    omega

theorem logAt_alphaPow {i : Nat} (h : i < 255) : logAt (alphaPow i) = some i := logAt_eq_some_iff.mpr ⟨h, rfl⟩

/-- R18: 0 has no logarithm. -/
theorem logAt_zero : logAt 0 = none :=
  Option.eq_none_iff_forall_ne_some.mpr fun i h => alphaPow_ne_zero i (logAt_eq_some_iff.mp h).2

theorem ne_zero_of_logAt {v : Byte} {i : Nat} (h : logAt v = some i) : v ≠ 0 := by
  rintro rfl
  rw [logAt_zero] at h
  cases h

theorem lt_of_logAt {v : Byte} {i : Nat} (h : logAt v = some i) : i < 255 := (logAt_eq_some_iff.mp h).1

theorem exists_logAt {v : Byte} (h : v ≠ 0) : ∃ i, logAt v = some i := by
  obtain ⟨i, hi⟩ := exists_alphaPow h
  exact ⟨i, logAt_eq_some_iff.mpr hi⟩

theorem expAt_of_logAt {v : Byte} {i : Nat} (h : logAt v = some i) : expAt i = v := by
  obtain ⟨hi, hv⟩ := logAt_eq_some_iff.mp h
  rw [expAt_eq_alphaPow (by omega), hv]

/-! ## The product (R71, R75, R76) -/

theorem gfMul_zero_left (b : Byte) : gfMul 0 b = 0 := if_pos (.inl rfl)

theorem gfMul_zero_right (a : Byte) : gfMul a 0 = 0 := if_pos (.inr rfl)

/-- The formula of R71. -/
theorem gfMul_of_logAt {a b : Byte} {i j : Nat} (ha : logAt a = some i) (hb : logAt b = some j) :
    gfMul a b = expAt (i + j) := by
  rw [gfMul, if_neg (not_or.mpr ⟨ne_zero_of_logAt ha, ne_zero_of_logAt hb⟩), ha, hb]

theorem gfMul_alphaPow {i j : Nat} (hi : i < 255) (hj : j < 255) :
    gfMul (alphaPow i) (alphaPow j) = alphaPow (i + j) := by
  rw [gfMul_of_logAt (logAt_alphaPow hi) (logAt_alphaPow hj), expAt_eq_alphaPow (by omega)]

/-- R70: "the two definitions agree". -/
theorem gfMul_eq_shiftReduceMul (a b : Byte) : gfMul a b = shiftReduceMul a b := by
  by_cases ha : a = 0
  · subst ha
    rw [gfMul_zero_left]
    exact (xorAdditive_shiftReduceMul_left b).zero.symm
  by_cases hb : b = 0
  · subst hb
    rw [gfMul_zero_right, (xorAdditive_shiftReduceMul_right a).zero]
  obtain ⟨i, hi, rfl⟩ := exists_alphaPow ha
  obtain ⟨j, hj, rfl⟩ := exists_alphaPow hb
  rw [gfMul_alphaPow hi hj, shiftReduceMul_alphaPow_alphaPow]

theorem gfMul_xor_right (a b c : Byte) : gfMul a (b ^^^ c) = gfMul a b ^^^ gfMul a c := by
  simp only [gfMul_eq_shiftReduceMul]
  exact xorAdditive_shiftReduceMul_right a b c

theorem gfMul_comm (a b : Byte) : gfMul a b = gfMul b a := by
  by_cases ha : a = 0
  · rw [ha, gfMul_zero_left, gfMul_zero_right]
  by_cases hb : b = 0
  · rw [hb, gfMul_zero_left, gfMul_zero_right]
  obtain ⟨i, hi⟩ := exists_logAt ha
  obtain ⟨j, hj⟩ := exists_logAt hb
  rw [gfMul_of_logAt hi hj, gfMul_of_logAt hj hi, Nat.add_comm]

theorem gfMul_one (a : Byte) : gfMul a 1 = a := by
  rw [gfMul_eq_shiftReduceMul, shiftReduceMul_one]

theorem one_gfMul (a : Byte) : gfMul 1 a = a := by
  rw [gfMul_comm, gfMul_one]

/-- A product with `α^i` is `i` steps of R17, and steps move out of a product. -/
theorem gfMul_assoc (a b c : Byte) : gfMul (gfMul a b) c = gfMul a (gfMul b c) := by
  have out (i : Nat) (x y : Byte) : shiftReduceMul x (xtime^[i] y) = xtime^[i] (shiftReduceMul x y) := by
    induction i with
    | zero => rfl
    | succ i ih => rw [Function.iterate_succ_apply', shiftReduceMul_xtime, ih, Function.iterate_succ_apply']
  by_cases hc : c = 0
  · rw [hc, gfMul_zero_right, gfMul_zero_right, gfMul_zero_right]
  obtain ⟨i, -, rfl⟩ := exists_alphaPow hc
  simp only [gfMul_eq_shiftReduceMul, shiftReduceMul_alphaPow, out]

/-! ## The quotient (R72, R75, R76) -/

theorem gfDiv_zero_right (a : Byte) : gfDiv a 0 = none := if_pos rfl

theorem gfDiv_zero_left {b : Byte} (hb : b ≠ 0) : gfDiv 0 b = some 0 := by
  rw [gfDiv, if_neg hb, if_pos rfl]

/-- The formula of R72. -/
theorem gfDiv_of_logAt {a b : Byte} {i j : Nat} (ha : logAt a = some i) (hb : logAt b = some j) :
    gfDiv a b = some (expAt ((i + 255 - j) % 255)) := by
  rw [gfDiv, if_neg (ne_zero_of_logAt hb), if_neg (ne_zero_of_logAt ha), ha, hb]

/-- Multiplication undoes division: the exponents `(i + 255 - j) mod 255` and `j` add up to `i` modulo 255. -/
theorem exists_gfDiv (a : Byte) {b : Byte} (hb : b ≠ 0) : ∃ q, gfDiv a b = some q ∧ gfMul q b = a := by
  by_cases ha : a = 0
  · subst ha
    exact ⟨0, gfDiv_zero_left hb, gfMul_zero_left b⟩
  obtain ⟨i, hi, rfl⟩ := exists_alphaPow ha
  obtain ⟨j, hj, rfl⟩ := exists_alphaPow hb
  have hk : (i + 255 - j) % 255 < 255 := Nat.mod_lt _ (by decide)
  have hsum : ((i + 255 - j) % 255 + j) % 255 = i := by omega
  refine ⟨_, gfDiv_of_logAt (logAt_alphaPow hi) (logAt_alphaPow hj), ?_⟩
  rw [expAt_eq_alphaPow (by omega), gfMul_alphaPow hk hj, ← alphaPow_mod, hsum]

theorem exists_gfDiv_one {a : Byte} (ha : a ≠ 0) : ∃ q, gfDiv 1 a = some q ∧ gfMul a q = 1 := by
  obtain ⟨q, hdiv, hmul⟩ := exists_gfDiv 1 ha
  exact ⟨q, hdiv, by rw [gfMul_comm, hmul]⟩

theorem gfMul_right_cancel {a b c : Byte} (hb : b ≠ 0) (h : gfMul a b = gfMul c b) : a = c := by
  obtain ⟨r, -, hr⟩ := exists_gfDiv_one hb
  calc a = gfMul (gfMul a b) r := by rw [gfMul_assoc, hr, gfMul_one]
    _ = gfMul (gfMul c b) r := by rw [h]
    _ = c := by rw [gfMul_assoc, hr, gfMul_one]

/-- Division undoes multiplication. -/
theorem gfDiv_gfMul (a : Byte) {b : Byte} (hb : b ≠ 0) : gfDiv (gfMul a b) b = some a := by
  obtain ⟨q, hdiv, hmul⟩ := exists_gfDiv (gfMul a b) hb
  rw [hdiv, gfMul_right_cancel hb hmul]

theorem gfDiv_self {b : Byte} (hb : b ≠ 0) : gfDiv b b = some 1 := by
  have h := gfDiv_gfMul 1 hb
  rwa [one_gfMul] at h

theorem gfDiv_one (a : Byte) : gfDiv a 1 = some a := by
  have h := gfDiv_gfMul a (b := 1) (by decide)
  rwa [gfMul_one] at h

/-! ## The laws of the field -/

/-- Settles O16. -/
theorem gfLawsOfTheSource : Obligations.GfLawsOfTheSource := by
  refine ⟨gfMul_comm, gfMul_one, gfMul_zero_right, fun a ha => exists_gfDiv_one ha, fun i hi => ?_⟩
  rw [expAt_eq_alphaPow (by omega), logAt_alphaPow (by omega)]

/-- Settles O17: the table product is that of R70 (`gfMul_eq_shiftReduceMul`), whose additivity is distributivity. -/
theorem gfIsAField : Obligations.GfIsAField := by
  refine ⟨gfMul_eq_shiftReduceMul, fun v i h => ⟨expAt_of_logAt h, Nat.le_of_lt_succ (lt_of_logAt h)⟩,
    fun v hv => exists_logAt hv, fun i hi => ?_, gfMul_assoc, gfMul_xor_right, fun a b hb => gfDiv_gfMul a hb⟩
  rw [expAt_eq_alphaPow (by omega), expAt_eq_alphaPow (by omega), alphaPow_add_255]

end Sys2Proof.Machine

/-!
PROOFS. The coefficients of a polynomial product (spec/40_gf256.md R73).
-/

namespace Sys2Proof.Machine

/-! ## Sums of the field -/

/-- The sum of `f i` for `i < n`. -/
def xorSum (n : Nat) (f : Nat → Byte) : Byte := ((List.range n).map f).foldl (· ^^^ ·) 0

theorem xorSum_zero (f : Nat → Byte) : xorSum 0 f = 0 := rfl

theorem xorSum_succ (n : Nat) (f : Nat → Byte) : xorSum (n + 1) f = xorSum n f ^^^ f n := by
  rw [xorSum, List.range_succ, List.map_append, List.foldl_append]
  rfl

theorem xorSum_congr {n : Nat} {f g : Nat → Byte} (h : ∀ i < n, f i = g i) : xorSum n f = xorSum n g := by
  rw [xorSum, xorSum, List.map_congr_left fun i hi => h i (List.mem_range.mp hi)]

/-- Terms that are 0 add nothing. -/
theorem xorSum_extend {m n : Nat} {f : Nat → Byte} (hmn : m ≤ n) (h : ∀ i, m ≤ i → f i = 0) :
    xorSum n f = xorSum m f := by
  induction n, hmn using Nat.le_induction with
  | base => rfl
  | succ n hn ih => rw [xorSum_succ, ih, h n hn, xor_zero]

/-- Two ranges outside of which the terms are 0 give the same sum. -/
theorem xorSum_eq_of_zero {m n : Nat} {f : Nat → Byte} (hm : ∀ i, m ≤ i → f i = 0) (hn : ∀ i, n ≤ i → f i = 0) :
    xorSum m f = xorSum n f := by
  rcases Nat.le_total m n with h | h
  · exact (xorSum_extend h hm).symm
  · exact xorSum_extend h hn

/-- R73: the coefficient of a product as a sum. -/
theorem productCoeff_eq_xorSum (a b : List Byte) (k : Nat) :
    productCoeff a b k = xorSum (k + 1) fun i => gfMul (a.getD i 0) (b.getD (k - i) 0) := rfl

/-! ## Adding into a list -/

theorem getD_xorAt {r : List Byte} {i : Nat} (v : Byte) (k : Nat) (hi : i < r.length) :
    (xorAt r i v).getD k 0 = r.getD k 0 ^^^ if i = k then v else 0 := by
  rw [xorAt, List.getD_eq_getElem?_getD, List.getElem?_set]
  by_cases h : i = k
  · subst h
    rw [if_pos rfl, if_pos hi, Option.getD_some, if_pos rfl]
  · rw [if_neg h, if_neg h, xor_zero, ← List.getD_eq_getElem?_getD]

/-- A row: the bytes `f 0`, `f 1`, … added from element `i` on. -/
theorem getD_foldl_xorAt {r : List Byte} {i n : Nat} (f : Nat → Byte) (k : Nat) (h : i + n ≤ r.length) :
    ((List.range n).foldl (fun r j => xorAt r (i + j) (f j)) r).getD k 0 =
      r.getD k 0 ^^^ if i ≤ k ∧ k < i + n then f (k - i) else 0 := by
  induction n with
  | zero => rw [if_neg (by omega), xor_zero]; rfl
  | succ n ih =>
    have hlen : ((List.range n).foldl (fun r j => xorAt r (i + j) (f j)) r).length = r.length :=
      length_foldl_of_keeps _ (fun r j => length_xorAt r _ _) _ _
    rw [List.range_succ, List.foldl_append, List.foldl_cons, List.foldl_nil, getD_xorAt _ _ (by omega), ih (by omega),
      BitVec.xor_assoc]
    congr 1
    by_cases hk : i + n = k
    · subst hk
      rw [if_neg (by omega), if_pos rfl, if_pos (by omega), zero_xor, Nat.add_sub_cancel_left]
    · rw [if_neg hk, xor_zero]
      exact if_congr (by omega) rfl rfl

/-! ## The product -/

/-- One row of R73: `a[i]` times `b`, added from element `i` on. -/
def polyRow (a b r : List Byte) (i : Nat) : List Byte :=
  (List.range b.length).foldl (fun r j => xorAt r (i + j) (gfMul (a.getD i 0) (b.getD j 0))) r

/-- The product is its rows, added to the zero polynomial. -/
theorem polyMul_eq_foldl_polyRow (a b : List Byte) :
    polyMul a b = (List.range a.length).foldl (polyRow a b) (List.replicate (a.length + b.length - 1) 0) := rfl

theorem length_polyRow (a b r : List Byte) (i : Nat) : (polyRow a b r i).length = r.length :=
  length_foldl_of_keeps _ (fun r _ => length_xorAt r _ _) _ _

/-- Past the end of `b` a row adds 0, so only `i ≤ k` matters. -/
theorem getD_polyRow {a b r : List Byte} {i : Nat} (k : Nat) (h : i + b.length ≤ r.length) :
    (polyRow a b r i).getD k 0 =
      r.getD k 0 ^^^ if i ≤ k then gfMul (a.getD i 0) (b.getD (k - i) 0) else 0 := by
  rw [polyRow, getD_foldl_xorAt _ _ h]
  congr 1
  by_cases hk : i ≤ k ∧ k < i + b.length
  · rw [if_pos hk, if_pos hk.1]
  · rw [if_neg hk]
    split
    · rw [List.getD_eq_default b _ (by omega), gfMul_zero_right]
    · rfl

theorem getD_foldl_polyRow {a b : List Byte} {n : Nat} (k : Nat) (hb : 0 < b.length) (hn : n ≤ a.length) :
    ((List.range n).foldl (polyRow a b) (List.replicate (a.length + b.length - 1) 0)).getD k 0 =
      xorSum n fun i => if i ≤ k then gfMul (a.getD i 0) (b.getD (k - i) 0) else 0 := by
  induction n with
  | zero =>
    rw [List.range_zero, List.foldl_nil, xorSum_zero, List.getD_eq_getElem?_getD,
      List.getElem?_getD_replicate_default_eq]
  | succ n ih =>
    have hlen := length_foldl_of_keeps _ (length_polyRow a b) (List.range n)
      (List.replicate (a.length + b.length - 1) 0)
    rw [List.length_replicate] at hlen
    rw [List.range_succ, List.foldl_append, List.foldl_cons, List.foldl_nil, xorSum_succ, getD_polyRow _ (by omega),
      ih (by omega)]

/-- R73: each element of the product is the coefficient. The rows of `a` and the indices up to `k` give the same sum,
because the terms past the end of `a` and those past `k` are 0. -/
theorem getElem?_polyMul {a b : List Byte} {k : Nat} (hb : 0 < b.length) (hk : k < a.length + b.length - 1) :
    (polyMul a b)[k]? = some (productCoeff a b k) := by
  have hlen : k < (polyMul a b).length := length_polyMul a b ▸ hk
  have hcoeff : (polyMul a b).getD k 0 = productCoeff a b k := by
    calc (polyMul a b).getD k 0
        = xorSum a.length fun i => if i ≤ k then gfMul (a.getD i 0) (b.getD (k - i) 0) else 0 := by
          rw [polyMul_eq_foldl_polyRow, getD_foldl_polyRow k hb le_rfl]
      _ = xorSum (k + 1) fun i => if i ≤ k then gfMul (a.getD i 0) (b.getD (k - i) 0) else 0 := by
          refine xorSum_eq_of_zero (fun i hi => ?_) fun i hi => if_neg (by omega)
          rw [List.getD_eq_default a _ hi, gfMul_zero_left, ite_self]
      _ = productCoeff a b k := by
          rw [productCoeff_eq_xorSum]
          exact xorSum_congr fun i hi => if_pos (by omega)
  rw [List.getElem?_eq_getElem hlen, ← hcoeff, List.getD_eq_getElem _ _ hlen]

end Sys2Proof.Machine

/-!
PROOFS. The commands of GF(256): `GFMUL`, `GFDIV` and `GFPMUL` (spec/40_gf256.md R71 to R73).
-/

namespace Sys2Proof.Machine

/-! ## The shared operations, one equation per outcome -/

/-- An input that fits and is written goes to the continuation (R30). -/
theorem withBin_of_readRun {n : Nat} {s : State} {bs : List Byte} (k : List Byte → Answer) (hcap : n ≤ s.params.binCap)
    (h : readRun s.bin 0 n = some bs) : withBin n s k = k bs := by
  rw [withBin, if_neg (Nat.not_lt.mpr hcap), h]

/-- An input that does not fit is `E_CAP` (R55). -/
theorem withBin_of_cap_lt {n : Nat} {s : State} (k : List Byte → Answer) (hcap : s.params.binCap < n) :
    withBin n s k = fail .cap s := if_pos hcap

/-- An input with an unwritten element is the fault of R190. -/
theorem withBin_of_unwritten {n a : Nat} {s : State} (k : List Byte → Answer) (hcap : n ≤ s.params.binCap)
    (ha : a < n) (h : readElem s.bin a = none) : withBin n s k = .fault (.unwrittenElement .bin) := by
  have hrun : readRun s.bin 0 n = none := readRun_eq_none s.bin 0 n a ha (by rwa [Nat.zero_add])
  rw [withBin, if_neg (Nat.not_lt.mpr hcap), hrun]

/-- Bytes that fit are committed (R36). -/
theorem commitBytes_of_le {out : List Byte} {s : State} (t : State) (h : out.length ≤ s.params.boutCap) :
    commitBytes out s t = succeed { t with bout := writeRun t.bout 0 out } := if_neg (Nat.not_lt.mpr h)

/-- The byte of a register that holds one (R71). -/
theorem byteOperand_setWidth (a : Byte) : byteOperand (a.setWidth 32) = some a := by
  have hle : (a.setWidth 32).toNat ≤ 255 := by
    have := a.isLt
    rw [BitVec.toNat_setWidth]
    omega
  rw [byteOperand, if_pos hle, BitVec.setWidth_setWidth_of_le a (by decide), BitVec.setWidth_eq]

/-- R71, R72: an operand above 255 is no byte. -/
theorem byteOperand_of_gt {w : Word} (h : 255 < w.toNat) : byteOperand w = none := if_neg (Nat.not_le.mpr h)

/-! ## `GFMUL` (R71) -/

theorem execGfmul_of_bytes {s : State} {a b : Byte} (ha : s.arg0 = a.setWidth 32) (hb : s.arg1 = b.setWidth 32) :
    execGfmul s = succeed { s with res0 := byteWord (gfMul a b) } := by
  rw [execGfmul, ha, hb, byteOperand_setWidth, byteOperand_setWidth]

theorem execGfmul_of_gt {s : State} (h : 255 < s.arg0.toNat ∨ 255 < s.arg1.toNat) : execGfmul s = fail .arg s := by
  rcases h with h | h
  · rw [execGfmul, byteOperand_of_gt h]
  · rw [execGfmul, byteOperand_of_gt h]
    cases byteOperand s.arg0 <;> rfl

/-- Settles O13. -/
theorem gfmulWritesTheFieldProduct : Obligations.GfmulWritesTheFieldProduct := by
  refine ⟨fun s a b ha hb => execGfmul_of_bytes ha hb, fun s h => execGfmul_of_gt h, rfl,
    fun a => ⟨gfMul_zero_right a, gfMul_zero_left a, gfMul_one a⟩, fun a b i j ha hb => ?_, gfMul_comm, logAt_zero,
    by decide +kernel, by decide +kernel, by decide +kernel⟩
  have hi := lt_of_logAt ha
  have hj := lt_of_logAt hb
  exact ⟨gfMul_of_logAt ha hb, by omega⟩

/-! ## `GFDIV` (R72) -/

theorem execGfdiv_of_zero {s : State} {a : Byte} (ha : s.arg0 = a.setWidth 32) (hb : s.arg1 = (0 : Byte).setWidth 32) :
    execGfdiv s = fail .div0 s := by
  rw [execGfdiv, ha, hb, byteOperand_setWidth, byteOperand_setWidth]
  dsimp only
  rw [gfDiv_zero_right]

theorem execGfdiv_of_quotient {s : State} {a b q : Byte} (ha : s.arg0 = a.setWidth 32) (hb : s.arg1 = b.setWidth 32)
    (hq : gfDiv a b = some q) : execGfdiv s = succeed { s with res0 := byteWord q } := by
  rw [execGfdiv, ha, hb, byteOperand_setWidth, byteOperand_setWidth]
  dsimp only
  rw [hq]

theorem execGfdiv_of_gt {s : State} (h : 255 < s.arg0.toNat ∨ 255 < s.arg1.toNat) : execGfdiv s = fail .arg s := by
  rcases h with h | h
  · rw [execGfdiv, byteOperand_of_gt h]
  · rw [execGfdiv, byteOperand_of_gt h]
    cases byteOperand s.arg0 <;> rfl

/-- Settles O14. -/
theorem gfdivWritesTheQuotient : Obligations.GfdivWritesTheQuotient := by
  refine ⟨fun s a b ha hb => ⟨fun h => ?_, fun h => ?_⟩, fun s h => execGfdiv_of_gt h, rfl,
    fun a b i j ha hb => gfDiv_of_logAt ha hb, fun b hb => ⟨gfDiv_zero_left hb, gfDiv_self hb⟩, gfDiv_one,
    by decide +kernel, by decide +kernel, gfDiv_zero_left (by decide)⟩
  · subst h
    exact execGfdiv_of_zero ha hb
  · obtain ⟨q, hdiv, hmul⟩ := exists_gfDiv a h
    exact ⟨q, hdiv, hmul, execGfdiv_of_quotient ha hb hdiv⟩

/-! ## `GFPMUL` (R73) -/

theorem toNat_ne_zero {w : Word} (h : w ≠ 0) : w.toNat ≠ 0 := BitVec.toNat_ne_iff_ne.mpr h

/-- An empty operand is `E_ARG`. -/
theorem execGfpmul_of_empty {s : State} (h : s.arg0 = 0 ∨ s.arg1 = 0) : execGfpmul s = fail .arg s :=
  if_pos (h.imp (congrArg BitVec.toNat) (congrArg BitVec.toNat))

theorem execGfpmul_of_bout_lt {s : State} (h0 : s.arg0.toNat ≠ 0) (h1 : s.arg1.toNat ≠ 0)
    (hcap : s.params.boutCap < s.arg0.toNat + s.arg1.toNat - 1) : execGfpmul s = fail .cap s :=
  (if_neg (not_or.mpr ⟨h0, h1⟩)).trans (if_pos hcap)

/-- Operands of at least one byte whose product fits are read from `BIN`. -/
theorem execGfpmul_of_bout_le {s : State} (h0 : s.arg0.toNat ≠ 0) (h1 : s.arg1.toNat ≠ 0)
    (hcap : s.arg0.toNat + s.arg1.toNat - 1 ≤ s.params.boutCap) :
    execGfpmul s = withBin (s.arg0.toNat + s.arg1.toNat) s fun bs =>
      commitBytes (polyMul (bs.take s.arg0.toNat) (bs.drop s.arg0.toNat)) s
        { s with res0 := lenWord (s.arg0.toNat + s.arg1.toNat - 1) } :=
  (if_neg (not_or.mpr ⟨h0, h1⟩)).trans (if_neg (Nat.not_lt.mpr hcap))

theorem execGfpmul_of_operands {s : State} {a b : List Byte} (ha : 0 < a.length) (hb : 0 < b.length)
    (h0 : s.arg0.toNat = a.length) (h1 : s.arg1.toNat = b.length) (hbin : a.length + b.length ≤ s.params.binCap)
    (hbout : a.length + b.length - 1 ≤ s.params.boutCap)
    (hrun : readRun s.bin 0 (a.length + b.length) = some (a ++ b)) :
    execGfpmul s = succeed { s with
      bout := writeRun s.bout 0 (polyMul a b)
      res0 := lenWord (a.length + b.length - 1) } := by
  rw [execGfpmul_of_bout_le (by omega) (by omega) (by omega), h0, h1, withBin_of_readRun _ hbin hrun, List.take_left,
    List.drop_left, commitBytes_of_le _ (by rwa [length_polyMul])]

/-- Settles O15: the coefficients are those of `getElem?_polyMul`. -/
theorem gfpmulWritesTheConvolution : Obligations.GfpmulWritesTheConvolution := by
  refine ⟨fun s a b ha hb h0 h1 hbin hbout hrun => ⟨length_polyMul a b, fun k hk => getElem?_polyMul hb hk,
      execGfpmul_of_operands ha hb h0 h1 hbin hbout hrun⟩,
    fun s h => execGfpmul_of_empty h, fun s h0 h1 hcap => ?_, fun s a h0 h1 hbin hbout ha hnone => ?_, rfl,
    by decide +kernel, by decide +kernel, by decide +kernel, by decide +kernel⟩
  · change execGfpmul s = fail .cap s
    rcases Nat.lt_or_ge s.params.boutCap (s.arg0.toNat + s.arg1.toNat - 1) with hbout | hbout
    · exact execGfpmul_of_bout_lt (toNat_ne_zero h0) (toNat_ne_zero h1) hbout
    · rw [execGfpmul_of_bout_le (toNat_ne_zero h0) (toNat_ne_zero h1) hbout]
      exact withBin_of_cap_lt _ (by omega)
  · change execGfpmul s = _
    rw [execGfpmul_of_bout_le (toNat_ne_zero h0) (toNat_ne_zero h1) hbout]
    exact withBin_of_unwritten _ hbin ha hnone

end Sys2Proof.Machine

/-!
PROOFS. The Reed–Solomon code (spec/41_reed_solomon.md R85 to R92): every codeword vanishes at the 32 roots of the
generator, the encoder is linear, and a word that vanishes at as many consecutive powers of α as it has places that may
be nonzero is zero.
-/

namespace Sys2Proof.Machine

/-! ## Words of bytes -/

/-- Two words of one length are equal when they agree byte by byte. -/
theorem eq_of_getD {a b : List Byte} (hlen : a.length = b.length) (h : ∀ k, a.getD k 0 = b.getD k 0) : a = b := by
  refine List.ext_getElem hlen fun k ha hb => ?_
  rw [← List.getD_eq_getElem a 0 ha, h k, List.getD_eq_getElem b 0 hb]

theorem length_xorBytes {a b : List Byte} (h : a.length = b.length) : (xorBytes a b).length = a.length := by
  rw [xorBytes, List.length_zipWith, ← h, Nat.min_self]

theorem getD_xorBytes {a b : List Byte} (h : a.length = b.length) (k : Nat) :
    (xorBytes a b).getD k 0 = a.getD k 0 ^^^ b.getD k 0 := by
  rcases Nat.lt_or_ge k a.length with hk | hk
  · rw [List.getD_eq_getElem _ _ (by rwa [length_xorBytes h]), List.getD_eq_getElem _ _ hk,
      List.getD_eq_getElem _ _ (h ▸ hk)]
    exact List.getElem_zipWith
  · rw [List.getD_eq_default _ _ (by rwa [length_xorBytes h]), List.getD_eq_default _ _ hk,
      List.getD_eq_default _ _ (h ▸ hk), xor_zero]

theorem getD_replicate_zero (n k : Nat) : (List.replicate n (0 : Byte)).getD k 0 = 0 := by
  rw [List.getD_eq_getElem?_getD, List.getElem?_getD_replicate_default_eq]

/-- A word followed by zeros reads as the word alone. -/
theorem getD_append_replicate_zero (a : List Byte) (n k : Nat) :
    (a ++ List.replicate n 0).getD k 0 = a.getD k 0 := by
  rcases Nat.lt_or_ge k a.length with hk | hk
  · rw [List.getD_append _ _ _ _ hk]
  · rw [List.getD_append_right _ _ _ _ hk, getD_replicate_zero, List.getD_eq_default _ _ hk]

/-! ## Sums of the field -/

theorem gfMul_xor_left (a b c : Byte) : gfMul (a ^^^ b) c = gfMul a c ^^^ gfMul b c := by
  rw [gfMul_comm, gfMul_xor_right, gfMul_comm c a, gfMul_comm c b]

/-- The exponents add up, without a bound on them. -/
theorem gfMul_alphaPow_add (i j : Nat) : gfMul (alphaPow i) (alphaPow j) = alphaPow (i + j) := by
  rw [gfMul_eq_shiftReduceMul, shiftReduceMul_alphaPow_alphaPow]

theorem xorSum_eq_zero {n : Nat} {f : Nat → Byte} (h : ∀ i < n, f i = 0) : xorSum n f = 0 := by
  induction n with
  | zero => rfl
  | succ n ih => rw [xorSum_succ, ih fun i hi => h i (by omega), h n (by omega), xor_zero]

theorem xorSum_xor (n : Nat) (f g : Nat → Byte) :
    xorSum n (fun i => f i ^^^ g i) = xorSum n f ^^^ xorSum n g := by
  induction n with
  | zero => exact (xor_zero 0).symm
  | succ n ih =>
    rw [xorSum_succ, xorSum_succ, xorSum_succ, ih]
    ac_rfl

theorem gfMul_xorSum (n : Nat) (f : Nat → Byte) (c : Byte) :
    gfMul (xorSum n f) c = xorSum n fun i => gfMul (f i) c := by
  induction n with
  | zero => exact gfMul_zero_left c
  | succ n ih => rw [xorSum_succ, xorSum_succ, gfMul_xor_left, ih]

/-- A sum with one nonzero term is that term. -/
theorem xorSum_eq_single {n i : Nat} {f : Nat → Byte} (hi : i < n) (h : ∀ k < n, k ≠ i → f k = 0) :
    xorSum n f = f i := by
  induction n with
  | zero => omega
  | succ n ih =>
    rw [xorSum_succ]
    by_cases hn : i = n
    · subst hn
      rw [xorSum_eq_zero fun k hk => h k (by omega) (by omega), zero_xor]
    · rw [h n (by omega) (Ne.symm hn), xor_zero]
      exact ih (by omega) fun k hk => h k (by omega)

/-! ## The value of a word (R85) -/

/-- Byte `k` of a word of `n` bytes is the coefficient of degree `n - 1 - k`. -/
theorem polyEval_alphaPow (c : List Byte) (t : Nat) :
    polyEval c (alphaPow t) = xorSum c.length fun k => gfMul (c.getD k 0) (alphaPow (t * (c.length - 1 - k))) := by
  induction c using List.reverseRecOn with
  | nil => rfl
  | append_singleton c b ih =>
    have hlast : gfMul ((c ++ [b]).getD c.length 0) (alphaPow (t * (c.length - c.length))) = b := by
      rw [List.getD_append_right _ _ _ _ le_rfl, Nat.sub_self, Nat.mul_zero]
      exact gfMul_one b
    have hrest : ∀ k < c.length, gfMul (gfMul (c.getD k 0) (alphaPow (t * (c.length - 1 - k)))) (alphaPow t) =
        gfMul ((c ++ [b]).getD k 0) (alphaPow (t * (c.length - k))) := by
      intro k hk
      rw [List.getD_append _ _ _ _ hk, gfMul_assoc, gfMul_alphaPow_add, ← Nat.mul_succ,
        show (c.length - 1 - k).succ = c.length - k by omega]
    calc polyEval (c ++ [b]) (alphaPow t)
        = gfMul (polyEval c (alphaPow t)) (alphaPow t) ^^^ b := by
          rw [polyEval, List.foldl_append]
          rfl
      _ = _ := by
          rw [ih, gfMul_xorSum, xorSum_congr hrest, List.length_append, List.length_singleton, xorSum_succ,
            Nat.add_sub_cancel, hlast]

/-- R87: values add up. -/
theorem polyEval_xorBytes {a b : List Byte} (h : a.length = b.length) (t : Nat) :
    polyEval (xorBytes a b) (alphaPow t) = polyEval a (alphaPow t) ^^^ polyEval b (alphaPow t) := by
  simp only [polyEval_alphaPow, length_xorBytes h, getD_xorBytes h, gfMul_xor_left, xorSum_xor, h]

/-- Leading zeros do not count. -/
theorem polyEval_zeros_append (n : Nat) (a : List Byte) (x : Byte) :
    polyEval (List.replicate n 0 ++ a) x = polyEval a x := by
  induction n with
  | zero => rfl
  | succ n ih =>
    rw [← ih, List.replicate_succ, List.cons_append, polyEval, List.foldl_cons, gfMul_zero_left, xor_zero]
    rfl

/-- Zeros at the end keep a root. -/
theorem polyEval_append_zeros {a : List Byte} {x : Byte} (n : Nat) (h : polyEval a x = 0) :
    polyEval (a ++ List.replicate n 0) x = 0 := by
  have hzeros := polyEval_zeros_append n [] x
  rw [List.append_nil] at hzeros
  rw [polyEval, List.foldl_append, ← polyEval, h]
  exact hzeros

/-- A factor moves out of the value. -/
theorem polyEval_map_gfMul (a : List Byte) (c x : Byte) :
    polyEval (a.map fun b => gfMul b c) x = gfMul (polyEval a x) c := by
  induction a using List.reverseRecOn with
  | nil => exact (gfMul_zero_left c).symm
  | append_singleton a b ih =>
    simp only [polyEval, List.map_append, List.foldl_append, List.map_cons, List.map_nil, List.foldl_cons,
      List.foldl_nil] at ih ⊢
    rw [ih, gfMul_xor_left, gfMul_assoc, gfMul_comm c x, ← gfMul_assoc]

/-! ## One round of the division (R87) -/

/-- The generator times `c`, from place `i` of a word of `n` bytes on. -/
def generatorRow (n i : Nat) (c : Byte) : List Byte :=
  List.replicate i 0 ++ (genTable.map fun g => gfMul g c) ++ List.replicate (n - (i + 33)) 0

theorem length_genTable : genTable.length = 33 := by
  rw [genTable_eq]
  rfl

theorem length_generatorRow {n i : Nat} (c : Byte) (h : i + 33 ≤ n) : (generatorRow n i c).length = n := by
  simp only [generatorRow, List.length_append, List.length_replicate, List.length_map, length_genTable]
  omega

theorem getD_generatorRow (n i k : Nat) (c : Byte) :
    (generatorRow n i c).getD k 0 = if i ≤ k ∧ k < i + 33 then gfMul (genTable.getD (k - i) 0) c else 0 := by
  rw [generatorRow, getD_append_replicate_zero]
  by_cases hlo : i ≤ k
  · rw [List.getD_append_right _ _ _ _ (by rwa [List.length_replicate]), List.length_replicate]
    by_cases hhi : k < i + 33
    · have hk : k - i < genTable.length := by
        rw [length_genTable]
        omega
      rw [if_pos ⟨hlo, hhi⟩, List.getD_eq_getElem _ _ (by rwa [List.length_map]), List.getElem_map,
        List.getD_eq_getElem _ _ hk]
    · rw [if_neg (by omega), List.getD_eq_default]
      rw [List.length_map, length_genTable]
      omega
  · rw [if_neg (by omega), List.getD_append _ _ _ _ (by rw [List.length_replicate]; omega), getD_replicate_zero]

/-- A row is a multiple of the generator, so it has its 32 roots. -/
theorem polyEval_generatorRow (n i : Nat) (c : Byte) {t : Nat} (ht : t ≤ 31) :
    polyEval (generatorRow n i c) (alphaPow t) = 0 := by
  have hroot : polyEval genTable (alphaPow t) = 0 := by
    rw [← expAt_eq_alphaPow (by omega)]
    exact polyEval_genTable_of_le ht
  refine polyEval_append_zeros _ ?_
  rw [polyEval_zeros_append, polyEval_map_gfMul, hroot, gfMul_zero_left]

/-- A round adds a row, the zero row included. -/
theorem rsRound_eq_xorBytes {r : List Byte} {i : Nat} (h : i + 33 ≤ r.length) :
    rsRound r i = xorBytes r (generatorRow r.length i (r.getD i 0)) := by
  have hrow := length_generatorRow (r.getD i 0) h
  refine eq_of_getD (by rw [length_rsRound, length_xorBytes hrow.symm]) fun k => ?_
  rw [getD_xorBytes hrow.symm, getD_generatorRow, rsRound]
  split
  · next hzero => rw [hzero, gfMul_zero_right, ite_self, xor_zero]
  · exact getD_foldl_xorAt (fun j => gfMul (genTable.getD j 0) (r.getD i 0)) k h

/-- A round keeps the value at a root of the generator. -/
theorem polyEval_rsRound {r : List Byte} {i t : Nat} (h : i + 33 ≤ r.length) (ht : t ≤ 31) :
    polyEval (rsRound r i) (alphaPow t) = polyEval r (alphaPow t) := by
  rw [rsRound_eq_xorBytes h, polyEval_xorBytes (length_generatorRow _ h).symm, polyEval_generatorRow _ _ _ ht, xor_zero]

/-- The generator is monic, so round `i` clears byte `i`. -/
theorem getD_rsRound_self {r : List Byte} {i : Nat} (h : i + 33 ≤ r.length) : (rsRound r i).getD i 0 = 0 := by
  have hmonic : genTable.getD 0 0 = 1 := by
    rw [genTable_eq]
    rfl
  rw [rsRound_eq_xorBytes h, getD_xorBytes (length_generatorRow _ h).symm, getD_generatorRow, if_pos (by omega),
    Nat.sub_self, hmonic, one_gfMul, BitVec.xor_self]
  rfl

theorem getD_rsRound_of_lt {r : List Byte} {i k : Nat} (h : i + 33 ≤ r.length) (hk : k < i) :
    (rsRound r i).getD k 0 = r.getD k 0 := by
  rw [rsRound_eq_xorBytes h, getD_xorBytes (length_generatorRow _ h).symm, getD_generatorRow, if_neg (by omega),
    xor_zero]

/-- R87: a round is linear, because a row is linear in its factor. -/
theorem rsRound_xorBytes {a b : List Byte} {i : Nat} (hlen : a.length = b.length) (h : i + 33 ≤ a.length) :
    rsRound (xorBytes a b) i = xorBytes (rsRound a i) (rsRound b i) := by
  have hb : i + 33 ≤ b.length := hlen ▸ h
  have hab : i + 33 ≤ (xorBytes a b).length := by rwa [length_xorBytes hlen]
  have hround : (rsRound a i).length = (rsRound b i).length := by rw [length_rsRound, length_rsRound, hlen]
  refine eq_of_getD (by rw [length_rsRound, length_xorBytes hlen, length_xorBytes hround, length_rsRound]) fun k => ?_
  rw [getD_xorBytes hround, rsRound_eq_xorBytes hab, rsRound_eq_xorBytes h, rsRound_eq_xorBytes hb,
    getD_xorBytes (length_generatorRow _ hab).symm, getD_xorBytes (length_generatorRow _ h).symm,
    getD_xorBytes (length_generatorRow _ hb).symm, getD_xorBytes hlen, getD_xorBytes hlen]
  simp only [getD_generatorRow]
  split
  · rw [gfMul_xor_right]
    ac_rfl
  · simp only [xor_zero]

/-! ## All rounds (R87) -/

/-- The first `n` rounds. -/
def rsRounds (r : List Byte) (n : Nat) : List Byte := (List.range n).foldl rsRound r

theorem rsDivide_eq_rsRounds (m : List Byte) : rsDivide m = rsRounds (m ++ List.replicate 32 0) 223 := rfl

theorem rsRounds_succ (r : List Byte) (n : Nat) : rsRounds r (n + 1) = rsRound (rsRounds r n) n := by
  rw [rsRounds, List.range_succ, List.foldl_append]
  rfl

theorem length_rsRounds (r : List Byte) (n : Nat) : (rsRounds r n).length = r.length :=
  length_foldl_of_keeps _ length_rsRound _ r

theorem polyEval_rsRounds {r : List Byte} {n t : Nat} (h : n + 32 ≤ r.length) (ht : t ≤ 31) :
    polyEval (rsRounds r n) (alphaPow t) = polyEval r (alphaPow t) := by
  induction n with
  | zero => rfl
  | succ n ih => rw [rsRounds_succ, polyEval_rsRound (by rw [length_rsRounds]; omega) ht, ih (by omega)]

/-- After `n` rounds the first `n` bytes are 0. -/
theorem getD_rsRounds_of_lt {r : List Byte} {n k : Nat} (h : n + 32 ≤ r.length) (hk : k < n) :
    (rsRounds r n).getD k 0 = 0 := by
  induction n with
  | zero => omega
  | succ n ih =>
    have hn : n + 33 ≤ (rsRounds r n).length := by
      rw [length_rsRounds]
      omega
    rw [rsRounds_succ]
    rcases Nat.lt_succ_iff_lt_or_eq.mp hk with hlt | rfl
    · rw [getD_rsRound_of_lt hn hlt, ih (by omega) hlt]
    · exact getD_rsRound_self hn

theorem rsRounds_xorBytes {a b : List Byte} {n : Nat} (hlen : a.length = b.length) (h : n + 32 ≤ a.length) :
    rsRounds (xorBytes a b) n = xorBytes (rsRounds a n) (rsRounds b n) := by
  induction n with
  | zero => rfl
  | succ n ih =>
    rw [rsRounds_succ, rsRounds_succ, rsRounds_succ, ih (by omega),
      rsRound_xorBytes (by rw [length_rsRounds, length_rsRounds, hlen]) (by rw [length_rsRounds]; omega)]

/-! ## The encoder (R85, R87) -/

theorem take_rsEncodeBlock {m : List Byte} (h : m.length = 223) : (rsEncodeBlock m).take 223 = m :=
  List.take_left' h

theorem drop_rsEncodeBlock {m : List Byte} (h : m.length = 223) : (rsEncodeBlock m).drop 223 = (rsDivide m).drop 223 :=
  List.drop_left' h

/-- The length of a message times `x^32`. -/
theorem length_append_zeros {m : List Byte} (h : m.length = 223) :
    (m ++ List.replicate 32 (0 : Byte)).length = 255 := by
  rw [List.length_append, h, List.length_replicate]

/-- A codeword is the shifted message plus its remainder. -/
theorem rsEncodeBlock_eq_xorBytes {m : List Byte} (h : m.length = 223) :
    rsEncodeBlock m = xorBytes (m ++ List.replicate 32 0) (rsDivide m) := by
  have hpad := length_append_zeros h
  have hlen : (m ++ List.replicate 32 (0 : Byte)).length = (rsDivide m).length := by rw [hpad, length_rsDivide, h]
  refine eq_of_getD (by rw [length_rsEncodeBlock m h, length_xorBytes hlen, hpad]) fun k => ?_
  rw [getD_xorBytes hlen, getD_append_replicate_zero, rsEncodeBlock]
  rcases Nat.lt_or_ge k 223 with hk | hk
  · rw [List.getD_append _ _ _ _ (h ▸ hk), rsDivide_eq_rsRounds, getD_rsRounds_of_lt (by rw [hpad]) hk, xor_zero]
  · rw [List.getD_append_right _ _ _ _ (h ▸ hk), List.getD_eq_default m _ (h ▸ hk), zero_xor, h]
    simp only [List.getD_eq_getElem?_getD, List.getElem?_drop, rsK, show 223 + (k - 223) = k by omega]

/-- R85: the remainder has the value of the shifted message at each root, so their sum is 0 there. -/
theorem polyEval_rsEncodeBlock {m : List Byte} (h : m.length = 223) {t : Nat} (ht : t ≤ 31) :
    polyEval (rsEncodeBlock m) (alphaPow t) = 0 := by
  have hpad := length_append_zeros h
  rw [rsEncodeBlock_eq_xorBytes h, polyEval_xorBytes (by rw [hpad, length_rsDivide, h]), rsDivide_eq_rsRounds,
    polyEval_rsRounds (by rw [hpad]) ht, BitVec.xor_self]
  rfl

/-- Settles O24. -/
theorem codewordsVanishAtTheRoots : Obligations.CodewordsVanishAtTheRoots := by
  intro m hm t ht
  rw [expAt_eq_alphaPow (by omega)]
  exact polyEval_rsEncodeBlock hm ht

theorem rsDivide_xorBytes {a b : List Byte} (ha : a.length = 223) (hb : b.length = 223) :
    rsDivide (xorBytes a b) = xorBytes (rsDivide a) (rsDivide b) := by
  have hpad : xorBytes a b ++ List.replicate 32 0 =
      xorBytes (a ++ List.replicate 32 0) (b ++ List.replicate 32 0) := by
    rw [xorBytes, xorBytes, List.zipWith_append (ha.trans hb.symm)]
    rfl
  simp only [rsDivide_eq_rsRounds]
  rw [hpad, rsRounds_xorBytes] <;> simp [ha, hb]

/-- Settles O25: the remainder is linear. -/
theorem encoderIsLinear : Obligations.EncoderIsLinear := by
  intro a b ha hb
  have hdrop : (xorBytes (rsDivide a) (rsDivide b)).drop rsK =
      xorBytes ((rsDivide a).drop rsK) ((rsDivide b).drop rsK) := List.drop_zipWith
  rw [rsEncodeBlock, rsDivide_xorBytes ha hb, hdrop]
  exact (List.zipWith_append (ha.trans hb.symm)).symm

/-! ## Words with few nonzero bytes (R92) -/

/-- The value at `α^t` of the word of 255 bytes `f`. -/
def wordSum (f : Nat → Byte) (t : Nat) : Byte := xorSum 255 fun k => gfMul (f k) (alphaPow (t * (254 - k)))

theorem polyEval_eq_wordSum {c : List Byte} (h : c.length = 255) (t : Nat) :
    polyEval c (alphaPow t) = wordSum (fun k => c.getD k 0) t := by
  rw [polyEval_alphaPow, h]
  rfl

/-- Multiplying byte `k` by `α^(254 - k) + α^(254 - p)` cancels byte `p` and no other nonzero byte. -/
def cancelPlace (p : Nat) (f : Nat → Byte) (k : Nat) : Byte :=
  gfMul (f k) (alphaPow (254 - k) ^^^ alphaPow (254 - p))

theorem cancelPlace_self (p : Nat) (f : Nat → Byte) : cancelPlace p f p = 0 := by
  rw [cancelPlace, BitVec.xor_self]
  exact gfMul_zero_right _

theorem cancelPlace_eq_zero_iff {p k : Nat} {f : Nat → Byte} (hk : k < 255) (hp : p < 255) (hne : k ≠ p) :
    cancelPlace p f k = 0 ↔ f k = 0 := by
  refine ⟨fun h => ?_, fun h => by rw [cancelPlace, h, gfMul_zero_left]⟩
  have hfactor : alphaPow (254 - k) ^^^ alphaPow (254 - p) ≠ 0 := by
    intro hzero
    have hexp := (alphaPow_inj (by omega) (by omega)).mp (BitVec.xor_eq_zero_iff.mp hzero)
    omega
  exact gfMul_right_cancel hfactor (h.trans (gfMul_zero_left _).symm)

/-- The sums of the new word come from two of the old. -/
theorem wordSum_cancelPlace (p t : Nat) (f : Nat → Byte) :
    wordSum (cancelPlace p f) t = wordSum f (t + 1) ^^^ gfMul (wordSum f t) (alphaPow (254 - p)) := by
  rw [wordSum, wordSum, wordSum, gfMul_xorSum, ← xorSum_xor]
  refine xorSum_congr fun k _ => ?_
  have hexp : 254 - k + t * (254 - k) = (t + 1) * (254 - k) := by rw [Nat.succ_mul, Nat.add_comm]
  rw [cancelPlace, gfMul_xor_right, gfMul_xor_left, gfMul_assoc, gfMul_alphaPow_add, gfMul_assoc, gfMul_assoc,
    gfMul_comm (alphaPow (254 - p)), hexp]

/-- R92: a word that is 0 outside the places `S` and vanishes at `α^0` to `α^(|S| - 1)` is 0. One place after the other
is cancelled, at the price of one root each. -/
theorem eq_zero_of_wordSum_eq_zero {S : Finset Nat} (hS : ∀ k ∈ S, k < 255) {f : Nat → Byte}
    (hout : ∀ k < 255, k ∉ S → f k = 0) (hsum : ∀ t < S.card, wordSum f t = 0) : ∀ k < 255, f k = 0 := by
  induction S using Finset.induction_on generalizing f with
  | empty => exact fun k hk => hout k hk (Finset.notMem_empty k)
  | insert p S hp ih =>
    rw [Finset.card_insert_of_notMem hp] at hsum
    have hplace : p < 255 := hS p (Finset.mem_insert_self p S)
    have hrest : ∀ k < 255, cancelPlace p f k = 0 := by
      refine ih (fun k hk => hS k (Finset.mem_insert_of_mem hk)) (fun k hk hkS => ?_) fun t ht => ?_
      · by_cases hkp : k = p
        · rw [hkp, cancelPlace_self]
        · exact (cancelPlace_eq_zero_iff hk hplace hkp).mpr (hout k hk (by simp [hkp, hkS]))
      · rw [wordSum_cancelPlace, hsum (t + 1) (by omega), hsum t (by omega), gfMul_zero_left, xor_zero]
    have hother : ∀ k < 255, k ≠ p → f k = 0 := fun k hk hkp =>
      (cancelPlace_eq_zero_iff hk hplace hkp).mp (hrest k hk)
    have hself : f p = 0 := by
      have hvalue : wordSum f 0 = gfMul (f p) (alphaPow (0 * (254 - p))) :=
        xorSum_eq_single hplace fun k hk hkp => by rw [hother k hk hkp, gfMul_zero_left]
      rw [hsum 0 (by omega), Nat.zero_mul] at hvalue
      exact (gfMul_one (f p)).symm.trans hvalue.symm
    intro k hk
    by_cases hkp : k = p
    · rw [hkp, hself]
    · exact hother k hk hkp

end Sys2Proof.Machine

/-!
PROOFS. The verdict on a block and the batch codec (spec/41_reed_solomon.md R88 to R92).
-/

namespace Sys2Proof.Machine

/-! ## The mismatch count (R88) -/

theorem mismatches_append {a c : List Byte} (b d : List Byte) (h : a.length = c.length) :
    mismatches (a ++ b) (c ++ d) = mismatches a c + mismatches b d := by
  rw [mismatches, List.zip_append h, List.filter_append, List.length_append, ← mismatches, ← mismatches]

theorem mismatches_le_length (a c : List Byte) : mismatches a c ≤ a.length := by
  refine (List.length_filter_le _ _).trans ?_
  rw [List.length_zip]
  exact Nat.min_le_left _ _

/-- Words that differ at every position. -/
theorem mismatches_eq_length {a c : List Byte} (hlen : a.length = c.length)
    (h : ∀ k < a.length, a.getD k 0 ≠ c.getD k 0) : mismatches a c = a.length := by
  have hall : (a.zip c).filter (fun p => p.1 != p.2) = a.zip c := by
    refine List.filter_eq_self.mpr fun p hp => ?_
    obtain ⟨k, hk, rfl⟩ := List.mem_iff_getElem.mp hp
    have hka : k < a.length := List.lt_length_left_of_zip hk
    have hne := h k hka
    rw [List.getD_eq_getElem _ _ hka, List.getD_eq_getElem _ _ (hlen ▸ hka)] at hne
    rw [List.getElem_zip]
    exact bne_iff_ne.mpr hne
  rw [mismatches, hall, List.length_zip, ← hlen, Nat.min_self]

/-! ## The verdict (R88) -/

theorem accept_rsDecodeBlock (c : List Byte) : (rsDecodeBlock c).accept = decide ((rsDecodeBlock c).count ≤ 16) := rfl

theorem message_rsDecodeBlock (c : List Byte) : (rsDecodeBlock c).message = c.take 223 := rfl

/-- The message part of the re-encoded block is the message part of the block. -/
theorem count_rsDecodeBlock {c : List Byte} (h : c.length = 255) :
    (rsDecodeBlock c).count = mismatches ((rsEncodeBlock (c.take 223)).drop 223) (c.drop 223) := by
  have hm : (c.take 223).length = 223 := List.length_take_of_le (by omega)
  calc (rsDecodeBlock c).count
      = mismatches (c.take 223 ++ (rsEncodeBlock (c.take 223)).drop 223) (c.take 223 ++ c.drop 223) := by
        rw [drop_rsEncodeBlock hm, List.take_append_drop]
        rfl
    _ = _ := by rw [mismatches_append _ _ rfl, mismatches_self, Nat.zero_add]

/-- Settles O21. -/
theorem verdictCountsParityMismatches : Obligations.VerdictCountsParityMismatches := by
  intro c hc
  have hm : (c.take 223).length = 223 := List.length_take_of_le (by omega)
  refine ⟨count_rsDecodeBlock hc, ?_, decide_eq_true_iff, message_rsDecodeBlock c⟩
  have hle := mismatches_le_length ((rsEncodeBlock (c.take 223)).drop 223) (c.drop 223)
  rw [List.length_drop, length_rsEncodeBlock _ hm] at hle
  rwa [count_rsDecodeBlock hc]

/-! ## One wrong message byte (R92 (e)) -/

/-- Messages that differ in one byte have codewords that differ in every parity byte: their sum vanishes at 32 roots, so
it cannot be nonzero at only 32 places. -/
theorem parity_ne_of_xorAt {m : List Byte} {p k : Nat} {v : Byte} (hm : m.length = 223) (hp : p < 223) (hv : v ≠ 0)
    (hlo : 223 ≤ k) (hhi : k < 255) : (rsEncodeBlock (xorAt m p v)).getD k 0 ≠ (rsEncodeBlock m).getD k 0 := by
  intro hequal
  have hm' : (xorAt m p v).length = 223 := by rw [length_xorAt, hm]
  have hlen : (rsEncodeBlock m).length = (rsEncodeBlock (xorAt m p v)).length := by
    rw [length_rsEncodeBlock _ hm, length_rsEncodeBlock _ hm']
  have hmessage (i : Nat) (hi : i < 223) :
      (xorBytes (rsEncodeBlock m) (rsEncodeBlock (xorAt m p v))).getD i 0 = if p = i then v else 0 := by
    rw [getD_xorBytes hlen, rsEncodeBlock, rsEncodeBlock, List.getD_append _ _ _ _ (hm ▸ hi),
      List.getD_append _ _ _ _ (hm' ▸ hi), getD_xorAt v i (hm ▸ hp), ← BitVec.xor_assoc, BitVec.xor_self]
    exact zero_xor _
  have hzero := eq_zero_of_wordSum_eq_zero (S := insert p ((Finset.Ico 223 255).erase k))
    (f := fun i => (xorBytes (rsEncodeBlock m) (rsEncodeBlock (xorAt m p v))).getD i 0) ?_ ?_ ?_ p (by omega)
  · rw [hmessage p hp, if_pos rfl] at hzero
    exact hv hzero
  · intro i hi
    rw [Finset.mem_insert, Finset.mem_erase, Finset.mem_Ico] at hi
    omega
  · intro i hi hiS
    rw [Finset.mem_insert, Finset.mem_erase, Finset.mem_Ico] at hiS
    by_cases hik : i = k
    · subst hik
      rw [getD_xorBytes hlen, hequal, BitVec.xor_self]
      rfl
    · rw [hmessage i (by omega), if_neg (by omega)]
  · intro t ht
    have hcard : (insert p ((Finset.Ico 223 255).erase k)).card = 32 := by
      rw [Finset.card_insert_of_notMem (by simp; omega), Finset.card_erase_of_mem (Finset.mem_Ico.mpr ⟨hlo, hhi⟩),
        Nat.card_Ico]
    have ht : t ≤ 31 := by omega
    rw [← polyEval_eq_wordSum (by rw [length_xorBytes hlen, length_rsEncodeBlock _ hm]), polyEval_xorBytes hlen,
      polyEval_rsEncodeBlock hm ht, polyEval_rsEncodeBlock hm' ht, xor_zero]

/-- A change in the message part changes the message and keeps the parity. -/
theorem xorAt_append {m : List Byte} (r : List Byte) {p : Nat} (v : Byte) (h : p < m.length) :
    xorAt (m ++ r) p v = xorAt m p v ++ r := by
  rw [xorAt, List.getD_append _ _ _ _ h, List.set_append_left _ _ h, ← xorAt]

/-- Settles O26, by `parity_ne_of_xorAt`. -/
theorem wrongMessageByteIsRejected : Obligations.WrongMessageByteIsRejected := by
  intro m p v hm hp hv
  have hm' : (xorAt m p v).length = 223 := by rw [length_xorAt, hm]
  have hblock : xorAt (rsEncodeBlock m) p v = xorAt m p v ++ (rsDivide m).drop 223 := xorAt_append _ v (hm ▸ hp)
  have hcount : (rsDecodeBlock (xorAt (rsEncodeBlock m) p v)).count = 32 := by
    rw [count_rsDecodeBlock (by rw [length_xorAt, length_rsEncodeBlock m hm]), hblock, List.take_left' hm',
      List.drop_left' hm', ← drop_rsEncodeBlock hm]
    have hlen : ((rsEncodeBlock (xorAt m p v)).drop 223).length = 32 := by
      rw [List.length_drop, length_rsEncodeBlock _ hm']
    rw [← hlen]
    refine mismatches_eq_length (by rw [hlen, List.length_drop, length_rsEncodeBlock m hm]) fun k hk => ?_
    have hne := parity_ne_of_xorAt hm hp hv (k := 223 + k) (by omega) (by omega)
    simpa only [List.getD_eq_getElem?_getD, List.getElem?_drop] using hne
  exact ⟨hcount, by rw [accept_rsDecodeBlock, hcount]; rfl⟩

/-! ## Streams of blocks -/

theorem length_slice {α : Type} {a : List α} {off len : Nat} (h : off + len ≤ a.length) :
    (slice a off len).length = len := by
  rw [slice, List.length_take, List.length_drop]
  omega

/-- Piece `b` of pieces of one length. -/
theorem slice_flatMap_range {α : Type} {f : Nat → List α} {n b : Nat} (hf : ∀ i, (f i).length = n) {count : Nat}
    (hb : b < count) : slice ((List.range count).flatMap f) (n * b) n = f b := by
  obtain ⟨rest, rfl⟩ : ∃ rest, count = b + (rest + 1) := ⟨count - b - 1, by omega⟩
  have hhead : ((List.range b).flatMap f).length = n * b := by
    rw [length_flatMap_of_const hf, List.length_range, Nat.mul_comm]
  rw [List.range_add, List.flatMap_append, List.range_succ_eq_map, List.map_cons, List.flatMap_cons, Nat.add_zero,
    slice, List.drop_left' hhead, List.take_left' (hf b)]

/-- The slices of one length put a list together again. -/
theorem flatMap_slice {α : Type} (a : List α) (n count : Nat) :
    ((List.range count).flatMap fun b => slice a (n * b) n) = a.take (n * count) := by
  induction count with
  | zero => rfl
  | succ count ih =>
    rw [List.range_succ, List.flatMap_append, ih, List.flatMap_singleton, Nat.mul_succ, List.take_add]
    rfl

/-! ## The batch encoder (R89) -/

theorem blockCount_eq (len : Nat) : blockCount len = (len + 222) / 223 := by
  rw [blockCount, ceilDiv, rsK, Nat.add_sub_assoc (by decide)]

/-- R89: bytes `[255b, 255b + 255)` of the output are the codeword of block `b`. -/
theorem slice_rsEncode (data : List Byte) {b : Nat} (hb : b < blockCount data.length) :
    slice (rsEncode data) (255 * b) 255 = rsEncodeBlock (messageBlock data b) :=
  slice_flatMap_range (fun i => length_rsEncodeBlock _ (length_messageBlock data i)) hb

/-- The number of zeros that pad a message stream (R89). -/
def padLength (len : Nat) : Nat := (223 - len % 223) % 223

theorem add_padLength (len : Nat) : len + padLength len = 223 * blockCount len := by
  rw [padLength, blockCount_eq]
  omega

/-- A message block is a slice of the padded stream. -/
theorem messageBlock_eq_slice (data : List Byte) {b : Nat} (hb : b < blockCount data.length) :
    messageBlock data b = slice (data ++ List.replicate (padLength data.length) 0) (223 * b) 223 := by
  have hpad := add_padLength data.length
  have hstart : 223 * b ≤ data.length := by
    rw [blockCount_eq] at hb
    omega
  rw [messageBlock, slice, slice, rsK, List.drop_append_of_le_length hstart, List.take_append, List.take_replicate,
    List.length_take, List.length_drop]
  congr 2
  omega

theorem flatMap_messageBlock (data : List Byte) :
    (List.range (blockCount data.length)).flatMap (messageBlock data) =
      data ++ List.replicate (padLength data.length) 0 := by
  have hlen : (data ++ List.replicate (padLength data.length) (0 : Byte)).length = 223 * blockCount data.length := by
    rw [List.length_append, List.length_replicate, add_padLength]
  calc (List.range (blockCount data.length)).flatMap (messageBlock data)
      = (List.range (blockCount data.length)).flatMap
          fun b => slice (data ++ List.replicate (padLength data.length) 0) (223 * b) 223 :=
        List.flatMap_congr fun b hb => messageBlock_eq_slice data (List.mem_range.mp hb)
    _ = data ++ List.replicate (padLength data.length) 0 := by rw [flatMap_slice, ← hlen, List.take_length]

/-! ## The batch decoder (R90) -/

/-- Block `b` of a stream of codewords. -/
def codeBlock (data : List Byte) (b : Nat) : List Byte := slice data (255 * b) 255

/-- R90: the messages of the accepted blocks, in block order. -/
theorem out_rsDecode (data : List Byte) :
    (rsDecode data).out =
      ((List.range (data.length / 255)).filter fun b => decide ((rsDecodeBlock (codeBlock data b)).count ≤ 16)).flatMap
        fun b => (codeBlock data b).take 223 := by
  simp only [rsDecode, List.filter_map, List.flatMap_map, Function.comp_def, accept_rsDecodeBlock,
    message_rsDecodeBlock]
  rfl

/-- R90: the rejected blocks. -/
theorem dropped_rsDecode (data : List Byte) :
    (rsDecode data).dropped =
      ((List.range (data.length / 255)).filter
        fun b => decide (16 < (rsDecodeBlock (codeBlock data b)).count)).length := by
  simp only [rsDecode, List.filter_map, List.length_map, Function.comp_def, accept_rsDecodeBlock, ← decide_not,
    Nat.not_le]
  rfl

/-- R90: 223 bytes for each block that is not dropped. -/
theorem length_out_rsDecode (data : List Byte) :
    (rsDecode data).out.length = 223 * ((rsDecode data).blocks - (rsDecode data).dropped) := by
  have hsplit := List.length_eq_length_filter_add (l := List.range (data.length / 255))
    fun b => decide ((rsDecodeBlock (codeBlock data b)).count ≤ 16)
  simp only [← decide_not, Nat.not_le, ← dropped_rsDecode, List.length_range] at hsplit
  have hblocks : (rsDecode data).blocks - (rsDecode data).dropped = ((List.range (data.length / 255)).filter
      fun b => decide ((rsDecodeBlock (codeBlock data b)).count ≤ 16)).length := by
    have hseen : (rsDecode data).blocks = data.length / 255 := rfl
    omega
  have hmessage : ∀ b ∈ (List.range (data.length / 255)).filter
      fun b => decide ((rsDecodeBlock (codeBlock data b)).count ≤ 16), ((codeBlock data b).take 223).length = 223 := by
    intro b hb
    have hlt := List.mem_range.mp (List.mem_filter.mp hb).1
    exact List.length_take_of_le (by rw [codeBlock, length_slice (by omega)]; decide)
  rw [out_rsDecode, hblocks, List.length_flatMap, List.map_congr_left hmessage, List.map_const', List.sum_replicate,
    smul_eq_mul, Nat.mul_comm]

/-- Settles O27: every block is a codeword, which is accepted (R92 (a)). -/
theorem batchDecodeOfEncodeReturnsTheData : Obligations.BatchDecodeOfEncodeReturnsTheData := by
  intro data
  have hblocks : (rsEncode data).length / rsN = blockCount data.length := by
    rw [length_rsEncode, Nat.mul_div_cancel_left _ (by decide)]
  have hverdicts :
      (List.range (blockCount data.length)).map (fun b => rsDecodeBlock (slice (rsEncode data) (rsN * b) rsN)) =
        (List.range (blockCount data.length)).map fun b =>
          { accept := true, message := messageBlock data b, count := 0 } :=
    List.map_congr_left fun b hb => by
      rw [rsN, slice_rsEncode data (List.mem_range.mp hb), rsDecodeBlock_rsEncodeBlock _ (length_messageBlock data b)]
  simp only [rsDecode, hblocks, hverdicts, List.filter_map, List.flatMap_map, List.length_map, Function.comp_def,
    Bool.not_true, List.filter_true, List.filter_false, flatMap_messageBlock]
  rfl

end Sys2Proof.Machine

/-!
PROOFS. The commands of the Reed–Solomon codec: `RSENC1`, `RSDEC1`, `RSENC` and `RSDEC` (spec/41_reed_solomon.md R87 to
R90).
-/

namespace Sys2Proof.Machine

/-- Bytes that do not fit `BOUT` are `E_CAP` (R55). -/
theorem commitBytes_of_cap_lt {out : List Byte} {s : State} (t : State) (h : s.params.boutCap < out.length) :
    commitBytes out s t = fail .cap s := if_pos h

/-- R7: a codeword fits `BIN` and `BOUT`. -/
theorem byteCaps_ge {p : Params} (h : p.ok = true) : 255 ≤ p.binCap ∧ 255 ≤ p.boutCap := by
  simp only [Params.ok, Bool.and_eq_true, decide_eq_true_eq] at h
  omega

/-- Settles O19: the ranges of R7 leave no capacity error. -/
theorem rsenc1WritesTheCodeword : Obligations.Rsenc1WritesTheCodeword := by
  refine ⟨fun s m hs hrun => ?_, fun s a hs ha hnone => ?_⟩
  · obtain ⟨hbin, hbout⟩ := byteCaps_ge hs
    have hm : m.length = 223 := (readRun_some _ _ _ _ hrun).1
    have hlen := length_rsEncodeBlock m hm
    refine ⟨hlen, take_rsEncodeBlock hm, ?_⟩
    calc exec .rsenc1 s
        = commitBytes (rsEncodeBlock m) s { s with res0 := lenWord rsN } :=
          withBin_of_readRun _ (Nat.le_trans (by decide) hbin) hrun
      _ = _ := commitBytes_of_le _ (hlen ▸ hbout)
  · exact withBin_of_unwritten _ (Nat.le_trans (by decide) (byteCaps_ge hs).1) ha hnone

/-- What `RSDEC1` does with a block, by its verdict (R88). -/
theorem execRsdec1_of_readRun {s : State} {c : List Byte} (hbin : 255 ≤ s.params.binCap)
    (hrun : readRun s.bin 0 255 = some c) :
    execRsdec1 s =
      if (rsDecodeBlock c).count ≤ 16 then
        commitBytes (c.take 223) s { s with res0 := 1, res1 := lenWord (rsDecodeBlock c).count }
      else succeed { s with res0 := 0, res1 := lenWord (rsDecodeBlock c).count } := by
  refine (withBin_of_readRun _ hbin hrun).trans ?_
  simp only [accept_rsDecodeBlock, message_rsDecodeBlock, decide_eq_true_eq]

/-- Settles O20. -/
theorem rsdec1AcceptsOrRejects : Obligations.Rsdec1AcceptsOrRejects := by
  refine ⟨fun s c hs hrun => ?_, fun s a hs ha hnone => withBin_of_unwritten _ (byteCaps_ge hs).1 ha hnone⟩
  obtain ⟨hbin, hbout⟩ := byteCaps_ge hs
  refine ⟨fun haccept => ?_, fun hreject => ?_⟩
  · have hfits : (c.take 223).length ≤ s.params.boutCap := (List.length_take_le 223 c).trans (by omega)
    exact (execRsdec1_of_readRun hbin hrun).trans ((if_pos haccept).trans (commitBytes_of_le _ hfits))
  · exact (execRsdec1_of_readRun hbin hrun).trans (if_neg (Nat.not_le.mpr hreject))

/-- Output that fits leaves the input to be read (R89). -/
theorem execRsenc_of_bout_le {s : State} (h : 255 * ((s.arg0.toNat + 222) / 223) ≤ s.params.boutCap) :
    execRsenc s = withBin s.arg0.toNat s fun data => commitBytes (rsEncode data) s
      { s with
        res0 := lenWord (255 * ((s.arg0.toNat + 222) / 223))
        res1 := lenWord ((s.arg0.toNat + 222) / 223) } :=
  if_neg (Nat.not_lt.mpr h)

theorem execRsenc_of_bout_lt {s : State} (h : s.params.boutCap < 255 * ((s.arg0.toNat + 222) / 223)) :
    execRsenc s = fail .cap s := if_pos h

theorem execRsenc_of_readRun {s : State} {data : List Byte} (h0 : s.arg0.toNat = data.length)
    (hbin : data.length ≤ s.params.binCap) (hbout : 255 * ((data.length + 222) / 223) ≤ s.params.boutCap)
    (hrun : readRun s.bin 0 data.length = some data) :
    execRsenc s = succeed { s with
      bout := writeRun s.bout 0 (rsEncode data)
      res0 := lenWord (255 * ((data.length + 222) / 223))
      res1 := lenWord ((data.length + 222) / 223) } := by
  have hfits : (rsEncode data).length ≤ s.params.boutCap := by
    rw [length_rsEncode, blockCount_eq]
    exact hbout
  rw [execRsenc_of_bout_le (by rwa [h0]), h0, withBin_of_readRun _ hbin hrun, commitBytes_of_le _ hfits]

/-- Settles O22. -/
theorem rsencWritesTheBlocks : Obligations.RsencWritesTheBlocks := by
  refine ⟨fun s data h0 hbin hbout hrun => ⟨?_, fun b part hb hpart => ?_, execRsenc_of_readRun h0 hbin hbout hrun⟩,
    fun s hcap => ?_, fun s a hbin hbout ha hnone => ?_⟩
  · rw [length_rsEncode, blockCount_eq, rsN]
  · subst hpart
    exact slice_rsEncode data (by rwa [blockCount_eq])
  · change execRsenc s = fail .cap s
    rcases Nat.lt_or_ge s.params.boutCap (255 * ((s.arg0.toNat + 222) / 223)) with hbout | hbout
    · exact execRsenc_of_bout_lt hbout
    · rw [execRsenc_of_bout_le hbout]
      exact withBin_of_cap_lt _ (hcap.resolve_right (Nat.not_lt.mpr hbout))
  · change execRsenc s = _
    rw [execRsenc_of_bout_le hbout]
    exact withBin_of_unwritten _ hbin ha hnone

/-- Settles O23. -/
theorem rsdecWritesTheAcceptedMessages : Obligations.RsdecWritesTheAcceptedMessages := by
  refine ⟨fun s data h0 hbin hrun => ?_, fun s hcap => withBin_of_cap_lt _ hcap,
    fun s a hbin ha hnone => withBin_of_unwritten _ hbin ha hnone⟩
  have hexec : exec .rsdec s = commitBytes (rsDecode data).out s { s with
      res0 := lenWord (rsDecode data).out.length
      res1 := lenWord (rsDecode data).dropped
      res2 := lenWord (rsDecode data).blocks } := withBin_of_readRun _ (h0 ▸ hbin) (h0 ▸ hrun)
  refine ⟨rfl, fun block hblock => ?_, length_out_rsDecode data, fun hfits => ?_, fun hcap => ?_⟩
  · obtain rfl : block = codeBlock data := funext hblock
    exact ⟨out_rsDecode data, dropped_rsDecode data⟩
  · exact hexec.trans (commitBytes_of_le _ hfits)
  · exact hexec.trans (commitBytes_of_cap_lt _ hcap)

end Sys2Proof.Machine

/-!
PROOFS. The CRC32 generator (spec/42_crc32.md R100 to R103). The shift is linear over exclusive-or, so a register may be
taken apart: its high bytes only move down, its low byte alone meets the polynomial. From this come the table-driven
form (R102) and the residue (R103).
-/

namespace Sys2Proof.Machine

/-! ## The conditional shift (R100) -/

theorem crcShift_eq_ite (c : Word) :
    crcShift c = if c.getLsbD 0 = true then c >>> 1 ^^^ crcPoly else c >>> 1 := by
  have hbit : c &&& 1 = (BitVec.ofBool (c.getLsbD 0)).setWidth 32 := BitVec.and_one_eq_setWidth_ofBool_getLsbD
  rw [crcShift, hbit]
  cases c.getLsbD 0 <;> rfl

theorem crcShift_xor (c d : Word) : crcShift (c ^^^ d) = crcShift c ^^^ crcShift d := by
  simp only [crcShift_eq_ite, BitVec.getLsbD_xor, BitVec.ushiftRight_xor_distrib, ite_xor_add]

theorem crcShifts_xor (n : Nat) (c d : Word) : crcShifts n (c ^^^ d) = crcShifts n c ^^^ crcShifts n d := by
  induction n generalizing c d with
  | zero => rfl
  | succ n ih => rw [crcShifts, crcShifts, crcShifts, crcShift_xor, ih]

/-- Zeros shifted out leave the polynomial out. -/
theorem crcShifts_of_low_zero {n : Nat} {c : Word} (h : ∀ i < n, c.getLsbD i = false) : crcShifts n c = c >>> n := by
  induction n generalizing c with
  | zero => rfl
  | succ n ih =>
    have hshift : crcShift c = c >>> 1 := by rw [crcShift_eq_ite, h 0 n.succ_pos]; rfl
    have hlow : ∀ i < n, (c >>> 1).getLsbD i = false := fun i hi => by
      rw [BitVec.getLsbD_ushiftRight]
      exact h (1 + i) (by omega)
    rw [crcShifts, hshift, ih hlow, ← BitVec.shiftRight_add, Nat.add_comm]

/-! ## The low byte and the high bytes -/

theorem setWidth_ushiftRight_eight (b : Byte) : b.setWidth 32 >>> 8 = 0 := by
  rw [← BitVec.setWidth_ushiftRight (by decide), BitVec.ushiftRight_eq_zero (Nat.le_refl 8)]
  rfl

/-- A register whose low byte is cleared: eight shifts move the high bytes down. -/
theorem crcShifts_clear_low_byte (c : Word) : crcShifts 8 (c ^^^ (c.setWidth 8).setWidth 32) = c >>> 8 := by
  have hlow : ∀ i < 8, (c ^^^ (c.setWidth 8).setWidth 32).getLsbD i = false := fun i hi => by
    have h32 : i < 32 := by omega
    simp only [BitVec.getLsbD_xor, BitVec.getLsbD_setWidth, hi, h32, decide_true, Bool.true_and, Bool.xor_self]
  rw [crcShifts_of_low_zero hlow, BitVec.ushiftRight_xor_distrib, setWidth_ushiftRight_eight]
  exact BitVec.xor_zero

/-- R102: eight shifts are the table entry of the low byte, added to the high bytes moved down. -/
theorem crcShifts_eight (c : Word) : crcShifts 8 c = crcTableEntry (c.setWidth 8) ^^^ c >>> 8 := by
  have hsplit : c = (c.setWidth 8).setWidth 32 ^^^ (c ^^^ (c.setWidth 8).setWidth 32) := by
    rw [BitVec.xor_comm, BitVec.xor_assoc, BitVec.xor_self, BitVec.xor_zero]
  calc crcShifts 8 c
      = crcShifts 8 ((c.setWidth 8).setWidth 32 ^^^ (c ^^^ (c.setWidth 8).setWidth 32)) := congrArg _ hsplit
    _ = crcTableEntry (c.setWidth 8) ^^^ c >>> 8 := by rw [crcShifts_xor, crcShifts_clear_low_byte, crcTableEntry]

theorem crcByte_eq_crcTableByte (c : Word) (b : Byte) : crcByte c b = crcTableByte c b := by
  have hhigh : (c ^^^ b.setWidth 32) >>> 8 = c >>> 8 := by
    rw [BitVec.ushiftRight_xor_distrib, setWidth_ushiftRight_eight]
    exact BitVec.xor_zero
  rw [crcByte, crcShifts_eight, hhigh, crcTableByte]

/-! ## The residue (R103) -/

/-- The low byte of a word that the register holds as a summand: it cancels, and the rest of the word moves down. -/
theorem crcByte_xor_low_byte (k v : Word) : crcByte (k ^^^ v) (v.setWidth 8) = crcShifts 8 k ^^^ v >>> 8 := by
  rw [crcByte, BitVec.xor_assoc, crcShifts_xor, crcShifts_clear_low_byte]

/-- The four bytes of a word that the register holds as a summand cancel it. -/
theorem foldl_crcByte_le32 (k v : Word) : (le32 v).foldl crcByte (k ^^^ v) = crcShifts 32 k := by
  have h16 : v >>> 16 = v >>> 8 >>> 8 := BitVec.shiftRight_add v 8 8
  have h24 : v >>> 24 = v >>> 8 >>> 8 >>> 8 := by rw [← h16]; exact BitVec.shiftRight_add v 16 8
  have hout : v >>> 8 >>> 8 >>> 8 >>> 8 = 0 := by
    rw [← h24, ← BitVec.shiftRight_add]
    exact BitVec.ushiftRight_eq_zero (Nat.le_refl 32)
  rw [le32, h24, h16]
  simp only [List.foldl_cons, List.foldl_nil, crcByte_xor_low_byte, hout]
  exact BitVec.xor_zero

/-- Settles O30: the register after `p` is the checksum of `p` with `CRC_XOROUT` added; the appended bytes cancel the
checksum, and 32 shifts of `CRC_XOROUT` are left. -/
theorem crcResidueIsConstant : Obligations.CrcResidueIsConstant := by
  intro p
  have hreg : p.foldl crcByte crcInit = crcXorOut ^^^ crc32 p := by
    rw [crc32, BitVec.xor_comm crcXorOut, BitVec.xor_assoc, BitVec.xor_self, BitVec.xor_zero]
  calc crc32 (p ++ le32 (crc32 p))
      = (le32 (crc32 p)).foldl crcByte (p.foldl crcByte crcInit) ^^^ crcXorOut := by rw [crc32, List.foldl_append]
    _ = crcShifts 32 crcXorOut ^^^ crcXorOut := by rw [hreg, foldl_crcByte_le32]
    _ = 0x2144DF1C := by decide +kernel

/-- Settles O29: the two byte steps are equal, so the folds are. -/
theorem tableDrivenCrcIsTheSame : Obligations.TableDrivenCrcIsTheSame := by
  refine ⟨by decide +kernel, fun data => ?_, fun _ => rfl, by decide +kernel⟩
  have hstep : crcByte = crcTableByte := funext₂ crcByte_eq_crcTableByte
  rw [crc32, hstep, crcInit, crcXorOut]

/-! ## The command `CRC32` (R100) -/

/-- Settles O28: `CRC32` only reads `BIN`, so the outcomes are those of the read. -/
theorem crc32WritesTheChecksum : Obligations.Crc32WritesTheChecksum := by
  refine ⟨fun s data h0 hcap hrun => ?_, fun s hcap => withBin_of_cap_lt _ hcap,
    fun s a hcap ha hnone => withBin_of_unwritten _ hcap ha hnone⟩
  calc exec .crc32 s
      = succeed { s with res0 := crc32 data } := withBin_of_readRun _ (h0 ▸ hcap) (h0 ▸ hrun)
    _ = .next { s with res0 := crc32 data, status := 0x00000002 } := rfl

end Sys2Proof.Machine

/-!
PROOFS. The packet (spec/43_packet.md R105 to R109): what `parse` finds in a buffer, that it undoes the framer, and that
the checksum tells a changed byte. A packet with a changed payload is a packet of another payload that carries the old
checksum, so one lemma on `parse` covers both.
-/

namespace Sys2Proof.Machine

/-! ## Little-endian words (R32) -/

theorem unle32_lt (b : List Byte) : unle32 b < 2 ^ 32 := by
  have h0 := (b.getD 0 0).isLt
  have h1 := (b.getD 1 0).isLt
  have h2 := (b.getD 2 0).isLt
  have h3 := (b.getD 3 0).isLt
  rw [unle32]
  omega

theorem unle32_le32 (v : Word) : unle32 (le32 v) = v.toNat := by
  have hv := v.isLt
  simp only [unle32, le32, List.getD_cons_zero, List.getD_cons_succ, BitVec.toNat_setWidth, BitVec.toNat_ushiftRight,
    Nat.shiftRight_eq_div_pow]
  omega

theorem unle32_le32Nat {n : Nat} (h : n < 2 ^ 32) : unle32 (le32Nat n) = n := by
  rw [le32Nat, unle32_le32, BitVec.toNat_ofNat, Nat.mod_eq_of_lt h]

theorem le32Nat_toNat (v : Word) : le32Nat v.toNat = le32 v := by
  rw [le32Nat, BitVec.ofNat_toNat, BitVec.setWidth_eq]

/-! ## The outcomes of `parse` (R107) -/

section outcomes

variable {buf : List Byte} {nl dl : Nat}

theorem parse_of_short (h : buf.length < 14) : parse buf = .error .short := if_pos h

/-- A buffer long enough to be looked at, with a wrong magic. -/
theorem parse_of_magic_ne (hlen : 14 ≤ buf.length) (h : slice buf 0 4 ≠ magic) : parse buf = .error .magic :=
  (if_neg (Nat.not_lt.mpr hlen)).trans (if_pos h)

variable (hlen : 14 ≤ buf.length) (hmagic : slice buf 0 4 = magic) (hnl : (buf.getD 4 0).toNat = nl)
include hlen hmagic hnl

/-- The `data_len` field does not lie inside the buffer. -/
theorem parse_of_field_outside (h : buf.length < 9 + nl) : parse buf = .error .size := by
  subst hnl
  exact (if_neg (Nat.not_lt.mpr hlen)).trans ((if_neg (not_not.mpr hmagic)).trans (if_pos (by omega)))

variable (hdl : unle32 (slice buf (5 + nl) 4) = dl)
include hdl

/-- The packet does not lie inside the buffer. -/
theorem parse_of_packet_outside (hfield : 9 + nl ≤ buf.length) (h : buf.length < 13 + nl + dl) :
    parse buf = .error .size := by
  subst hnl hdl
  exact (if_neg (Nat.not_lt.mpr hlen)).trans ((if_neg (not_not.mpr hmagic)).trans
    ((if_neg (by omega)).trans (if_pos (by omega))))

theorem parse_of_packet_inside (h : 13 + nl + dl ≤ buf.length) :
    parse buf = .ok { name := slice buf 5 nl
                      payload := slice buf (9 + nl) dl
                      stored := BitVec.ofNat 32 (unle32 (slice buf (9 + nl + dl) 4))
                      computed := crc32 (slice buf 0 (9 + nl + dl)) } := by
  subst hnl hdl
  exact (if_neg (Nat.not_lt.mpr hlen)).trans ((if_neg (not_not.mpr hmagic)).trans
    ((if_neg (by omega)).trans (if_neg (by omega))))

end outcomes

/-- Settles O33: the outcomes of `parse`, one by one. -/
theorem parseFailsOnMagicThenSize : Obligations.ParseFailsOnMagicThenSize := by
  refine ⟨fun buf => parse_of_short, fun buf hlen => ⟨parse_of_magic_ne hlen, fun hmagic nl hnl =>
    ⟨parse_of_field_outside hlen hmagic hnl, fun hfield dl hdl =>
      ⟨parse_of_packet_outside hlen hmagic hnl hdl hfield, fun hpacket =>
        ⟨_, parse_of_packet_inside hlen hmagic hnl hdl hpacket, rfl, rfl, length_slice (by omega),
          length_slice (by omega), ?_, rfl⟩⟩⟩⟩⟩
  exact toNat_lenWord (unle32_lt _)

/-! ## Parsing what the framer writes (R106, R107) -/

/-- The piece of a list that stands behind `off` elements. -/
theorem slice_of_eq_append {α : Type} {l a b c : List α} {off len : Nat} (h : l = a ++ b ++ c) (ha : a.length = off)
    (hb : b.length = len) : slice l off len = b := by
  rw [h, List.append_assoc, slice, List.drop_left' ha, List.take_left' hb]

theorem length_frameBody (name payload : List Byte) :
    (frameBody name payload).length = 9 + name.length + payload.length := by
  simp only [frameBody, magic, List.length_append, length_le32Nat, List.length_cons, List.length_nil]
  omega

/-- R106: a name of 1 to 255 bytes is used whole. -/
theorem frame_of_name {name : List Byte} (payload : List Byte) (hpos : 1 ≤ name.length) (hcap : name.length ≤ 255) :
    frame name payload = .ok (frameBody name payload ++ le32 (crc32 (frameBody name payload))) := by
  have hne : name.length ≠ 0 := by omega
  have hall : name.take nameCap = name := List.take_of_length_le hcap
  rw [frame, if_neg hne, hall]

/-- Whatever checksum a packet carries, `parse` finds the name, the payload, this checksum and the computed one. -/
theorem parse_frameBody_append {name payload : List Byte} (c : Word) (tail : List Byte) (hpos : 1 ≤ name.length)
    (hcap : name.length ≤ 255) (hpayload : payload.length < 2 ^ 32) :
    parse (frameBody name payload ++ le32 c ++ tail) =
      .ok { name := name, payload := payload, stored := c, computed := crc32 (frameBody name payload) } := by
  have hlen : (frameBody name payload ++ le32 c ++ tail).length = 13 + name.length + payload.length + tail.length := by
    rw [List.length_append, List.length_append, length_frameBody, length_le32]
    omega
  have hnl : ((frameBody name payload ++ le32 c ++ tail).getD 4 0).toNat = name.length :=
    (BitVec.toNat_ofNat _ _).trans (Nat.mod_eq_of_lt (Nat.lt_succ_of_le hcap))
  have hfield : slice (frameBody name payload ++ le32 c ++ tail) (5 + name.length) 4 = le32Nat payload.length :=
    slice_of_eq_append (a := magic ++ [BitVec.ofNat 8 name.length] ++ name) (c := payload ++ le32 c ++ tail)
      (by simp only [frameBody, List.append_assoc]) (by simp [magic]; omega) rfl
  have hdl : unle32 (slice (frameBody name payload ++ le32 c ++ tail) (5 + name.length) 4) = payload.length := by
    rw [hfield, unle32_le32Nat hpayload]
  have hname : slice (frameBody name payload ++ le32 c ++ tail) 5 name.length = name :=
    slice_of_eq_append (a := magic ++ [BitVec.ofNat 8 name.length])
      (c := le32Nat payload.length ++ payload ++ le32 c ++ tail) (by simp only [frameBody, List.append_assoc]) rfl rfl
  have hdata : slice (frameBody name payload ++ le32 c ++ tail) (9 + name.length) payload.length = payload :=
    slice_of_eq_append (a := magic ++ [BitVec.ofNat 8 name.length] ++ name ++ le32Nat payload.length)
      (c := le32 c ++ tail) (by simp only [frameBody, List.append_assoc]) (by simp [magic]; omega) rfl
  have hcrc : slice (frameBody name payload ++ le32 c ++ tail) (9 + name.length + payload.length) 4 = le32 c :=
    slice_of_eq_append rfl (length_frameBody name payload) rfl
  have hbody : slice (frameBody name payload ++ le32 c ++ tail) 0 (9 + name.length + payload.length) =
      frameBody name payload := by
    rw [List.append_assoc]
    exact slice_append_left _ _ _ (length_frameBody name payload)
  rw [parse_of_packet_inside (by omega) rfl hnl hdl (by omega), hname, hdata, hcrc, hbody, unle32_le32,
    BitVec.ofNat_toNat, BitVec.setWidth_eq]

/-- Settles O34: the checksum carried is the one computed. -/
theorem parseOfFrameIsIdentity : Obligations.ParseOfFrameIsIdentity := by
  intro name payload tail hpos hcap hpayload
  exact ⟨_, _, frame_of_name payload hpos hcap, parse_frameBody_append _ tail hpos hcap hpayload⟩

/-! ## A changed byte changes the checksum (R100) -/

/-- A shift that drops a 1 sets bit 31, so no register is lost. -/
theorem crcShift_eq_zero {c : Word} (h : crcShift c = 0) : c = 0 := by
  have hbits (i : Nat) : (crcShift c).getLsbD i = false := by rw [h]; exact BitVec.getLsbD_zero
  rw [crcShift_eq_ite] at hbits
  split at hbits
  · have h31 := hbits 31
    rw [BitVec.getLsbD_xor, BitVec.getLsbD_ushiftRight, BitVec.getLsbD_of_ge c (1 + 31) (by decide)] at h31
    exact absurd h31 (by decide)
  · next hlow =>
    refine BitVec.eq_of_getLsbD_eq fun i hi => ?_
    refine Eq.trans ?_ BitVec.getLsbD_zero.symm
    cases i with
    | zero => exact Bool.eq_false_iff.mpr hlow
    | succ i => rw [Nat.add_comm, ← BitVec.getLsbD_ushiftRight, hbits i]

theorem crcShift_injective : Function.Injective crcShift := fun c d h =>
  BitVec.xor_eq_zero_iff.mp (crcShift_eq_zero (by rw [crcShift_xor, h, BitVec.xor_self]; rfl))

theorem crcShifts_injective (n : Nat) : Function.Injective (crcShifts n) := by
  induction n with
  | zero => exact Function.injective_id
  | succ n ih => exact ih.comp crcShift_injective

theorem crcByte_left_injective (b : Byte) : Function.Injective fun c => crcByte c b := fun _ _ h =>
  BitVec.xor_left_inj _ |>.mp (crcShifts_injective 8 h)

theorem crcByte_right_injective (c : Word) : Function.Injective (crcByte c) := fun a b h => by
  have hwide : a.setWidth 32 = b.setWidth 32 := BitVec.xor_right_inj _ |>.mp (crcShifts_injective 8 h)
  simpa using congrArg (BitVec.setWidth 8) hwide

theorem foldl_crcByte_injective (data : List Byte) : Function.Injective fun c => data.foldl crcByte c := by
  induction data with
  | nil => exact Function.injective_id
  | cons b data ih => exact ih.comp (crcByte_left_injective b)

/-- The byte that differs makes the registers differ, and the bytes after it keep them so. -/
theorem foldl_crcByte_xorAt_ne {data : List Byte} {i : Nat} {v : Byte} (c : Word) (hi : i < data.length) (hv : v ≠ 0) :
    (xorAt data i v).foldl crcByte c ≠ data.foldl crcByte c := by
  induction data generalizing c i with
  | nil => exact absurd hi (Nat.not_lt_zero i)
  | cons b data ih =>
    cases i with
    | zero =>
      intro h
      have hbyte : b ^^^ v = b := crcByte_right_injective c (foldl_crcByte_injective data h)
      exact hv (by simpa using hbyte)
    | succ i => exact ih (crcByte c b) (Nat.lt_of_succ_lt_succ hi)

theorem crc32_xorAt_ne {data : List Byte} {i : Nat} {v : Byte} (hi : i < data.length) (hv : v ≠ 0) :
    crc32 (xorAt data i v) ≠ crc32 data := fun h =>
  foldl_crcByte_xorAt_ne crcInit hi hv (BitVec.xor_left_inj _ |>.mp h)

/-! ## A changed payload (R108) -/

theorem xorAt_append_right {a : List Byte} (b : List Byte) {n : Nat} (i : Nat) (v : Byte) (h : a.length = n) :
    xorAt (a ++ b) (n + i) v = a ++ xorAt b i v := by
  subst h
  rw [xorAt, List.getD_append_right _ _ _ _ (Nat.le_add_right _ _), Nat.add_sub_cancel_left,
    List.set_append_right _ _ (Nat.le_add_right _ _), Nat.add_sub_cancel_left, ← xorAt]

/-- The payload region starts after the name and the two lengths. -/
theorem xorAt_frameBody (name payload : List Byte) (i : Nat) (v : Byte) :
    xorAt (frameBody name payload) (9 + name.length + i) v = frameBody name (xorAt payload i v) := by
  have hhead : (magic ++ [BitVec.ofNat 8 name.length] ++ name ++ le32Nat payload.length).length = 9 + name.length := by
    simp [magic]
    omega
  rw [frameBody, xorAt_append_right _ _ _ hhead, frameBody, length_xorAt]

theorem one_shiftLeft_ne_zero : ∀ j < 8, 1#8 <<< j ≠ 0 := by decide

/-- Settles O35: the changed packet is that of the changed payload, but for the checksum it carries. -/
theorem flippedPayloadBitIsWarnedAndDelivered : Obligations.FlippedPayloadBitIsWarnedAndDelivered := by
  intro name payload pkt i j hpos hcap hpayload hi hj hframe
  have hin : 9 + name.length + i < (frameBody name payload).length := by
    rw [length_frameBody]
    omega
  have hpkt : flipBit pkt (9 + name.length + i) j =
      frameBody name (flipBit payload i j) ++ le32 (crc32 (frameBody name payload)) ++ [] := by
    rw [frame_of_name payload hpos hcap] at hframe
    rw [← Except.ok.inj hframe, List.append_nil]
    exact (xorAt_append _ _ hin).trans (congrArg (· ++ _) (xorAt_frameBody name payload i _))
  have hlen : (flipBit payload i j).length < 2 ^ 32 := by rwa [flipBit, List.length_set]
  refine ⟨_, hpkt ▸ parse_frameBody_append _ [] hpos hcap hlen, rfl, rfl, fun hcrc => ?_⟩
  refine crc32_xorAt_ne hin (one_shiftLeft_ne_zero j hj) ?_
  rw [xorAt_frameBody]
  exact hcrc.symm

/-! ## The command `FRAME` (R106) -/

/-- What `FRAME` does with the payload and the name it has read. -/
def framePacket (s : State) (payload name : List Byte) : Answer :=
  match frame name payload with
  | .error e => fail e s
  | .ok pkt => commitBytes pkt s { s with res0 := lenWord pkt.length, res1 := lenWord (nameLen s.arg1) }

theorem framePacket_of_ok {s : State} {payload name pkt : List Byte} (h : frame name payload = .ok pkt) :
    framePacket s payload name =
      commitBytes pkt s { s with res0 := lenWord pkt.length, res1 := lenWord (nameLen s.arg1) } := by
  rw [framePacket, h]

theorem nameLen_ne_zero {w : Word} (h : w ≠ 0) : nameLen w ≠ 0 := by
  have hw := toNat_ne_zero h
  rw [nameLen, nameCap]
  omega

/-- An empty name is `E_NAME`, before any capacity is looked at. -/
theorem execFrame_of_empty_name {s : State} (h : s.arg1 = 0) : execFrame s = fail .name s :=
  if_pos (by rw [h]; rfl)

theorem execFrame_of_bout_lt {s : State} (hname : s.arg1 ≠ 0)
    (hcap : s.params.boutCap < packetLen (nameLen s.arg1) s.arg0.toNat) : execFrame s = fail .cap s :=
  (if_neg (nameLen_ne_zero hname)).trans (if_pos hcap)

/-- With a name and room for the packet, the payload is read and then the name. -/
theorem execFrame_of_bout_le {s : State} (hname : s.arg1 ≠ 0)
    (hcap : packetLen (nameLen s.arg1) s.arg0.toNat ≤ s.params.boutCap) :
    execFrame s = withBin s.arg0.toNat s fun payload => withName (nameLen s.arg1) s (framePacket s payload) :=
  (if_neg (nameLen_ne_zero hname)).trans (if_neg (Nat.not_lt.mpr hcap))

theorem withName_of_readRun {n : Nat} {s : State} {bs : List Byte} (k : List Byte → Answer)
    (h : readRun s.namebuf 0 n = some bs) : withName n s k = k bs := by rw [withName, h]

/-- A name with an unwritten element is the fault of R190. -/
theorem withName_of_unwritten {n a : Nat} {s : State} (k : List Byte → Answer) (ha : a < n)
    (h : readElem s.namebuf a = none) : withName n s k = .fault (.unwrittenElement .namebuf) := by
  have hrun : readRun s.namebuf 0 n = none := readRun_eq_none s.namebuf 0 n a ha (by rwa [Nat.zero_add])
  rw [withName, hrun]

theorem execFrame_of_readRun {s : State} {payload name : List Byte} (hpos : 0 < s.arg1.toNat)
    (h0 : s.arg0.toNat = payload.length) (h1 : name.length = nameLen s.arg1) (hbin : payload.length ≤ s.params.binCap)
    (hbout : packetLen name.length payload.length ≤ s.params.boutCap)
    (hpayload : readRun s.bin 0 payload.length = some payload)
    (hname : readRun s.namebuf 0 name.length = some name) :
    execFrame s = succeed { s with
      bout := writeRun s.bout 0 (frameBody name payload ++ le32 (crc32 (frameBody name payload)))
      res0 := lenWord (packetLen name.length payload.length)
      res1 := lenWord name.length } := by
  have hne : s.arg1 ≠ 0 := BitVec.toNat_ne_iff_ne.mp (Nat.ne_of_gt hpos)
  have hnl : nameLen s.arg1 = min s.arg1.toNat 255 := rfl
  have hframe := frame_of_name payload (name := name) (by omega) (by omega)
  have hlen := length_of_frame (by rw [nameCap]; omega) hframe
  rw [execFrame_of_bout_le hne (by rwa [← h1, h0]), h0, withBin_of_readRun _ hbin hpayload, ← h1,
    withName_of_readRun _ hname, framePacket_of_ok hframe, hlen, ← h1, commitBytes_of_le _ (by rwa [hlen])]

/-- Settles O31. -/
theorem frameWritesThePacket : Obligations.FrameWritesThePacket := by
  refine ⟨fun s name payload h0 hpos h1 hbin hbout hpayload hname => ⟨frameBody name payload, ?_, ?_⟩,
    fun s => execFrame_of_empty_name, fun s hname hcap => ?_, fun s a hname hbin hbout => ⟨fun ha hnone => ?_,
      fun payload hpayload ha hnone => ?_⟩⟩
  · rw [← le32Nat_toNat, h0]
    rfl
  · exact execFrame_of_readRun hpos h0 h1 hbin hbout hpayload hname
  · change execFrame s = fail .cap s
    rcases Nat.lt_or_ge s.params.boutCap (packetLen (nameLen s.arg1) s.arg0.toNat) with hbout | hbout
    · exact execFrame_of_bout_lt hname hbout
    · rw [execFrame_of_bout_le hname hbout]
      exact withBin_of_cap_lt _ (hcap.resolve_right (Nat.not_lt.mpr hbout))
  · exact (execFrame_of_bout_le hname hbout).trans (withBin_of_unwritten _ hbin ha hnone)
  · exact (execFrame_of_bout_le hname hbout).trans
      ((withBin_of_readRun _ hbin hpayload).trans (withName_of_unwritten _ ha hnone))

/-! ## The command `PARSE` (R107) -/

/-- What `PARSE` does with the buffer it has read. -/
def parsePacket (s : State) (buf : List Byte) : Answer :=
  match parse buf with
  | .error e => fail e s
  | .ok p =>
    commitBytes p.payload (warn p.warning s)
      { warn p.warning s with
        namebuf := writeRun s.namebuf 0 p.name
        res0 := lenWord p.payload.length
        res1 := lenWord p.name.length
        res2 := p.stored
        res3 := p.computed }

theorem parsePacket_of_error {s : State} {buf : List Byte} {e : ErrCode} (h : parse buf = .error e) :
    parsePacket s buf = fail e s := by rw [parsePacket, h]

theorem parsePacket_of_ok {s : State} {buf : List Byte} {p : Parsed} (h : parse buf = .ok p) :
    parsePacket s buf = commitBytes p.payload (warn p.warning s)
      { warn p.warning s with
        namebuf := writeRun s.namebuf 0 p.name
        res0 := lenWord p.payload.length
        res1 := lenWord p.name.length
        res2 := p.stored
        res3 := p.computed } := by rw [parsePacket, h]

/-- `W_CRC` exactly when the checksums differ. -/
theorem warning_eq_ite (p : Parsed) : p.warning = if p.stored = p.computed then 0 else 0x00000004 := by
  rw [Parsed.warning, warnIf, warnCrc]
  by_cases h : p.stored = p.computed
  · rw [h, bne_self_eq_false, if_pos rfl]
    rfl
  · rw [if_neg h, if_pos (bne_iff_ne.mpr h)]

theorem length_of_parse_ok {buf : List Byte} {p : Parsed} (h : parse buf = .ok p) : 14 ≤ buf.length := by
  by_contra hlt
  rw [parse_of_short (Nat.not_le.mp hlt)] at h
  cases h

theorem execParse_of_cap_lt {s : State} (hcap : s.params.binCap < s.arg0.toNat) : execParse s = fail .cap s :=
  if_pos hcap

theorem execParse_of_short {s : State} (hcap : s.arg0.toNat ≤ s.params.binCap) (hlen : s.arg0.toNat < 14) :
    execParse s = fail .short s := (if_neg (Nat.not_lt.mpr hcap)).trans (if_pos hlen)

theorem execParse_of_long {s : State} (hcap : s.arg0.toNat ≤ s.params.binCap) (hlen : 14 ≤ s.arg0.toNat) :
    execParse s = withBin s.arg0.toNat s (parsePacket s) :=
  (if_neg (Nat.not_lt.mpr hcap)).trans (if_neg (Nat.not_lt.mpr hlen))

theorem execParse_of_readRun {s : State} {buf : List Byte} (h0 : s.arg0.toNat = buf.length) (hlen : 14 ≤ buf.length)
    (hcap : buf.length ≤ s.params.binCap) (hrun : readRun s.bin 0 buf.length = some buf) :
    execParse s = parsePacket s buf := by
  rw [execParse_of_long (by rwa [h0]) (by rwa [h0]), h0, withBin_of_readRun _ hcap hrun]

/-- Settles O32. -/
theorem parseDeliversThePacket : Obligations.ParseDeliversThePacket := by
  refine ⟨fun s buf p h0 hcap hrun hparse hfits => ?_, fun s hcap => execParse_of_cap_lt hcap,
    fun s hcap hlen => execParse_of_short hcap hlen, fun s buf e h0 hlen hcap hrun hparse => ?_,
    fun s buf p h0 hcap hrun hparse hbout => ?_, fun s a hlen hcap ha hnone => ?_⟩
  · rw [← warning_eq_ite]
    exact (execParse_of_readRun h0 (length_of_parse_ok hparse) hcap hrun).trans
      ((parsePacket_of_ok hparse).trans (commitBytes_of_le _ hfits))
  · exact (execParse_of_readRun h0 hlen hcap hrun).trans (parsePacket_of_error hparse)
  · rw [← warning_eq_ite]
    exact (execParse_of_readRun h0 (length_of_parse_ok hparse) hcap hrun).trans
      ((parsePacket_of_ok hparse).trans (commitBytes_of_cap_lt _ hbout))
  · exact (execParse_of_long hcap hlen).trans (withBin_of_unwritten _ hcap ha hnone)

end Sys2Proof.Machine

/-!
PROOFS. The modulator (spec/44_modulator.md R122 to R125): a frame is the symbols of a list of selectors, one after
another, and the commands `TONE`, `PREAMB` and `MOD` commit such samples to `SOUT`.
-/

namespace Sys2Proof.Machine

/-! ## Pieces of one length -/

/-- The piece made of the element at `q`, in a list made of pieces of one length. -/
theorem slice_flatMap_of_getElem? {α β : Type} {f : α → List β} {n q : Nat} {l : List α} {x : α}
    (hf : ∀ y, (f y).length = n) (h : l[q]? = some x) : slice (l.flatMap f) (q * n) n = f x := by
  obtain ⟨hq, rfl⟩ := List.getElem?_eq_some_iff.mp h
  have hsplit : l.flatMap f = (l.take q).flatMap f ++ f l[q] ++ (l.drop (q + 1)).flatMap f := by
    conv_lhs => rw [← List.take_append_drop q l, List.drop_eq_getElem_cons hq]
    rw [List.flatMap_append, List.flatMap_cons, List.append_assoc]
  have hbefore : ((l.take q).flatMap f).length = q * n := by
    rw [length_flatMap_of_const hf, List.length_take_of_le hq.le]
  exact slice_of_eq_append hsplit hbefore (hf _)

/-! ## The preamble (R123) -/

theorem preamble_eq_append (A : Arithmetic) :
    preamble A = symbol A 256 ++ symbol A 256 ++ symbol A 256 ++ symbol A 256 ++ symbol A 256 := by
  simp [preamble, preambleSymbols, List.replicate_succ]

/-- A list whose first piece may stand at its end instead repeats after that piece. -/
theorem getElem?_add_of_append_comm {α : Type} {l a b : List α} {n i : Nat} (ha : a.length = n) (hab : l = a ++ b)
    (hba : l = b ++ a) (hi : i < b.length) : l[n + i]? = l[i]? := by
  calc l[n + i]?
      = b[i]? := by rw [hab, List.getElem?_append_right (by omega), ha, Nat.add_sub_cancel_left]
    _ = l[i]? := by rw [hba, List.getElem?_append_left hi]

/-- R123: one sync symbol and four are four and one. -/
theorem getElem?_preamble_add (A : Arithmetic) {i : Nat} (hi : i ≤ 5291) :
    (preamble A)[1323 + i]? = (preamble A)[i]? := by
  have hsymbol : (symbol A 256).length = 1323 := length_symbol A 256
  refine getElem?_add_of_append_comm hsymbol ?_ (preamble_eq_append A) ?_
  · simp only [preamble_eq_append, List.append_assoc]
  · simp only [List.length_append, hsymbol]
    omega

/-! ## The frame (R124) -/

/-- A length that its field can hold raises no `E_LEN`. -/
theorem modulate_of_length_lt (A : Arithmetic) {data : List Byte} (h : data.length < 2 ^ 32) :
    modulate A data = .ok (preamble A ++ dataSymbols A (le32Nat data.length ++ data) ++ preamble A) := by
  rw [modulate, if_neg (by omega)]
  simp only [dataSymbols, List.flatMap_append, List.append_assoc]

/-- The selectors of the symbols of a frame. -/
def frameSelectors (data : List Byte) : List Nat :=
  List.replicate 5 256 ++ (le32Nat data.length ++ data).map BitVec.toNat ++ List.replicate 5 256

theorem flatMap_symbol_frameSelectors (A : Arithmetic) (data : List Byte) :
    (frameSelectors data).flatMap (symbol A) =
      preamble A ++ dataSymbols A (le32Nat data.length ++ data) ++ preamble A := by
  have hpre : (List.replicate 5 256).flatMap (symbol A) = preamble A := by
    rw [List.flatMap, List.map_replicate, preamble, preambleSymbols]
  rw [frameSelectors, List.flatMap_append, List.flatMap_append, hpre, List.flatMap_map, dataSymbols]

/-- Between the preambles of a frame stand the bytes of the length field and of the data. -/
theorem getElem?_frameSelectors_middle (data : List Byte) {q : Nat} (h5 : 5 ≤ q) (hq : q < 9 + data.length) :
    (frameSelectors data)[q]? = (le32Nat data.length ++ data)[q - 5]?.map BitVec.toNat := by
  have hbytes : q - 5 < ((le32Nat data.length ++ data).map BitVec.toNat).length := by
    rw [List.length_map, List.length_append, length_le32Nat]
    omega
  rw [frameSelectors, List.append_assoc, List.getElem?_append_right (by rwa [List.length_replicate]),
    List.length_replicate, List.getElem?_append_left hbytes, List.getElem?_map]

theorem getElem?_eq_some_getD {α : Type} {l : List α} {i : Nat} (d : α) (h : i < l.length) :
    l[i]? = some (l.getD i d) := by rw [List.getD_eq_getElem l d h, List.getElem?_eq_getElem h]

/-- The selector at place `q`: sync, the length field, the data, sync. -/
theorem getElem?_frameSelectors (data : List Byte) {q : Nat} (hq : q < 14 + data.length) :
    (frameSelectors data)[q]? = some (
      if q < 5 then 256
      else if q < 9 then ((le32Nat data.length).getD (q - 5) 0).toNat
      else if q < 9 + data.length then (data.getD (q - 9) 0).toNat
      else 256) := by
  have hfield := length_le32Nat data.length
  split_ifs with hsync hlength hdata
  · rw [frameSelectors, List.append_assoc, List.getElem?_append_left (by rwa [List.length_replicate]),
      List.getElem?_replicate_of_lt hsync]
  · rw [getElem?_frameSelectors_middle data (by omega) (by omega), List.getElem?_append_left (by omega),
      getElem?_eq_some_getD 0 (by omega), Option.map_some]
  · rw [getElem?_frameSelectors_middle data (by omega) hdata, List.getElem?_append_right (by omega), hfield,
      Nat.sub_sub, getElem?_eq_some_getD 0 (by omega), Option.map_some]
  · have hbefore :
        (List.replicate 5 256 ++ (le32Nat data.length ++ data).map BitVec.toNat).length = 9 + data.length := by
      simp only [List.length_append, List.length_replicate, List.length_map, hfield]
      omega
    rw [frameSelectors, List.getElem?_append_right (by omega), hbefore, List.getElem?_replicate_of_lt (by omega)]

/-- Settles O41: the frame is the symbols of `frameSelectors`, one after another. -/
theorem frameLayoutSymbolBySymbol : Obligations.FrameLayoutSymbolBySymbol := by
  intro A data hdata
  have hframe := modulate_of_length_lt A hdata
  refine ⟨_, hframe, length_of_modulate hframe, fun q hq => ?_⟩
  rw [← flatMap_symbol_frameSelectors]
  refine (slice_flatMap_of_getElem? (length_symbol A) (getElem?_frameSelectors data hq)).trans ?_
  simp only [apply_ite (symbol A), le32Nat]

/-! ## The commands -/

/-- Samples that fit are committed (R36). -/
theorem commitSamples_of_le {out : List Sample} {s : State} (t : State) (h : out.length ≤ s.params.soutCap) :
    commitSamples out s t = .next { t with sout := writeRun t.sout 0 out, status := 0x00000002 } :=
  if_neg (Nat.not_lt.mpr h)

/-- R7: a preamble fits `SOUT`. -/
theorem soutCap_ge {p : Params} (h : p.ok = true) : 6615 ≤ p.soutCap := by
  simp only [Params.ok, Bool.and_eq_true, decide_eq_true_eq] at h
  omega

theorem toneOperand_of_le {w : Word} (h : w.toNat ≤ 256) : toneOperand w = some w.toNat := if_pos h

/-- R122: a selector above 256 names no tone. -/
theorem toneOperand_of_gt {w : Word} (h : 256 < w.toNat) : toneOperand w = none := if_neg (Nat.not_le.mpr h)

theorem execTone_of_le {s : State} (h : s.arg0.toNat ≤ 256) :
    execTone s = commitSamples (symbol s.arithmetic s.arg0.toNat) s { s with res0 := lenWord symbolLen } := by
  rw [execTone, toneOperand_of_le h]

theorem execTone_of_gt {s : State} (h : 256 < s.arg0.toNat) : execTone s = fail .arg s := by
  rw [execTone, toneOperand_of_gt h]

/-- Settles O37. -/
theorem toneWritesOneSymbol : Obligations.ToneWritesOneSymbol := by
  refine ⟨fun s hs hsel => ?_, fun s hsel => execTone_of_gt hsel⟩
  have hlen : (symbol s.arithmetic s.arg0.toNat).length = 1323 := length_symbol _ _
  have hfits := soutCap_ge hs
  exact ⟨hlen, (execTone_of_le hsel).trans (commitSamples_of_le _ (hlen.trans_le (by omega)))⟩

/-- Settles O39: the ranges of R7 leave no capacity error. -/
theorem preambWritesFiveSyncSymbols : Obligations.PreambWritesFiveSyncSymbols := by
  refine ⟨fun s sync hs hsync => ?_, rfl, fun A => ⟨length_preamble A, fun i hi => getElem?_preamble_add A hi⟩⟩
  have hfits : (preamble s.arithmetic).length ≤ s.params.soutCap := (length_preamble _).trans_le (soutCap_ge hs)
  rw [hsync, ← preamble_eq_append]
  calc exec .preamb s
      = commitSamples (preamble s.arithmetic) s { s with res0 := lenWord preambleLen } := execPreamb.eq_def s
    _ = _ := commitSamples_of_le _ hfits

/-- What `MOD` does with the data it has read. -/
def modulateData (s : State) (data : List Byte) : Answer :=
  match modulate s.arithmetic data with
  | .error e => fail e s
  | .ok out => commitSamples out s { s with res0 := lenWord (frameSamples s.arg0.toNat) }

theorem modulateData_of_ok {s : State} {data : List Byte} {out : List Sample}
    (h : modulate s.arithmetic data = .ok out) :
    modulateData s data = commitSamples out s { s with res0 := lenWord (frameSamples s.arg0.toNat) } := by
  rw [modulateData, h]

theorem execMod_of_sout_lt {s : State} (h : s.params.soutCap < frameSamples s.arg0.toNat) :
    execMod s = fail .cap s := if_pos h

/-- With room for the frame, the data is read. -/
theorem execMod_of_sout_le {s : State} (h : frameSamples s.arg0.toNat ≤ s.params.soutCap) :
    execMod s = withBin s.arg0.toNat s (modulateData s) := if_neg (Nat.not_lt.mpr h)

theorem execMod_of_readRun {s : State} {data : List Byte} (h0 : s.arg0.toNat = data.length)
    (hbin : data.length ≤ s.params.binCap) (hsout : frameSamples data.length ≤ s.params.soutCap)
    (hrun : readRun s.bin 0 data.length = some data) :
    execMod s = .next { s with
      sout := writeRun s.sout 0
        (preamble s.arithmetic ++ dataSymbols s.arithmetic (le32 s.arg0 ++ data) ++ preamble s.arithmetic)
      res0 := lenWord (frameSamples data.length)
      status := 0x00000002 } := by
  have hframe := modulate_of_length_lt s.arithmetic (h0 ▸ s.arg0.isLt)
  have hfits := (length_of_modulate hframe).trans_le hsout
  rw [execMod_of_sout_le (h0 ▸ hsout), h0, withBin_of_readRun _ hbin hrun, modulateData_of_ok hframe,
    commitSamples_of_le _ hfits, ← h0, le32Nat_toNat]

/-- Settles O40. -/
theorem modWritesTheFrame : Obligations.ModWritesTheFrame := by
  refine ⟨fun s data pre h0 hbin hsout hrun hpre => ?_, fun s hcap => ?_, fun s a hbin hsout ha hnone => ?_⟩
  · rw [hpre]
    exact execMod_of_readRun h0 hbin hsout hrun
  · change execMod s = fail .cap s
    rcases Nat.lt_or_ge s.params.soutCap (frameSamples s.arg0.toNat) with hsout | hsout
    · exact execMod_of_sout_lt hsout
    · rw [execMod_of_sout_le hsout]
      exact withBin_of_cap_lt _ (hcap.resolve_right (Nat.not_lt.mpr hsout))
  · exact (execMod_of_sout_le hsout).trans (withBin_of_unwritten _ hbin ha hnone)

end Sys2Proof.Machine

/-!
PROOFS. Magnitudes in exact arithmetic (spec/45_demodulator.md R135, R136): the machine computes the recurrence over the
reals, and the recurrence computes the modulus of the windowed Fourier sum.
-/

namespace Sys2Proof.Machine

/-! ## The phase factor of one sample -/

/-- `e^(-jω)`. -/
noncomputable def phase (w : ℝ) : ℂ := Complex.exp (-(Complex.I * w))

theorem phase_pow (w : ℝ) (n : ℕ) : phase w ^ n = Complex.exp (-(Complex.I * w * n)) := by
  rw [phase, ← Complex.exp_nat_mul]
  congr 1
  ring

theorem phase_eq_cos_sub_sin (w : ℝ) : phase w = Real.cos w - Real.sin w * Complex.I := by
  rw [phase, mul_comm, ← neg_mul, ← Complex.ofReal_neg, Complex.exp_ofReal_mul_I, Real.cos_neg, Real.sin_neg,
    Complex.ofReal_neg, neg_mul, sub_eq_add_neg]

theorem norm_phase (w : ℝ) : ‖phase w‖ = 1 := by
  rw [phase, mul_comm, ← neg_mul, ← Complex.ofReal_neg, Complex.norm_exp_ofReal_mul_I]

/-- The quadratic equation that makes the recurrence of R135 a Fourier sum. -/
theorem two_cos_mul_phase (w : ℝ) : 2 * (Real.cos w : ℂ) * phase w = 1 + phase w ^ 2 := by
  have hone : (Real.sin w : ℂ) ^ 2 + (Real.cos w : ℂ) ^ 2 = 1 := by exact_mod_cast Real.sin_sq_add_cos_sq w
  rw [phase_eq_cos_sub_sin]
  linear_combination hone - (Real.sin w : ℂ) ^ 2 * Complex.I_sq

/-! ## The recurrence is a Fourier sum (R136 (a)) -/

/-- The complex number whose modulus ends R135, `q1 - q2·e^(-jω)`. -/
noncomputable def phasor (w : ℝ) (q : ℝ × ℝ) : ℂ := q.1 - q.2 * phase w

theorem norm_phasor (w : ℝ) (q : ℝ × ℝ) :
    ‖phasor w q‖ = Real.sqrt ((q.1 - q.2 * Real.cos w) ^ 2 + (q.2 * Real.sin w) ^ 2) := by
  have hparts : phasor w q = (q.1 - q.2 * Real.cos w : ℝ) + (q.2 * Real.sin w : ℝ) * Complex.I := by
    rw [phasor, phase_eq_cos_sub_sin]
    push_cast
    ring
  rw [hparts, Complex.norm_add_mul_I]

/-- One iteration adds the sample to the phasor and turns it by `ω`. -/
theorem phasor_realGoertzelStep (w : ℝ) (q : ℝ × ℝ) (x : ℝ) :
    phasor w (realGoertzelStep (2 * Real.cos w) q x) * phase w = phasor w q + x * phase w := by
  simp only [phasor, realGoertzelStep]
  push_cast [-Complex.ofReal_cos]
  linear_combination (q.1 : ℂ) * two_cos_mul_phase w

/-- The windowed Fourier sum at the angle `w` per sample. -/
noncomputable def fourierSum (window : List ℝ) (w : ℝ) : ℂ :=
  (window.zipIdx.map fun t => (t.1 : ℂ) * phase w ^ t.2).sum

theorem fourierSum_append_singleton (window : List ℝ) (x w : ℝ) :
    fourierSum (window ++ [x]) w = fourierSum window w + x * phase w ^ window.length := by
  simp [fourierSum, List.zipIdx_append]

theorem norm_fourierSum (window : List ℝ) (f : ℝ) :
    ‖fourierSum window (2 * Real.pi * f / 44100)‖ = fourierModulus window f := by
  simp only [fourierSum, fourierModulus, phase_pow]

/-- After the whole window the phasor is the Fourier sum, turned. -/
theorem phasor_foldl_mul_phase_pow (w : ℝ) (window : List ℝ) :
    phasor w (window.foldl (realGoertzelStep (2 * Real.cos w)) (0, 0)) * phase w ^ window.length =
      phase w * fourierSum window w := by
  induction window using List.reverseRecOn with
  | nil => simp [phasor, fourierSum]
  | append_singleton window x ih =>
    rw [List.foldl_append, List.foldl_cons, List.foldl_nil, fourierSum_append_singleton, List.length_append,
      List.length_singleton]
    have hstep := phasor_realGoertzelStep w (window.foldl (realGoertzelStep (2 * Real.cos w)) (0, 0)) x
    linear_combination ih + phase w ^ window.length * hstep

/-- R136 (a), for any window and any real frequency. -/
theorem realGoertzel_eq_fourierModulus (window : List ℝ) (f : ℝ) : realGoertzel window f = fourierModulus window f := by
  have hturned := congrArg norm (phasor_foldl_mul_phase_pow (2 * Real.pi * f / 44100) window)
  rw [norm_mul, norm_mul, norm_pow, norm_phase, one_pow, mul_one, one_mul, norm_phasor, norm_fourierSum] at hturned
  exact hturned

/-! ## The machine computes in the reals (R135) -/

/-- The exact cosine of the machine is the cosine of the angle of R135. -/
theorem realOf_exact_cos {f : Nat} (hf : 50 ∣ f) (i : Nat) :
    realOf (exactArithmetic.cos f i) = Real.cos (2 * Real.pi * f * i / 44100) := by
  have hnum : (25 : ℝ) * angleNumber f i = f * i := by exact_mod_cast angleNumber_mul hf i
  rw [exactArithmetic, realOf_ofTrig, trigValue_cosTerm, Rat.cast_one, one_mul]
  congr 1
  linear_combination (Real.pi / 22050) * hnum

theorem realOf_exact_const (q : Rat) : realOf (exactArithmetic.const q) = q := by
  rw [exactArithmetic, realOf_ofTrig, trigValue_ofRat]

theorem realOf_exact_add (x y : Sample) : realOf (exactArithmetic.add x y) = realOf x + realOf y := realOf_add x y

theorem realOf_exact_sub (x y : Sample) : realOf (exactArithmetic.sub x y) = realOf x - realOf y := realOf_sub x y

theorem realOf_exact_mul (x y : Sample) : realOf (exactArithmetic.mul x y) = realOf x * realOf y := realOf_mul x y

/-- The reals two accumulators hold. -/
noncomputable def realPair (a : Accumulators) : ℝ × ℝ := (realOf a.q1, realOf a.q2)

theorem realPair_goertzelStep (c : Sample) (a : Accumulators) (x : Sample) :
    realPair (goertzelStep exactArithmetic c a x) = realGoertzelStep (realOf c) (realPair a) (realOf x) := by
  simp only [realPair, goertzelStep, realGoertzelStep, realOf_exact_add, realOf_exact_sub, realOf_exact_mul]

theorem realPair_foldl_goertzelStep (c : Sample) (window : List Sample) (a : Accumulators) :
    realPair (window.foldl (goertzelStep exactArithmetic c) a) =
      (window.map realOf).foldl (realGoertzelStep (realOf c)) (realPair a) := by
  rw [List.foldl_map]
  exact (List.foldl_hom realPair fun a x => (realPair_goertzelStep c a x).symm).symm

/-- R135 in exact arithmetic, for any window. -/
theorem magOf_goertzelWindow {f : Nat} (hf : 50 ∣ f) (window : List Sample) :
    magOf (goertzelWindow exactArithmetic window f) = realGoertzel (window.map realOf) f := by
  have hcos : realOf (exactArithmetic.cos f 1) = Real.cos (2 * Real.pi * f / 44100) := by
    rw [realOf_exact_cos hf, Nat.cast_one, mul_one]
  have hsin : realOf (exactArithmetic.sin f 1) = Real.sin (2 * Real.pi * f / 44100) := by
    rw [realOf_exact_sin hf, Nat.cast_one, mul_one]
  have hfold := realPair_foldl_goertzelStep (exactArithmetic.mul (exactArithmetic.const 2) (exactArithmetic.cos f 1))
    window { q1 := exactArithmetic.const 0, q2 := exactArithmetic.const 0 }
  simp only [realPair, realOf_exact_mul, realOf_exact_const, hcos, Rat.cast_zero, Rat.cast_ofNat] at hfold
  rw [magOf, goertzelWindow]
  change Real.sqrt (realOf (exactArithmetic.add _ _)) = _
  simp only [realGoertzel, ← hfold, realOf_exact_add, realOf_exact_sub, realOf_exact_mul, hcos, hsin, pow_two]

/-- R135, R60: the magnitude at a tone, with the frequency written out. -/
theorem magOf_goertzel_freq (x : List Sample) (s t : ℕ) :
    magOf (goertzel exactArithmetic x s (freq t)) =
      realGoertzel ((slice x s 1323).map realOf) (if t = 256 then 1000 else 2000 + 50 * (t : ℝ)) := by
  rw [← freq_cast]
  exact magOf_goertzelWindow (dvd_freq t) _

/-- Settles O43. -/
theorem magnitudeIsTheRealGoertzel : Obligations.MagnitudeIsTheRealGoertzel :=
  fun x s t _ _ => magOf_goertzel_freq x s t

/-- Settles O44: the recurrence is a Fourier sum (`realGoertzel_eq_fourierModulus`). -/
theorem magnitudeIsTheFourierModulus : Obligations.MagnitudeIsTheFourierModulus :=
  fun x s t _ _ => (magOf_goertzel_freq x s t).trans (realGoertzel_eq_fourierModulus _ _)

end Sys2Proof.Machine

/-!
PROOFS. The comparisons of the demodulator in exact arithmetic (spec/45_demodulator.md R137, R139): the sync count and the
tone detector compare real magnitudes.
-/

namespace Sys2Proof.Machine

/-! ## The sync count (R137) -/

/-- The numbers below `n` that pass, counted in a list and as a set. -/
theorem length_filter_range_eq_ncard (n : ℕ) (p : ℕ → Bool) :
    ((List.range n).filter p).length = Set.ncard {w : Fin n | p w = true} := by
  have hcount : ((List.range n).filter p).length = ((Finset.range n).filter fun w => p w = true).card := by
    rw [← List.toFinset_range, ← List.toFinset_filter, List.toFinset_card_of_nodup (List.nodup_range.filter _)]
  rw [hcount, Set.ncard_eq_toFinset_card']
  refine (Finset.card_bij (fun w _ => w.val) (fun w hw => ?_) (fun _ _ _ _ => Fin.ext) fun w hw => ?_).symm
  · simpa using hw
  · obtain ⟨hlt, hp⟩ := Finset.mem_filter.mp hw
    exact ⟨⟨w, Finset.mem_range.mp hlt⟩, by simpa using hp, rfl⟩

/-- A window passes when its real magnitude at 1000 Hz exceeds the threshold. -/
theorem above_goertzel_sync_iff (threshold : ℚ) (x : List Sample) (s : ℕ) :
    exactArithmetic.above (goertzel exactArithmetic x s syncFreq) threshold = true ↔
      (threshold : ℝ) < realGoertzel ((slice x s 1323).map realOf) 1000 := by
  have hmag : magOf (goertzel exactArithmetic x s syncFreq) = realGoertzel ((slice x s 1323).map realOf) 1000 :=
    (magOf_goertzel_freq x s 256).trans (by rw [if_pos rfl])
  have hform : Sample.ok (goertzel exactArithmetic x s syncFreq).square = true := ok_goertzelWindow keepsForm_exact _ _
  rw [exact_above_iff _ hform, hmag]

/-- Settles O46. -/
theorem syncCountComparesRealMagnitudes : Obligations.SyncCountComparesRealMagnitudes := by
  intro threshold x s _
  rw [syncCount, preambleSymbols, length_filter_range_eq_ncard]
  simp only [above_goertzel_sync_iff]
  rfl

/-! ## The tone detector (R139) -/

/-- `k` is the least of `0..n` where `m` is greatest. -/
def IsLeastMaximum (m : ℕ → ℝ) (n k : ℕ) : Prop :=
  k ≤ n ∧ (∀ j, j ≤ n → m j ≤ m k) ∧ ∀ j, j < k → m j < m k

theorem isLeastMaximum_zero (m : ℕ → ℝ) : IsLeastMaximum m 0 0 :=
  ⟨le_rfl, fun j hj => by rw [Nat.le_zero.mp hj], fun j hj => absurd hj (Nat.not_lt_zero j)⟩

/-- A strictly greater value takes over. -/
theorem IsLeastMaximum.replaced {m : ℕ → ℝ} {n k : ℕ} (h : IsLeastMaximum m n k) (hgt : m k < m (n + 1)) :
    IsLeastMaximum m (n + 1) (n + 1) := by
  obtain ⟨_, hmax, _⟩ := h
  have hbelow : ∀ j, j < n + 1 → m j < m (n + 1) := fun j hj => (hmax j (Nat.lt_succ_iff.mp hj)).trans_lt hgt
  refine ⟨le_rfl, fun j hj => ?_, hbelow⟩
  rcases hj.lt_or_eq with hlt | rfl
  · exact (hbelow j hlt).le
  · exact le_rfl

/-- A value that is not strictly greater does not. -/
theorem IsLeastMaximum.kept {m : ℕ → ℝ} {n k : ℕ} (h : IsLeastMaximum m n k) (hle : m (n + 1) ≤ m k) :
    IsLeastMaximum m (n + 1) k := by
  obtain ⟨hk, hmax, hleast⟩ := h
  refine ⟨hk.trans n.le_succ, fun j hj => ?_, hleast⟩
  rcases hj.lt_or_eq with hlt | rfl
  · exact hmax j (Nat.lt_succ_iff.mp hlt)
  · exact hle

/-- A place where `m` is strictly greatest is the least maximum. -/
theorem IsLeastMaximum.eq_of_strict {m : ℕ → ℝ} {n k t : ℕ} (h : IsLeastMaximum m n k) (ht : t ≤ n)
    (hstrict : ∀ j, j ≤ n → j ≠ t → m j < m t) : k = t := by
  obtain ⟨hk, hmax, _⟩ := h
  by_contra hne
  exact absurd (hmax t ht) (not_le.mpr (hstrict k hk hne))

/-- The real magnitude of a window at a data tone. -/
noncomputable def toneMagnitude (window : List Sample) (k : ℕ) : ℝ :=
  magOf (goertzelWindow exactArithmetic window (freq k))

/-- The tones up to `n`, one turn of the loop of R139 for each. -/
def bestOfTones (A : Arithmetic) (window : List Sample) (n : ℕ) : BestTone :=
  (List.range' 1 n).foldl (detectStep A window) { tone := 0, magnitude := goertzelWindow A window (freq 0) }

theorem detectTone_eq_bestOfTones (A : Arithmetic) (x : List Sample) (s : ℕ) :
    detectTone A x s = bestOfTones A (slice x s 1323) 255 := rfl

theorem bestOfTones_succ (A : Arithmetic) (window : List Sample) (n : ℕ) :
    bestOfTones A window (n + 1) = detectStep A window (bestOfTones A window n) (n + 1) := by
  rw [bestOfTones, List.range'_1_concat, List.foldl_append, Nat.add_comm 1 n]
  rfl

/-- One turn of the loop in exact arithmetic: the comparison is that of the real magnitudes. -/
theorem detectStep_exact {window : List Sample} {best : BestTone} (k : ℕ)
    (hbest : best.magnitude = goertzelWindow exactArithmetic window (freq best.tone)) :
    detectStep exactArithmetic window best k =
      if toneMagnitude window best.tone < toneMagnitude window k then
        { tone := k, magnitude := goertzelWindow exactArithmetic window (freq k) }
      else best := by
  have hform (f : ℕ) := ok_goertzelWindow keepsForm_exact window f
  have hgreater := exact_greater_iff _ _ (hform (freq k)) (hform (freq best.tone)) (goertzelWindow_nonneg window _)
  rw [detectStep, hbest]
  exact if_congr hgreater rfl rfl

/-- The running best of the loop is the least maximum of the tones it has seen, with its magnitude. -/
theorem bestOfTones_exact (window : List Sample) (n : ℕ) :
    (bestOfTones exactArithmetic window n).magnitude =
        goertzelWindow exactArithmetic window (freq (bestOfTones exactArithmetic window n).tone) ∧
      IsLeastMaximum (toneMagnitude window) n (bestOfTones exactArithmetic window n).tone := by
  induction n with
  | zero => exact ⟨rfl, isLeastMaximum_zero _⟩
  | succ n ih =>
    obtain ⟨hmag, hleast⟩ := ih
    rw [bestOfTones_succ, detectStep_exact _ hmag]
    split_ifs with hgt
    · exact ⟨rfl, hleast.replaced hgt⟩
    · exact ⟨hmag, hleast.kept (not_lt.mp hgt)⟩

/-- Settles O49. -/
theorem detectedToneIsTheLeastMaximum : Obligations.DetectedToneIsTheLeastMaximum := by
  intro x s m _ hm
  have hreal : ∀ k, k ≤ 255 → toneMagnitude (slice x s 1323) k = m k := fun k hk =>
    (magOf_goertzel_freq x s k).trans (by rw [hm, if_neg (by omega)])
  obtain ⟨hmag, hle, hmax, hleast⟩ := bestOfTones_exact (slice x s 1323) 255
  rw [← detectTone_eq_bestOfTones] at hmag hle hmax hleast
  refine ⟨_, rfl, hle, ?_, fun k hk => ?_, fun k hk => ?_⟩
  · rw [hmag, ← hreal _ hle]
    rfl
  · rw [← hreal k hk, ← hreal _ hle]
    exact hmax k hk
  · rw [← hreal k (hk.le.trans hle), ← hreal _ hle]
    exact hleast k hk

end Sys2Proof.Machine

/-!
PROOFS. The preamble search (spec/45_demodulator.md R137, R142 (b)): the fuel of the loop never ends it, so the search from
a cursor obeys the equations of the loop, and what it finds follows by going through the audio in its steps.
-/

namespace Sys2Proof.Machine

section search

variable (A : Arithmetic) (threshold : ℚ) (x : List Sample)

/-! ## The search without fuel -/

/-- Five windows do not fit behind the cursor. -/
theorem searchFrom_of_short {s : ℕ} (fuel : ℕ) (h : x.length < s + 6615) : searchFrom A threshold x fuel s = [] := by
  cases fuel with
  | zero => rfl
  | succ fuel => exact if_neg (Nat.not_le.mpr h)

/-- Turns that reach the end of the audio are enough: any two such numbers of turns give the same positions. -/
theorem searchFrom_congr_fuel {m n s : ℕ} (hm : x.length < s + 661 * m) (hn : x.length < s + 661 * n) :
    searchFrom A threshold x m s = searchFrom A threshold x n s := by
  induction m generalizing n s with
  | zero =>
    have hshort : x.length < s + 6615 := by omega
    rw [searchFrom_of_short A threshold x 0 hshort, searchFrom_of_short A threshold x n hshort]
  | succ m ih =>
    cases n with
    | zero =>
      have hshort : x.length < s + 6615 := hn.trans (by omega)
      rw [searchFrom_of_short A threshold x (m + 1) hshort, searchFrom_of_short A threshold x 0 hshort]
    | succ n =>
      have hjump : searchFrom A threshold x m (s + preambleLen) = searchFrom A threshold x n (s + preambleLen) :=
        ih (by rw [preambleLen]; omega) (by rw [preambleLen]; omega)
      have hstride : searchFrom A threshold x m (s + stride) = searchFrom A threshold x n (s + stride) :=
        ih (by rw [stride]; omega) (by rw [stride]; omega)
      rw [searchFrom, searchFrom, hjump, hstride]

/-- The positions the loop of R137 finds from the cursor `s` on. -/
def searchAt (s : ℕ) : List ℕ := searchFrom A threshold x (x.length / stride + 1) s

theorem findPreambles_eq_searchAt : findPreambles A threshold x = searchAt A threshold x 0 := rfl

theorem searchFrom_eq_searchAt {fuel s : ℕ} (h : x.length < s + 661 * fuel) :
    searchFrom A threshold x fuel s = searchAt A threshold x s :=
  searchFrom_congr_fuel A threshold x h (by rw [stride]; omega)

theorem searchAt_of_short {s : ℕ} (h : x.length < s + 6615) : searchAt A threshold x s = [] :=
  searchFrom_of_short A threshold x _ h

/-- One turn of the loop, with what the turns left give. -/
theorem searchAt_of_fits {s : ℕ} (h : s + 6615 ≤ x.length) :
    searchAt A threshold x s =
      if 4 ≤ syncCount A threshold x s then (s + 6615) :: searchAt A threshold x (s + 6615)
      else searchAt A threshold x (s + 661) := by
  have hlen := Nat.div_add_mod x.length 661
  have hmod := Nat.mod_lt x.length (show 661 > 0 by omega)
  have hjump : searchFrom A threshold x (x.length / stride) (s + preambleLen) = searchAt A threshold x (s + 6615) :=
    searchFrom_eq_searchAt A threshold x (by rw [stride, preambleLen]; omega)
  have hstride : searchFrom A threshold x (x.length / stride) (s + stride) = searchAt A threshold x (s + 661) :=
    searchFrom_eq_searchAt A threshold x (by rw [stride]; omega)
  rw [searchAt, searchFrom, if_pos (show s + preambleLen ≤ x.length from h), hjump, hstride]
  rfl

theorem searchAt_of_match {s : ℕ} (h : s + 6615 ≤ x.length) (hcount : 4 ≤ syncCount A threshold x s) :
    searchAt A threshold x s = (s + 6615) :: searchAt A threshold x (s + 6615) := by
  rw [searchAt_of_fits A threshold x h, if_pos hcount]

theorem searchAt_of_noMatch {s : ℕ} (h : s + 6615 ≤ x.length) (hcount : syncCount A threshold x s < 4) :
    searchAt A threshold x s = searchAt A threshold x (s + 661) := by
  rw [searchAt_of_fits A threshold x h, if_neg (Nat.not_le.mpr hcount)]

/-! ## The first match -/

/-- The grid of the search from `s` on: either no place of it matches, or one is the first. -/
theorem searchAt_cases (s : ℕ) :
    (searchAt A threshold x s = [] ∧
        ∀ j, s + 661 * j + 6615 ≤ x.length → syncCount A threshold x (s + 661 * j) < 4) ∨
      ∃ j, s + 661 * j + 6615 ≤ x.length ∧ 4 ≤ syncCount A threshold x (s + 661 * j) ∧
        (∀ i, i < j → syncCount A threshold x (s + 661 * i) < 4) ∧
        searchAt A threshold x s = (s + 661 * j + 6615) :: searchAt A threshold x (s + 661 * j + 6615) := by
  induction hleft : x.length - s using Nat.strong_induction_on generalizing s with | _ left ih
  rcases Nat.lt_or_ge x.length (s + 6615) with hshort | hfits
  · exact .inl ⟨searchAt_of_short A threshold x hshort, fun j hj => by omega⟩
  rcases Nat.lt_or_ge (syncCount A threshold x s) 4 with hno | hmatch
  · have hnext : ∀ i, s + 661 + 661 * i = s + 661 * (i + 1) := fun i => by ring
    rw [searchAt_of_noMatch A threshold x hfits hno]
    rcases ih _ (by omega) (s + 661) rfl with ⟨hnil, hnone⟩ | ⟨j, hj, hcount, hfirst, hcons⟩
    · refine .inl ⟨hnil, fun j hj => ?_⟩
      cases j with
      | zero => exact hno
      | succ j =>
        rw [← hnext] at hj ⊢
        exact hnone j hj
    · refine .inr ⟨j + 1, ?_⟩
      rw [← hnext]
      refine ⟨hj, hcount, fun i hi => ?_, hcons⟩
      cases i with
      | zero => exact hno
      | succ i =>
        rw [← hnext]
        exact hfirst i (Nat.lt_of_succ_lt_succ hi)
  · exact .inr ⟨0, hfits, hmatch, fun i hi => absurd hi (Nat.not_lt_zero i),
      searchAt_of_match A threshold x hfits hmatch⟩

theorem searchAt_eq_nil_iff (s : ℕ) :
    searchAt A threshold x s = [] ↔
      ∀ j, s + 661 * j + 6615 ≤ x.length → syncCount A threshold x (s + 661 * j) < 4 := by
  rcases searchAt_cases A threshold x s with ⟨hnil, hnone⟩ | ⟨j, hj, hcount, _, hcons⟩
  · exact iff_of_true hnil hnone
  · exact iff_of_false (by rw [hcons]; exact List.cons_ne_nil _ _) fun hnone =>
      absurd (hnone j hj) (Nat.not_lt.mpr hcount)

/-- The first position, and the search that starts again there. -/
theorem searchAt_eq_cons {s p : ℕ} {rest : List ℕ} (h : searchAt A threshold x s = p :: rest) :
    ∃ j, p = s + 661 * j + 6615 ∧ p ≤ x.length ∧ 4 ≤ syncCount A threshold x (s + 661 * j) ∧
      (∀ i, i < j → syncCount A threshold x (s + 661 * i) < 4) ∧ rest = searchAt A threshold x p := by
  rcases searchAt_cases A threshold x s with ⟨hnil, _⟩ | ⟨j, hj, hcount, hfirst, hcons⟩
  · rw [hnil] at h
    cases h
  · rw [hcons] at h
    cases h
    exact ⟨j, rfl, hj, hcount, hfirst, rfl⟩

/-! ## All positions -/

/-- Every position ends five windows of the audio behind the cursor, of which four pass. -/
theorem of_mem_searchAt {s p : ℕ} (h : p ∈ searchAt A threshold x s) :
    s + 6615 ≤ p ∧ p ≤ x.length ∧ 4 ≤ syncCount A threshold x (p - 6615) := by
  induction hl : searchAt A threshold x s generalizing s with
  | nil => rw [hl] at h; cases h
  | cons q rest ih =>
    obtain ⟨j, hq, hinside, hcount, _, hrest⟩ := searchAt_eq_cons A threshold x hl
    rw [hl] at h
    rcases List.mem_cons.mp h with rfl | hmem
    · rw [hq, Nat.add_sub_cancel]
      exact ⟨by omega, by omega, hcount⟩
    · obtain ⟨hbehind, hlater⟩ := ih (hrest ▸ hmem) hrest.symm
      exact ⟨by omega, hlater⟩

/-- R137: positions are at least 6615 apart. -/
theorem pairwise_searchAt (s : ℕ) : (searchAt A threshold x s).Pairwise fun p q => p + 6615 ≤ q := by
  induction hl : searchAt A threshold x s generalizing s with
  | nil => exact List.Pairwise.nil
  | cons p rest ih =>
    obtain ⟨_, _, _, _, _, hrest⟩ := searchAt_eq_cons A threshold x hl
    refine List.Pairwise.cons (fun q hq => ?_) (ih p hrest.symm)
    rw [hrest] at hq
    exact (of_mem_searchAt A threshold x hq).1

/-! ## The search of the rest of the audio -/

theorem slice_drop {α : Type} (a : List α) (p off len : ℕ) : slice (a.drop p) off len = slice a (p + off) len := by
  rw [slice, slice, List.drop_drop]

theorem syncCount_drop (p s : ℕ) : syncCount A threshold (x.drop p) s = syncCount A threshold x (p + s) := by
  simp only [syncCount, goertzel, slice_drop, Nat.add_assoc]

/-- Dropping what lies before the cursor shifts the positions. -/
theorem searchFrom_drop (p fuel s : ℕ) :
    searchFrom A threshold x fuel (p + s) = (searchFrom A threshold (x.drop p) fuel s).map fun q => p + q := by
  induction fuel generalizing s with
  | zero => rfl
  | succ fuel ih =>
    have hfits : s + preambleLen ≤ (x.drop p).length ↔ p + s + preambleLen ≤ x.length := by
      rw [List.length_drop, preambleLen]
      omega
    simp only [searchFrom, hfits, syncCount_drop, Nat.add_assoc p s, ih]
    split_ifs <;> rfl

theorem searchAt_eq_map_findPreambles_drop (p : ℕ) :
    searchAt A threshold x p = (findPreambles A threshold (x.drop p)).map fun q => p + q := by
  have hrest : searchFrom A threshold (x.drop p) (x.length / stride + 1) 0 = findPreambles A threshold (x.drop p) :=
    searchFrom_eq_searchAt A threshold (x.drop p) (by rw [List.length_drop, stride]; omega)
  rw [← hrest, ← searchFrom_drop]
  rfl

end search

/-- Settles O47. -/
theorem searchFindsEveryGridMatch : Obligations.SearchFindsEveryGridMatch := by
  intro A threshold x
  simp only [findPreambles_eq_searchAt A threshold x]
  refine ⟨?_, fun p rest h => ?_, pairwise_searchAt A threshold x 0, fun p hp => ?_⟩
  · simpa only [Nat.zero_add] using searchAt_eq_nil_iff A threshold x 0
  · obtain ⟨j, hp, hinside, hcount, hfirst, hrest⟩ := searchAt_eq_cons A threshold x h
    simp only [Nat.zero_add] at hp hcount hfirst
    exact ⟨⟨j, hp, hinside, hcount, hfirst⟩, hrest.trans (searchAt_eq_map_findPreambles_drop A threshold x p)⟩
  · simpa only [Nat.zero_add] using of_mem_searchAt A threshold x hp

end Sys2Proof.Machine

/-!
PROOFS. The frame decode (spec/45_demodulator.md R140, R141): the data loop reads the whole windows behind the length field,
as many as the length field says.
-/

namespace Sys2Proof.Machine

section frame

variable (A : Arithmetic) (threshold : ℚ) (x : List Sample)

/-! ## The data loop -/

/-- How many of `n` symbols from `p` on lie inside the audio. -/
def symbolsRead (n p : ℕ) : ℕ := min n ((x.length - p) / 1323)

theorem symbolsRead_succ_of_short {n p : ℕ} (h : x.length < p + 1323) : symbolsRead x (n + 1) p = 0 := by
  rw [symbolsRead]
  omega

theorem symbolsRead_succ_of_fits {n p : ℕ} (h : p + 1323 ≤ x.length) :
    symbolsRead x (n + 1) p = symbolsRead x n (p + 1323) + 1 := by
  rw [symbolsRead, symbolsRead]
  omega

/-- The data loop of R140, said at once: the symbols read are those that lie inside the audio. -/
theorem readSymbols_eq (n p : ℕ) :
    readSymbols A x n p =
      { bytes := (List.range (symbolsRead x n p)).map fun i => detectByte A x (p + i * 1323)
        truncated := decide (symbolsRead x n p < n)
        lost := (List.range (symbolsRead x n p)).any fun i => toneLost A x (p + i * 1323) } := by
  induction n generalizing p with
  | zero =>
    rw [symbolsRead, Nat.zero_min]
    rfl
  | succ n ih =>
    rcases Nat.lt_or_ge x.length (p + 1323) with hshort | hfits
    · rw [readSymbols, symbolLen, if_pos hshort, symbolsRead_succ_of_short x hshort]
      simp
    · have hnext : ∀ i, p + 1323 + i * 1323 = p + (i + 1) * 1323 := fun i => by ring
      rw [readSymbols, symbolLen, if_neg (Nat.not_lt.mpr hfits), ih,
        symbolsRead_succ_of_fits x hfits, List.range_succ_eq_map]
      simp [hnext, Function.comp_def]

/-! ## The outcomes of `demodulate` -/

/-- The frame that starts at `start`: its length field and its data. -/
def frameAt (start : ℕ) : Demodulated :=
  let dlen := unle32 ((List.range 4).map fun j => detectByte A x (start + j * symbolLen))
  let data := readSymbols A x dlen (start + lengthFieldLen)
  { bytes := data.bytes
    dlen := dlen
    start := start
    truncated := data.truncated
    lost := (List.range 4).any (fun j => toneLost A x (start + j * symbolLen)) || data.lost }

theorem demodulate_of_nil (h : findPreambles A threshold x = []) : demodulate A threshold x = .error .noPreamble := by
  rw [demodulate, h]

theorem demodulate_of_short {start : ℕ} {rest : List ℕ} (h : findPreambles A threshold x = start :: rest)
    (hshort : x.length < start + 5292) : demodulate A threshold x = .error .noLen := by
  rw [demodulate, h]
  exact if_pos hshort

theorem demodulate_of_fits {start : ℕ} {rest : List ℕ} (h : findPreambles A threshold x = start :: rest)
    (hfits : start + 5292 ≤ x.length) : demodulate A threshold x = .ok (frameAt A x start) := by
  rw [demodulate, h]
  exact if_neg (Nat.not_lt.mpr hfits)

/-- Audio that demodulates has a preamble with room for the length field behind it. -/
theorem of_demodulate_eq_ok {d : Demodulated} (h : demodulate A threshold x = .ok d) :
    (findPreambles A threshold x).head? = some d.start ∧ d.start + 5292 ≤ x.length ∧ d = frameAt A x d.start := by
  cases hfind : findPreambles A threshold x with
  | nil =>
    rw [demodulate_of_nil A threshold x hfind] at h
    cases h
  | cons start rest =>
    rcases Nat.lt_or_ge x.length (start + 5292) with hshort | hfits
    · rw [demodulate_of_short A threshold x hfind hshort] at h
      cases h
    · rw [demodulate_of_fits A threshold x hfind hfits] at h
      cases h
      exact ⟨rfl, hfits, rfl⟩

/-! ## What a frame holds -/

theorem frameAt_dlen (start : ℕ) :
    (frameAt A x start).dlen = unle32 [detectByte A x start, detectByte A x (start + 1323),
      detectByte A x (start + 2646), detectByte A x (start + 3969)] := rfl

/-- How many bytes the frame at `start` holds (R140). -/
def frameCount (start : ℕ) : ℕ := symbolsRead x (frameAt A x start).dlen (start + 5292)

theorem frameAt_bytes (start : ℕ) :
    (frameAt A x start).bytes =
      (List.range (frameCount A x start)).map fun i => detectByte A x (start + 5292 + i * 1323) :=
  congrArg SymbolRun.bytes (readSymbols_eq A x _ (start + 5292))

theorem length_frameAt_bytes (start : ℕ) : (frameAt A x start).bytes.length = frameCount A x start := by
  rw [frameAt_bytes, List.length_map, List.length_range]

theorem frameAt_truncated (start : ℕ) :
    (frameAt A x start).truncated = decide (frameCount A x start < (frameAt A x start).dlen) :=
  congrArg SymbolRun.truncated (readSymbols_eq A x _ (start + 5292))

/-- The symbols of the length field and of the data, in one row. -/
theorem frameAt_lost (start : ℕ) :
    (frameAt A x start).lost = (List.range (4 + frameCount A x start)).any fun q => toneLost A x (start + q * 1323) := by
  have hdata : ∀ i, start + 5292 + i * 1323 = start + (4 + i) * 1323 := fun i => by ring
  calc (frameAt A x start).lost
      = ((List.range 4).any (fun j => toneLost A x (start + j * 1323)) ||
          (List.range (frameCount A x start)).any fun i => toneLost A x (start + 5292 + i * 1323)) :=
        congrArg (_ || ·) (congrArg SymbolRun.lost (readSymbols_eq A x _ (start + 5292)))
    _ = _ := by rw [List.range_add, List.any_append, List.any_map]; simp only [hdata, Function.comp_def]

/-- R141: the byte of a lost tone is 0. -/
theorem detectByte_of_toneLost {s : ℕ} (h : toneLost A x s = true) : detectByte A x s = 0 := by
  obtain ⟨_, htone⟩ := (Bool.and_eq_true _ _).mp h
  rw [detectByte, of_decide_eq_true htone]
  rfl

end frame

/-- Settles O51. -/
theorem demodulatedFrameIsReadSymbolBySymbol : Obligations.DemodulatedFrameIsReadSymbolBySymbol := by
  intro A threshold x d hd
  obtain ⟨hhead, hfits, hframe⟩ := of_demodulate_eq_ok A threshold x hd
  have hcount : d.bytes.length = frameCount A x d.start := by rw [hframe]; exact length_frameAt_bytes A x _
  refine ⟨hhead, hfits, ?_, ?_, ?_, fun i hi => ?_, ?_, fun q hq => detectByte_of_toneLost A x hq, ?_⟩
  · exact (congrArg Demodulated.dlen hframe).trans (frameAt_dlen A x d.start)
  · rw [hcount, frameCount, symbolsRead, ← hframe, Nat.sub_sub]
  · rw [hcount]
    conv_lhs => rw [hframe, frameAt_truncated, decide_eq_true_iff, ← hframe]
  · rw [hcount] at hi
    conv_lhs => rw [hframe, frameAt_bytes, List.getElem?_map, List.getElem?_range hi]
    rfl
  · rw [hcount]
    conv_lhs => rw [hframe, frameAt_lost]
    simp only [List.any_eq_true, List.mem_range]
  · rintro rfl
    exact demodulate_lost_exact threshold x d hd

end Sys2Proof.Machine

/-!
PROOFS. The spectrum of a symbol (spec/44_modulator.md R121, spec/45_demodulator.md R136 (b)). The envelope is a ramp up, a
plateau and a ramp down, so its Fourier sum, times `(1 - z)^2`, telescopes to four terms. That bounds the sum away from
angle 0, where it is 1190; a tone is two shifted copies of it.
-/

namespace Sys2Proof.Machine

/-! ## The Fourier sum of the envelope -/

/-- The Fourier sum of the envelope at the angle `w` per sample. -/
noncomputable def envelopeSum (w : ℝ) : ℂ := ∑ i ∈ Finset.range 1323, (realEnv i : ℂ) * phase w ^ i

/-- A sum over the samples of a symbol, part by part: the rise, the plateau, the fall. -/
theorem sum_range_symbol {M : Type} [AddCommMonoid M] (g : ℕ → M) :
    ∑ i ∈ Finset.range 1323, g i =
      (∑ i ∈ Finset.range 132, g i + ∑ i ∈ Finset.range 1059, g (132 + i)) + ∑ i ∈ Finset.range 132, g (1191 + i) := by
  rw [← Finset.sum_range_add g 132 1059, ← Finset.sum_range_add g 1191 132]

theorem realEnv_rise {i : ℕ} (h : i < 132) : realEnv i = i / 132 := if_pos (by omega)

theorem realEnv_plateau {i : ℕ} (h : i < 1059) : realEnv (132 + i) = 1 := by
  rw [realEnv, if_neg (by omega), if_pos (by omega)]

theorem realEnv_fall (i : ℕ) : realEnv (1191 + i) = (131 - i) / 132 := by
  rw [realEnv, if_neg (by omega), if_neg (by omega)]
  push_cast
  ring

/-- A geometric sum, telescoped. -/
theorem geom_sum_telescoped (z : ℂ) (n : ℕ) : (1 - z) * ∑ i ∈ Finset.range n, z ^ i = 1 - z ^ n := by
  rw [mul_comm, ← neg_sub z 1, mul_neg, geom_sum_mul, neg_sub]

/-- A ramp, telescoped. -/
theorem ramp_sum_telescoped (z : ℂ) (n : ℕ) :
    (1 - z) ^ 2 * ∑ i ∈ Finset.range n, (i : ℂ) * z ^ i = z - n * z ^ n + (n - 1) * z ^ (n + 1) := by
  induction n with
  | zero => simp
  | succ n ih =>
    rw [Finset.sum_range_succ, mul_add, ih]
    push_cast
    ring

/-- The Fourier sum of the envelope, telescoped to four terms. -/
theorem envelopeSum_telescoped (w : ℝ) :
    132 * (1 - phase w) ^ 2 * envelopeSum w = phase w * (1 - phase w ^ 132) * (1 - phase w ^ 1190) := by
  set z := phase w
  have hrise : ∑ i ∈ Finset.range 132, (realEnv i : ℂ) * z ^ i = (∑ i ∈ Finset.range 132, (i : ℂ) * z ^ i) / 132 := by
    rw [Finset.sum_div]
    refine Finset.sum_congr rfl fun i hi => ?_
    rw [realEnv_rise (Finset.mem_range.mp hi)]
    push_cast
    ring
  have hplateau : ∑ i ∈ Finset.range 1059, (realEnv (132 + i) : ℂ) * z ^ (132 + i) =
      z ^ 132 * ∑ i ∈ Finset.range 1059, z ^ i := by
    rw [Finset.mul_sum]
    refine Finset.sum_congr rfl fun i hi => ?_
    rw [realEnv_plateau (Finset.mem_range.mp hi), Complex.ofReal_one, one_mul, pow_add]
  have hfall : ∑ i ∈ Finset.range 132, (realEnv (1191 + i) : ℂ) * z ^ (1191 + i) =
      z ^ 1191 * (131 * ∑ i ∈ Finset.range 132, z ^ i - ∑ i ∈ Finset.range 132, (i : ℂ) * z ^ i) / 132 := by
    rw [Finset.mul_sum, ← Finset.sum_sub_distrib, Finset.mul_sum, Finset.sum_div]
    refine Finset.sum_congr rfl fun i _ => ?_
    rw [realEnv_fall, pow_add]
    push_cast
    ring
  have hramp := ramp_sum_telescoped z 132
  have hlong := geom_sum_telescoped z 1059
  have hshort := geom_sum_telescoped z 132
  rw [envelopeSum, sum_range_symbol, hrise, hplateau, hfall]
  push_cast at hramp
  linear_combination (1 - z ^ 1191) * hramp + 132 * (1 - z) * z ^ 132 * hlong + 131 * (1 - z) * z ^ 1191 * hshort

theorem norm_one_sub_phase (w : ℝ) : ‖1 - phase w‖ ^ 2 = 4 * Real.sin (w / 2) ^ 2 := by
  have hparts : 1 - phase w = (1 - Real.cos w : ℝ) + (Real.sin w : ℝ) * Complex.I := by
    rw [phase_eq_cos_sub_sin]
    push_cast
    ring
  have hhalf : Real.cos w = 2 * Real.cos (w / 2) ^ 2 - 1 := by rw [← Real.cos_two_mul, mul_div_cancel₀ w two_ne_zero]
  rw [hparts, Complex.norm_add_mul_I, Real.sq_sqrt (by positivity)]
  linear_combination Real.sin_sq_add_cos_sq w - 2 * hhalf - 4 * Real.sin_sq_add_cos_sq (w / 2)

/-- Away from angle 0 the Fourier sum of the envelope is small. -/
theorem norm_envelopeSum_mul_le (w : ℝ) : 132 * Real.sin (w / 2) ^ 2 * ‖envelopeSum w‖ ≤ 1 := by
  have hfactor : ∀ n : ℕ, ‖1 - phase w ^ n‖ ≤ 2 := fun n => by
    calc ‖1 - phase w ^ n‖ ≤ ‖(1 : ℂ)‖ + ‖phase w ^ n‖ := norm_sub_le _ _
      _ = 2 := by rw [norm_pow, norm_phase, one_pow, norm_one]; norm_num
  have hnorm := congrArg norm (envelopeSum_telescoped w)
  rw [norm_mul, norm_mul, norm_mul, norm_mul, norm_pow, norm_one_sub_phase, norm_phase, one_mul] at hnorm
  have hbound : ‖1 - phase w ^ 132‖ * ‖1 - phase w ^ 1190‖ ≤ 2 * 2 := by
    gcongr
    · exact hfactor 132
    · exact hfactor 1190
  rw [← hnorm] at hbound
  norm_num at hbound
  linarith

/-- At angle 0 it is the sum of the envelope, 1190. -/
theorem envelopeSum_zero : envelopeSum 0 = 1190 := by
  have hphase : phase 0 = 1 := by simp [phase]
  have hramp : ∑ i ∈ Finset.range 132, (i : ℝ) = 8646 := by
    rw [← Nat.cast_sum, Finset.sum_range_id]
    norm_num
  have hrise : ∑ i ∈ Finset.range 132, realEnv i = 8646 / 132 := by
    rw [← hramp, Finset.sum_div]
    exact Finset.sum_congr rfl fun i hi => realEnv_rise (Finset.mem_range.mp hi)
  have hplateau : ∑ i ∈ Finset.range 1059, realEnv (132 + i) = 1059 := by
    rw [Finset.sum_congr rfl fun i hi => realEnv_plateau (Finset.mem_range.mp hi)]
    simp
  have hfall : ∑ i ∈ Finset.range 132, realEnv (1191 + i) = (132 * 131 - 8646) / 132 := by
    simp only [realEnv_fall, ← Finset.sum_div, Finset.sum_sub_distrib, hramp]
    simp
  have hsum : ∑ i ∈ Finset.range 1323, realEnv i = 1190 := by
    rw [sum_range_symbol, hrise, hplateau, hfall]
    norm_num
  simp only [envelopeSum, hphase, one_pow, mul_one]
  exact_mod_cast hsum

theorem envelopeSum_neg (w : ℝ) : envelopeSum (-w) = (starRingEnd ℂ) (envelopeSum w) := by
  have hphase : phase (-w) = (starRingEnd ℂ) (phase w) := by
    simp only [phase_eq_cos_sub_sin, Real.cos_neg, Real.sin_neg, map_sub, map_mul, Complex.conj_ofReal, Complex.conj_I]
    push_cast
    ring
  simp only [envelopeSum, map_sum, map_mul, map_pow, Complex.conj_ofReal, hphase]

/-! ## Bounds in steps of 50 Hz -/

/-- The sine of half a step count, over the half circle, is least at its ends. -/
theorem sin_steps_le {m n : ℕ} (hm : m ≤ n) (hn : n + m ≤ 882) :
    Real.sin (Real.pi * m / 882) ≤ Real.sin (Real.pi * n / 882) := by
  have hpi := Real.pi_pos
  have hmono : ∀ k : ℕ, m ≤ k → k ≤ 441 → Real.sin (Real.pi * m / 882) ≤ Real.sin (Real.pi * k / 882) := by
    intro k hmk hk
    have hmk' : (m : ℝ) ≤ k := by exact_mod_cast hmk
    have hk' : (k : ℝ) ≤ 441 := by exact_mod_cast hk
    have hm' : 0 ≤ Real.pi * m / 882 := by positivity
    refine Real.sin_le_sin_of_le_of_le_pi_div_two (by linarith) ?_ (by gcongr)
    calc Real.pi * k / 882 ≤ Real.pi * 441 / 882 := by gcongr
      _ = Real.pi / 2 := by ring
  rcases Nat.le_total n 441 with hle | hge
  · exact hmono n hm hle
  · have hmirror : Real.sin (Real.pi * n / 882) = Real.sin (Real.pi * (882 - n : ℕ) / 882) := by
      rw [← Real.sin_pi_sub, Nat.cast_sub (by omega)]
      congr 1
      push_cast
      ring
    rw [hmirror]
    exact hmono _ (by omega) (by omega)

theorem norm_envelopeSum_steps_le {m n : ℕ} {c : ℝ} (hc : 0 < c) (hsin : c ≤ Real.sin (Real.pi * m / 882)) (hm : m ≤ n)
    (hn : n + m ≤ 882) : ‖envelopeSum (Real.pi * n / 441)‖ ≤ 1 / (132 * c ^ 2) := by
  have hhalf : Real.pi * n / 441 / 2 = Real.pi * n / 882 := by ring
  have hbound := norm_envelopeSum_mul_le (Real.pi * n / 441)
  rw [hhalf] at hbound
  rw [le_div_iff₀ (by positivity)]
  calc ‖envelopeSum (Real.pi * n / 441)‖ * (132 * c ^ 2)
      ≤ ‖envelopeSum (Real.pi * n / 441)‖ * (132 * Real.sin (Real.pi * n / 882) ^ 2) := by
        have hle := hsin.trans (sin_steps_le hm hn)
        gcongr
    _ ≤ 1 := by linarith

/-- One step from 0 or more: a bound well below 1190. -/
theorem norm_envelopeSum_le_682 {n : ℕ} (h1 : 1 ≤ n) (hn : n ≤ 881) : ‖envelopeSum (Real.pi * n / 441)‖ ≤ 682 := by
  have hpi := Real.pi_gt_three
  have hpi' := Real.pi_le_four
  have hsin : (1 / 300 : ℝ) ≤ Real.sin (Real.pi * (1 : ℕ) / 882) := by
    have hcube := Real.sin_gt_sub_cube (x := Real.pi / 882) (by positivity)
    have hsmall : (Real.pi / 882) ^ 3 ≤ (4 / 882) ^ 3 := by gcongr
    rw [Nat.cast_one, mul_one]
    linarith
  exact (norm_envelopeSum_steps_le (by norm_num) hsin h1 (by omega)).trans (by norm_num)

/-- Forty steps from 0 or more: next to nothing. -/
theorem norm_envelopeSum_le_two {n : ℕ} (h40 : 40 ≤ n) (hn : n ≤ 842) : ‖envelopeSum (Real.pi * n / 441)‖ ≤ 2 := by
  have hpi := Real.pi_pos
  have hsin : (40 / 441 : ℝ) ≤ Real.sin (Real.pi * (40 : ℕ) / 882) := by
    have hchord := Real.mul_le_sin (x := Real.pi * (40 : ℕ) / 882) (by positivity) (by push_cast; linarith)
    have heq : 2 / Real.pi * (Real.pi * (40 : ℕ) / 882) = 40 / 441 := by
      push_cast
      field_simp
      norm_num
    rwa [heq] at hchord
  exact (norm_envelopeSum_steps_le (by norm_num) hsin h40 (by omega)).trans (by norm_num)

/-! ## The spectrum of a tone -/

theorem fourierSum_map_range (g : ℕ → ℝ) (w : ℝ) (n : ℕ) :
    fourierSum ((List.range n).map g) w = ∑ i ∈ Finset.range n, (g i : ℂ) * phase w ^ i := by
  induction n with
  | zero => simp [fourierSum]
  | succ n ih =>
    rw [List.range_succ, List.map_append, List.map_singleton, fourierSum_append_singleton, ih, List.length_map,
      List.length_range, Finset.sum_range_succ]

theorem phase_add (a b : ℝ) : phase (a + b) = phase a * phase b := by
  rw [phase, phase, phase, ← Complex.exp_add]
  congr 1
  push_cast
  ring

/-- A sine is the difference of two phase factors. -/
theorem sin_mul_eq_phase (u : ℝ) (i : ℕ) : (Real.sin (u * i) : ℂ) = (phase u ^ i - phase (-u) ^ i) * (Complex.I / 2) := by
  rw [phase_pow, phase_pow, Complex.ofReal_sin, Complex.sin]
  push_cast
  ring_nf

/-- The Fourier sum of a tone is two copies of that of the envelope, shifted by the tone's angle. -/
theorem fourierSum_realTone (f w : ℝ) :
    fourierSum ((List.range 1323).map (realTone f)) w =
      7 / 20 * Complex.I *
        (envelopeSum (w + 2 * Real.pi * f / 44100) - envelopeSum (w - 2 * Real.pi * f / 44100)) := by
  rw [fourierSum_map_range, envelopeSum, envelopeSum, ← Finset.sum_sub_distrib, Finset.mul_sum]
  refine Finset.sum_congr rfl fun i _ => ?_
  have harg : 2 * Real.pi * f * i / 44100 = 2 * Real.pi * f / 44100 * i := by ring
  rw [realTone, harg, Complex.ofReal_mul, Complex.ofReal_mul, sin_mul_eq_phase, sub_eq_add_neg w, phase_add, phase_add]
  push_cast
  ring

/-- A tone of `n` steps of 50 Hz, measured at `m` steps. -/
theorem realGoertzel_realTone (m n : ℕ) :
    realGoertzel ((List.range 1323).map (realTone (50 * n))) (50 * m) =
      7 / 20 * ‖envelopeSum (Real.pi * (m + n : ℕ) / 441) - envelopeSum (Real.pi * ((m : ℝ) - n) / 441)‖ := by
  have hsum : 2 * Real.pi * (50 * m) / 44100 + 2 * Real.pi * (50 * n) / 44100 = Real.pi * (m + n : ℕ) / 441 := by
    push_cast
    ring
  have hdiff : 2 * Real.pi * (50 * m) / 44100 - 2 * Real.pi * (50 * n) / 44100 = Real.pi * ((m : ℝ) - n) / 441 := by ring
  rw [realGoertzel_eq_fourierModulus, ← norm_fourierSum, fourierSum_realTone, hsum, hdiff, norm_mul, norm_mul,
    Complex.norm_I]
  norm_num

/-- At its own frequency a tone is strong. -/
theorem realGoertzel_realTone_self_gt {n : ℕ} (hlow : 20 ≤ n) (hhigh : n ≤ 421) :
    415 < realGoertzel ((List.range 1323).map (realTone (50 * n))) (50 * n) := by
  have hfar := norm_envelopeSum_le_two (n := n + n) (by omega) (by omega)
  have hnear : ‖envelopeSum (Real.pi * ((n : ℝ) - n) / 441)‖ = 1190 := by
    rw [sub_self, mul_zero, zero_div, envelopeSum_zero]
    norm_num
  have htriangle := norm_sub_norm_le (envelopeSum (Real.pi * ((n : ℝ) - n) / 441))
    (envelopeSum (Real.pi * (n + n : ℕ) / 441))
  rw [norm_sub_rev] at htriangle
  rw [realGoertzel_realTone]
  linarith

/-- The Fourier sum of the envelope between two different tones. -/
theorem norm_envelopeSum_sub_le {m n : ℕ} (hne : m ≠ n) (hm : m ≤ 881) (hn : n ≤ 881) :
    ‖envelopeSum (Real.pi * ((m : ℝ) - n) / 441)‖ ≤ 682 := by
  rcases Nat.lt_or_gt_of_ne hne with hlt | hgt
  · have hneg : Real.pi * ((m : ℝ) - n) / 441 = -(Real.pi * (n - m : ℕ) / 441) := by
      rw [Nat.cast_sub hlt.le]
      ring
    rw [hneg, envelopeSum_neg, RCLike.norm_conj]
    exact norm_envelopeSum_le_682 (by omega) (by omega)
  · rw [← Nat.cast_sub hgt.le]
    exact norm_envelopeSum_le_682 (by omega) (by omega)

/-- At the frequency of another tone it is weak. -/
theorem realGoertzel_realTone_other_lt {m n : ℕ} (hne : m ≠ n) (hlow : 40 ≤ m + n) (hhigh : m + n ≤ 842) :
    realGoertzel ((List.range 1323).map (realTone (50 * n))) (50 * m) < 240 := by
  have hfar := norm_envelopeSum_le_two hlow hhigh
  have hnear := norm_envelopeSum_sub_le hne (by omega) (by omega)
  have htriangle := norm_sub_le (envelopeSum (Real.pi * (m + n : ℕ) / 441))
    (envelopeSum (Real.pi * ((m : ℝ) - n) / 441))
  rw [realGoertzel_realTone]
  linarith

end Sys2Proof.Machine

/-!
PROOFS. The noiseless round trip of the modem (spec/45_demodulator.md R142 (a)) and silence, in exact arithmetic: every
symbol is detected as its byte, and the five sync symbols pass.
-/

namespace Sys2Proof.Machine

/-! ## A symbol in its window -/

/-- The frequency of a selector in steps of 50 Hz (R60). -/
def toneSteps (t : ℕ) : ℕ := if t = 256 then 20 else 40 + t

theorem freq_eq_toneSteps (t : ℕ) : (freq t : ℝ) = 50 * (toneSteps t : ℕ) := by
  rw [freq_cast, toneSteps]
  split_ifs <;> push_cast <;> ring

theorem map_realOf_symbol (t : ℕ) :
    (symbol exactArithmetic t).map realOf = (List.range 1323).map (realTone (freq t)) := by
  rw [symbol, symbolLen, List.map_map]
  exact List.map_congr_left fun i hi => realOf_toneSample (dvd_freq t) (Nat.lt_succ_iff.mp (List.mem_range.mp hi))

/-- The magnitude of the symbol `t` at the tone `k`. -/
theorem toneMagnitude_symbol (t k : ℕ) :
    toneMagnitude (symbol exactArithmetic t) k =
      realGoertzel ((List.range 1323).map (realTone (50 * (toneSteps t : ℕ)))) (50 * (toneSteps k : ℕ)) := by
  rw [toneMagnitude, magOf_goertzelWindow (dvd_freq k), map_realOf_symbol, freq_eq_toneSteps, freq_eq_toneSteps]

/-- R139, R136 (b): the tone detected in the window of a data symbol is its selector. -/
theorem detectTone_symbol {x : List Sample} {s t : ℕ} (ht : t ≤ 255) (hx : slice x s 1323 = symbol exactArithmetic t) :
    (detectTone exactArithmetic x s).tone = t := by
  obtain ⟨_, hleast⟩ := bestOfTones_exact (slice x s 1323) 255
  rw [detectTone_eq_bestOfTones]
  refine hleast.eq_of_strict ht fun k hk hne => ?_
  have hsteps : ∀ j, j ≤ 255 → toneSteps j = 40 + j := fun j hj => if_neg (by omega)
  rw [hx, toneMagnitude_symbol, toneMagnitude_symbol, hsteps t ht, hsteps k hk]
  have hself := realGoertzel_realTone_self_gt (n := 40 + t) (by omega) (by omega)
  have hother := realGoertzel_realTone_other_lt (m := 40 + k) (n := 40 + t) (by omega) (by omega) (by omega)
  linarith

theorem detectByte_symbol {x : List Sample} {s : ℕ} {b : Byte}
    (hx : slice x s 1323 = symbol exactArithmetic b.toNat) : detectByte exactArithmetic x s = b := by
  have hb : b.toNat ≤ 255 := Nat.lt_succ_iff.mp b.isLt
  rw [detectByte, detectTone_symbol hb hx, BitVec.ofNat_toNat, BitVec.setWidth_eq]

/-- The window of a sync symbol passes. -/
theorem above_sync_symbol {x : List Sample} {s : ℕ} (hx : slice x s 1323 = symbol exactArithmetic 256) :
    exactArithmetic.above (goertzel exactArithmetic x s syncFreq) 10 = true := by
  have hreal : magOf (goertzel exactArithmetic x s syncFreq) = toneMagnitude (symbol exactArithmetic 256) 256 := by
    rw [← hx]
    rfl
  have hself := realGoertzel_realTone_self_gt (n := 20) (by omega) (by omega)
  have hform : Sample.ok (goertzel exactArithmetic x s syncFreq).square = true := ok_goertzelWindow keepsForm_exact _ _
  rw [exact_above_iff _ hform, hreal, toneMagnitude_symbol, show toneSteps 256 = 20 from rfl]
  push_cast at hself ⊢
  linarith

/-! ## The round trip -/

/-- Where five sync symbols stand, all five windows pass. -/
theorem syncCount_of_sync_symbols {x : List Sample} {s : ℕ}
    (hx : ∀ w, w < 5 → slice x (s + w * 1323) 1323 = symbol exactArithmetic 256) :
    syncCount exactArithmetic 10 x s = 5 := by
  have hall : (List.range 5).filter
      (fun w => exactArithmetic.above (goertzel exactArithmetic x (s + w * 1323) syncFreq) 10) = List.range 5 :=
    List.filter_eq_self.mpr fun w hw => above_sync_symbol (hx w (List.mem_range.mp hw))
  rw [syncCount, preambleSymbols, symbolLen, hall, List.length_range]

/-- A frame whose length field and data are symbols is read back (R140). -/
theorem frameAt_of_symbols {x : List Sample} {start : ℕ} {data : List Byte} (hlen : data.length < 2 ^ 32)
    (hfits : start + (4 + data.length) * 1323 ≤ x.length)
    (hfield : ∀ j, j < 4 → slice x (start + j * 1323) 1323 =
      symbol exactArithmetic ((le32Nat data.length).getD j 0).toNat)
    (hdata : ∀ i, i < data.length → slice x (start + 5292 + i * 1323) 1323 =
      symbol exactArithmetic (data.getD i 0).toNat) :
    frameAt exactArithmetic x start =
      { bytes := data, dlen := data.length, start := start, truncated := false, lost := false } := by
  have hdlen : (frameAt exactArithmetic x start).dlen = data.length := by
    have hbytes : (List.range 4).map (fun j => detectByte exactArithmetic x (start + j * symbolLen)) =
        le32Nat data.length :=
      List.map_congr_left fun j hj => detectByte_symbol (hfield j (List.mem_range.mp hj))
    exact (congrArg unle32 hbytes).trans (unle32_le32Nat hlen)
  have hcount : frameCount exactArithmetic x start = data.length := by
    rw [frameCount, hdlen, symbolsRead]
    omega
  have hbytes : (frameAt exactArithmetic x start).bytes = data := by
    rw [frameAt_bytes, hcount]
    refine List.ext_getElem (by simp) fun i _ hi => ?_
    rw [List.getElem_map, List.getElem_range, detectByte_symbol (hdata i hi), List.getD_eq_getElem _ _ hi]
  have htruncated : (frameAt exactArithmetic x start).truncated = false := by
    rw [frameAt_truncated, hcount, hdlen]
    simp
  have hlost : (frameAt exactArithmetic x start).lost = false := by
    rw [frameAt_lost]
    simp [toneLost_exact]
  calc frameAt exactArithmetic x start
      = { bytes := (frameAt exactArithmetic x start).bytes
          dlen := (frameAt exactArithmetic x start).dlen
          start := start
          truncated := (frameAt exactArithmetic x start).truncated
          lost := (frameAt exactArithmetic x start).lost } := rfl
    _ = _ := by rw [hbytes, hdlen, htruncated, hlost]

/-- Settles O52: the preamble passes at cursor 0, and behind it every symbol is detected as its byte. -/
theorem demodulateOfModulateIsIdentity : Obligations.DemodulateOfModulateIsIdentity := by
  intro data x hdata hx
  have hlen : data.length < 2 ^ 32 := by omega
  obtain ⟨out, hout, hlength, hslice⟩ := frameLayoutSymbolBySymbol exactArithmetic data hlen
  obtain rfl : out = x := by
    rw [hx] at hout
    cases hout
    rfl
  have hcount : syncCount exactArithmetic 10 out 0 = 5 := syncCount_of_sync_symbols fun w hw => by
    rw [Nat.zero_add, hslice w (by omega), if_pos hw]
  have hfind : findPreambles exactArithmetic 10 out = 6615 :: searchAt exactArithmetic 10 out 6615 :=
    searchAt_of_match exactArithmetic 10 out (by omega) (by omega)
  rw [demodulate_of_fits exactArithmetic 10 out hfind (by omega)]
  refine congrArg Except.ok (frameAt_of_symbols hlen (by omega) (fun j hj => ?_) fun i hi => ?_)
  · rw [show 6615 + j * 1323 = (5 + j) * 1323 by ring, hslice _ (by omega), if_neg (by omega), if_pos (by omega),
      Nat.add_sub_cancel_left]
    rfl
  · rw [show 6615 + 5292 + i * 1323 = (9 + i) * 1323 by ring, hslice _ (by omega), if_neg (by omega), if_neg (by omega),
      if_pos (by omega), Nat.add_sub_cancel_left]

/-! ## Silence -/

theorem slice_replicate {α : Type} (a : α) (n off len : ℕ) :
    slice (List.replicate n a) off len = List.replicate (min len (n - off)) a := by
  rw [slice, List.drop_replicate, List.take_replicate]

/-- R135: a window of silence has magnitude 0, which exceeds no threshold that is not negative. -/
theorem syncCount_silence {threshold : ℚ} (h : 0 ≤ threshold) (n s : ℕ) :
    syncCount exactArithmetic threshold (List.replicate n []) s = 0 := by
  have hbelow : exactArithmetic.above { square := [] } threshold = false := by
    rw [← Bool.not_eq_true, exact_above_iff _ sample_ok_nil, magOf, realOf_nil, Real.sqrt_zero, not_lt]
    exact_mod_cast h
  simp [syncCount, goertzel, slice_replicate, goertzelWindow_silence, hbelow]

theorem findPreambles_silence {threshold : ℚ} (h : 0 ≤ threshold) (n : ℕ) :
    findPreambles exactArithmetic threshold (List.replicate n []) = [] :=
  (searchAt_eq_nil_iff exactArithmetic threshold _ 0).mpr fun j _ => by
    rw [syncCount_silence h]
    omega

end Sys2Proof.Machine

/-!
PROOFS. The commands of the demodulator: `GOERTZ`, `SYNCFIND`, `DETECT` and `DEMOD` (spec/45_demodulator.md R135, R138 to
R140).
-/

namespace Sys2Proof.Machine

/-! ## The audio, one equation per outcome -/

/-- Audio that fits and is written goes to the continuation (R30). -/
theorem withSin_of_readRun {n : Nat} {s : State} {xs : List Sample} (k : List Sample → Answer)
    (hcap : n ≤ s.params.sinCap) (h : readRun s.sin 0 n = some xs) : withSin n s k = k xs := by
  rw [withSin, if_neg (Nat.not_lt.mpr hcap), h]

/-- Audio that does not fit is `E_CAP` (R55). -/
theorem withSin_of_cap_lt {n : Nat} {s : State} (k : List Sample → Answer) (hcap : s.params.sinCap < n) :
    withSin n s k = fail .cap s := if_pos hcap

/-- Audio with an unwritten sample is the fault of R190. -/
theorem withSin_of_unwritten {n a : Nat} {s : State} (k : List Sample → Answer) (hcap : n ≤ s.params.sinCap)
    (ha : a < n) (h : readElem s.sin a = none) : withSin n s k = .fault (.unwrittenElement .sin) := by
  have hrun : readRun s.sin 0 n = none := readRun_eq_none s.sin 0 n a ha (by rwa [Nat.zero_add])
  rw [withSin, if_neg (Nat.not_lt.mpr hcap), hrun]

theorem windowFits_of_le {s len : Word} (h : s.toNat + 1323 ≤ len.toNat) : windowFits s len = true := decide_eq_true h

/-- R135, R139: a window past the end. -/
theorem windowFits_of_lt {s len : Word} (h : len.toNat < s.toNat + 1323) : windowFits s len = false :=
  decide_eq_false (Nat.not_le.mpr h)

/-! ## `GOERTZ` (R135) -/

theorem execGoertz_of_fits {s : State} (hsel : s.arg2.toNat ≤ 256) (hfits : s.arg1.toNat + 1323 ≤ s.arg0.toNat) :
    execGoertz s = withSin s.arg0.toNat s fun x =>
      succeed { s with mag := goertzel s.arithmetic x s.arg1.toNat (freq s.arg2.toNat) } := by
  rw [execGoertz, toneOperand_of_le hsel]
  exact if_pos (windowFits_of_le hfits)

theorem execGoertz_of_bad_operand {s : State} (h : 256 < s.arg2.toNat ∨ s.arg0.toNat < s.arg1.toNat + 1323) :
    execGoertz s = fail .arg s := by
  rcases Nat.lt_or_ge 256 s.arg2.toNat with hsel | hsel
  · rw [execGoertz, toneOperand_of_gt hsel]
  · rw [execGoertz, toneOperand_of_le hsel]
    exact if_neg (ne_true_of_eq_false (windowFits_of_lt (h.resolve_left (Nat.not_lt.mpr hsel))))

/-- Settles O42. -/
theorem goertzWritesTheMagnitude : Obligations.GoertzWritesTheMagnitude := by
  refine ⟨fun s x hsel hfits h0 hcap hrun => ?_, fun s h => execGoertz_of_bad_operand h,
    fun s hsel hfits hcap => (execGoertz_of_fits hsel hfits).trans (withSin_of_cap_lt _ hcap),
    fun s a hsel hfits hcap ha hnone => (execGoertz_of_fits hsel hfits).trans (withSin_of_unwritten _ hcap ha hnone)⟩
  rw [← h0] at hcap hrun
  exact (execGoertz_of_fits hsel hfits).trans (withSin_of_readRun _ hcap hrun)

/-! ## `DETECT` (R139) -/

theorem execDetect_of_fits {s : State} (hfits : s.arg1.toNat + 1323 ≤ s.arg0.toNat) :
    execDetect s = withSin s.arg0.toNat s fun x =>
      succeed { s with
        res0 := lenWord (detectTone s.arithmetic x s.arg1.toNat).tone
        mag := (detectTone s.arithmetic x s.arg1.toNat).magnitude } := if_pos (windowFits_of_le hfits)

theorem execDetect_of_short {s : State} (h : s.arg0.toNat < s.arg1.toNat + 1323) : execDetect s = fail .arg s :=
  if_neg (ne_true_of_eq_false (windowFits_of_lt h))

/-- Settles O48. -/
theorem detectWritesTheStrongestTone : Obligations.DetectWritesTheStrongestTone := by
  refine ⟨fun s x hfits h0 hcap hrun => ?_, fun s h => execDetect_of_short h,
    fun s hfits hcap => (execDetect_of_fits hfits).trans (withSin_of_cap_lt _ hcap),
    fun s a hfits hcap ha hnone => (execDetect_of_fits hfits).trans (withSin_of_unwritten _ hcap ha hnone)⟩
  rw [← h0] at hcap hrun
  exact (execDetect_of_fits hfits).trans (withSin_of_readRun _ hcap hrun)

/-! ## `SYNCFIND` (R137, R138) -/

/-- What `SYNCFIND` does with the positions it has found. -/
def writePositions (s : State) (pos : List Nat) : Answer :=
  commitBytes (pos.flatMap le32Nat) s
    { s with res0 := lenWord pos.length, res1 := (pos.head?.map lenWord).getD s.res1 }

theorem execSyncfind_eq (s : State) :
    execSyncfind s = withSin s.arg0.toNat s fun x =>
      writePositions s (findPreambles s.arithmetic s.params.syncThreshold x) := rfl

theorem length_flatMap_le32Nat (pos : List Nat) : (pos.flatMap le32Nat).length = 4 * pos.length := by
  rw [length_flatMap_of_const length_le32Nat, Nat.mul_comm]

/-- `RES1` takes the first position, if there is one (R138). -/
theorem first_position_eq_ite (pos : List Nat) (w : Word) :
    (pos.head?.map lenWord).getD w = if pos = [] then w else BitVec.ofNat 32 (pos.headD 0) := by
  cases pos <;> rfl

theorem writePositions_of_le {s : State} {pos : List Nat} (h : 4 * pos.length ≤ s.params.boutCap) :
    writePositions s pos = .next { s with
      bout := writeRun s.bout 0 (pos.flatMap le32Nat)
      res0 := BitVec.ofNat 32 pos.length
      res1 := if pos = [] then s.res1 else BitVec.ofNat 32 (pos.headD 0)
      status := 0x00000002 } := by
  rw [← first_position_eq_ite]
  exact commitBytes_of_le _ ((length_flatMap_le32Nat pos).trans_le h)

theorem writePositions_of_lt {s : State} {pos : List Nat} (h : s.params.boutCap < 4 * pos.length) :
    writePositions s pos = fail .cap s :=
  commitBytes_of_cap_lt _ (h.trans_eq (length_flatMap_le32Nat pos).symm)

/-- Settles O45. -/
theorem syncfindWritesThePositions : Obligations.SyncfindWritesThePositions := by
  refine ⟨fun s x h0 hcap hrun pos hpos => ?_, fun s hcap => withSin_of_cap_lt _ hcap,
    fun s a hcap ha hnone => withSin_of_unwritten _ hcap ha hnone⟩
  rw [← h0] at hcap hrun
  have hread : execSyncfind s = writePositions s pos := by
    rw [execSyncfind_eq, withSin_of_readRun _ hcap hrun, hpos]
  exact ⟨fun hfits => hread.trans (writePositions_of_le hfits), fun hlong => hread.trans (writePositions_of_lt hlong)⟩

/-! ## `DEMOD` (R140, R141) -/

/-- What `DEMOD` does with the audio it has read. -/
def demodAudio (s : State) (x : List Sample) : Answer :=
  match demodulate s.arithmetic s.params.syncThreshold x with
  | .error e => fail e s
  | .ok d =>
    commitBytes d.bytes (warn d.warning s)
      { warn d.warning s with res0 := lenWord d.bytes.length, res1 := lenWord d.dlen, res2 := lenWord d.start }

theorem demodAudio_of_error {s : State} {x : List Sample} {e : ErrCode}
    (h : demodulate s.arithmetic s.params.syncThreshold x = .error e) : demodAudio s x = fail e s := by
  rw [demodAudio, h]

theorem demodAudio_of_ok {s : State} {x : List Sample} {d : Demodulated}
    (h : demodulate s.arithmetic s.params.syncThreshold x = .ok d) :
    demodAudio s x = commitBytes d.bytes (warn d.warning s)
      { warn d.warning s with res0 := lenWord d.bytes.length, res1 := lenWord d.dlen, res2 := lenWord d.start } := by
  rw [demodAudio, h]

theorem execDemod_eq (s : State) : execDemod s = withSin s.arg0.toNat s (demodAudio s) := rfl

theorem execDemod_of_readRun {s : State} {x : List Sample} (h0 : s.arg0.toNat = x.length)
    (hcap : x.length ≤ s.params.sinCap) (hrun : readRun s.sin 0 x.length = some x) : execDemod s = demodAudio s x := by
  rw [execDemod_eq, h0, withSin_of_readRun _ hcap hrun]

/-- `W_TRUNC` and `W_TONE` as the numbers of R15. -/
theorem demodulated_warning_eq_ite (d : Demodulated) :
    d.warning = (if d.truncated then 0x00000001 else 0) ||| (if d.lost then 0x00000002 else 0) := rfl

/-- Settles O50. -/
theorem demodDeliversTheBytes : Obligations.DemodDeliversTheBytes := by
  refine ⟨fun s x d w h0 hcap hrun hd hw => ?_, fun s hcap => withSin_of_cap_lt _ hcap,
    fun s x h0 hcap hrun => ⟨fun hfind => ?_, fun start rest hfind hshort => ?_⟩,
    fun s a hcap ha hnone => withSin_of_unwritten _ hcap ha hnone⟩
  · have hread := (execDemod_of_readRun h0 hcap hrun).trans (demodAudio_of_ok hd)
    rw [hw, ← demodulated_warning_eq_ite]
    exact ⟨fun hfits => hread.trans (commitBytes_of_le _ hfits),
      fun hlong => hread.trans (commitBytes_of_cap_lt (s := warn d.warning s) _ hlong)⟩
  · exact (execDemod_of_readRun h0 hcap hrun).trans (demodAudio_of_error (demodulate_of_nil _ _ x hfind))
  · exact (execDemod_of_readRun h0 hcap hrun).trans (demodAudio_of_error (demodulate_of_short _ _ x hfind hshort))

/-- Settles O53: no window of silence passes (`findPreambles_silence`). -/
theorem silenceHasNoPreamble : Obligations.SilenceHasNoPreamble := by
  intro s n hexact hthreshold h0 hcap hrun
  have hlen : (List.replicate n ([] : Sample)).length = n := List.length_replicate
  have harith : s.arithmetic = exactArithmetic := by rw [State.arithmetic, hexact, arithmeticOf]
  have hfind : findPreambles s.arithmetic s.params.syncThreshold (List.replicate n []) = [] := by
    rw [harith, findPreambles_silence hthreshold]
  exact (execDemod_of_readRun (by rw [hlen, h0]) (by rwa [hlen]) (by rwa [hlen])).trans
    (demodAudio_of_error (demodulate_of_nil _ _ _ hfind))

end Sys2Proof.Machine

/-!
PROOFS. The pipelines (spec/46_pipeline.md R155 to R159): the byte path and the whole path give name and payload back, and
the commands `ENCODE` and `DECODE`.
-/

namespace Sys2Proof.Machine

/-! ## The byte path (R155) -/

/-- Settles O36: the codec gives the packet back with its zero padding, which the parser ignores. -/
theorem bytePathRoundTrip : Obligations.BytePathRoundTrip := by
  intro name payload hpos hcap hpayload
  obtain ⟨pkt, c, hframe, hparse⟩ := parseOfFrameIsIdentity name payload
    (List.replicate (padLength (packetLen name.length payload.length)) 0) hpos hcap hpayload
  have hdecoded := batchDecodeOfEncodeReturnsTheData pkt
  have hout : (rsDecode (rsEncode pkt)).out =
      pkt ++ List.replicate (padLength (packetLen name.length payload.length)) 0 := by
    rw [hdecoded, ← length_of_frame hcap hframe]
    rfl
  exact ⟨pkt, c, hframe, congrArg BatchDecoded.dropped hdecoded, hout ▸ hparse⟩

/-! ## The encode pipeline (R156) -/

theorem fecLen_packetLen (n m : Nat) : fecLen (packetLen n m) = 255 * ((13 + n + m + 222) / 223) := by
  rw [fecLen, blockCount_eq]
  rfl

/-- The FEC bytes of a packet are as many as `fecLen` says before there is a packet. -/
theorem length_rsEncode_of_frame {name payload pkt : List Byte} (hcap : name.length ≤ 255)
    (h : frame name payload = .ok pkt) : (rsEncode pkt).length = fecLen (packetLen name.length payload.length) := by
  rw [length_rsEncode, length_of_frame hcap h, fecLen]

/-- A packet whose FEC bytes the length field can count is modulated. -/
theorem encodeFile_of_frame (A : Arithmetic) {name payload pkt : List Byte} (hframe : frame name payload = .ok pkt)
    (hlen : (rsEncode pkt).length ≤ 2 ^ 32 - 1) : encodeFile A name payload = modulate A (rsEncode pkt) := by
  rw [encodeFile, hframe]
  exact if_neg (Nat.not_lt.mpr hlen)

/-! ## The decode pipeline (R157), one equation per stage that ends it -/

section stages
variable {A : Arithmetic} {threshold : Rat} {x : List Sample} {d : Demodulated}

theorem decodeAudio_of_demodulate_error {e : ErrCode} (h : demodulate A threshold x = .error e) :
    decodeAudio A threshold x = { warnings := 0, result := .error e } := by
  rw [decodeAudio, h]

/-- R158: the warnings of the demodulator outlive an error of the parser. -/
theorem decodeAudio_of_parse_error {e : ErrCode} (hd : demodulate A threshold x = .ok d)
    (hp : parse (rsDecode d.bytes).out = .error e) :
    decodeAudio A threshold x = { warnings := d.warning, result := .error e } := by
  simp only [decodeAudio, hd, hp]

theorem decodeAudio_of_parse_ok {p : Parsed} (hd : demodulate A threshold x = .ok d)
    (hp : parse (rsDecode d.bytes).out = .ok p) :
    decodeAudio A threshold x =
      { warnings := d.warning ||| p.warning, result := .ok (p, (rsDecode d.bytes).dropped, d.dlen) } := by
  simp only [decodeAudio, hd, hp]

end stages

/-! ## The round trip (R159) -/

/-- Settles O56: the modem gives the FEC bytes back (`demodulateOfModulateIsIdentity`), and the byte path does the rest.
R159's bound is the longest packet whose FEC bytes number at most `2^32 - 1`. -/
theorem decodeOfEncodedAudioIsIdentity : Obligations.DecodeOfEncodedAudioIsIdentity := by
  intro name payload hpos hcap hbound
  obtain ⟨pkt, c, hframe, hdropped, hparse⟩ := bytePathRoundTrip name payload hpos hcap (by omega)
  have hfec : (rsEncode pkt).length = 255 * ((13 + name.length + payload.length + 222) / 223) :=
    (length_rsEncode_of_frame hcap hframe).trans (fecLen_packetLen _ _)
  have hlen : (rsEncode pkt).length ≤ 2 ^ 32 - 1 := by omega
  have hmod := modulate_of_length_lt exactArithmetic (data := rsEncode pkt) (by omega)
  have hdecode := decodeAudio_of_parse_ok (demodulateOfModulateIsIdentity _ _ hlen hmod) hparse
  refine ⟨_, c, (encodeFile_of_frame _ hframe hlen).trans hmod, ?_, ?_⟩
  · rw [hdecode]
    simp [demodulated_warning_eq_ite, warning_eq_ite]
  · rw [hdecode, ← hfec, ← hdropped]

/-! ## The command `ENCODE` (R156) -/

/-- The FEC byte count of the packet that the argument registers ask for. -/
def requestedFec (s : State) : Nat := fecLen (packetLen (nameLen s.arg1) s.arg0.toNat)

theorem requestedFec_eq (s : State) :
    requestedFec s = 255 * ((13 + min s.arg1.toNat 255 + s.arg0.toNat + 222) / 223) := fecLen_packetLen _ _

/-- What `ENCODE` does with the payload and the name it has read. -/
def encodePacket (s : State) (payload name : List Byte) : Answer :=
  match encodeFile s.arithmetic name payload with
  | .error e => fail e s
  | .ok out =>
    commitSamples out s
      { s with
        res0 := lenWord (frameSamples (requestedFec s))
        res1 := lenWord (packetLen (nameLen s.arg1) s.arg0.toNat)
        res2 := lenWord (requestedFec s) }

theorem encodePacket_of_ok {s : State} {payload name : List Byte} {out : List Sample}
    (h : encodeFile s.arithmetic name payload = .ok out) :
    encodePacket s payload name = commitSamples out s
      { s with
        res0 := lenWord (frameSamples (requestedFec s))
        res1 := lenWord (packetLen (nameLen s.arg1) s.arg0.toNat)
        res2 := lenWord (requestedFec s) } := by
  rw [encodePacket, h]

/-- An empty name is `E_NAME`, before any capacity is looked at. -/
theorem execEncode_of_empty_name {s : State} (h : s.arg1 = 0) : execEncode s = fail .name s :=
  if_pos (by rw [h]; rfl)

section named
variable {s : State} (hname : s.arg1 ≠ 0)
include hname

theorem execEncode_of_bin_lt (hbin : s.params.binCap < s.arg0.toNat) : execEncode s = fail .cap s :=
  (if_neg (nameLen_ne_zero hname)).trans (if_pos hbin)

/-- FEC bytes that the length field cannot count are `E_LEN`. -/
theorem execEncode_of_fec_gt (hbin : s.arg0.toNat ≤ s.params.binCap) (hlen : 2 ^ 32 - 1 < requestedFec s) :
    execEncode s = fail .len s :=
  (if_neg (nameLen_ne_zero hname)).trans ((if_neg (Nat.not_lt.mpr hbin)).trans (if_pos hlen))

theorem execEncode_of_sout_lt (hbin : s.arg0.toNat ≤ s.params.binCap) (hlen : requestedFec s ≤ 2 ^ 32 - 1)
    (hsout : s.params.soutCap < frameSamples (requestedFec s)) : execEncode s = fail .cap s :=
  (if_neg (nameLen_ne_zero hname)).trans
    ((if_neg (Nat.not_lt.mpr hbin)).trans ((if_neg (Nat.not_lt.mpr hlen)).trans (if_pos hsout)))

/-- When all checks pass, the payload is read and then the name. -/
theorem execEncode_of_sout_le (hbin : s.arg0.toNat ≤ s.params.binCap) (hlen : requestedFec s ≤ 2 ^ 32 - 1)
    (hsout : frameSamples (requestedFec s) ≤ s.params.soutCap) :
    execEncode s = withBin s.arg0.toNat s fun payload => withName (nameLen s.arg1) s (encodePacket s payload) :=
  (if_neg (nameLen_ne_zero hname)).trans
    ((if_neg (Nat.not_lt.mpr hbin)).trans ((if_neg (Nat.not_lt.mpr hlen)).trans (if_neg (Nat.not_lt.mpr hsout))))

theorem execEncode_of_readRun {name payload : List Byte} {out : List Sample} (h0 : s.arg0.toNat = payload.length)
    (h1 : name.length = nameLen s.arg1) (hbin : payload.length ≤ s.params.binCap) (hlen : requestedFec s ≤ 2 ^ 32 - 1)
    (hsout : frameSamples (requestedFec s) ≤ s.params.soutCap)
    (hpayload : readRun s.bin 0 payload.length = some payload) (hrun : readRun s.namebuf 0 name.length = some name)
    (hout : encodeFile s.arithmetic name payload = .ok out) :
    execEncode s = .next { s with
      sout := writeRun s.sout 0 out
      res0 := lenWord (frameSamples (requestedFec s))
      res1 := lenWord (packetLen name.length payload.length)
      res2 := lenWord (requestedFec s)
      status := 0x00000002 } := by
  have hcap : name.length ≤ nameCap := h1 ▸ Nat.min_le_right _ _
  have hfits : out.length ≤ s.params.soutCap := by
    rwa [length_of_encodeFile hcap hout, h1, ← h0, ← requestedFec]
  rw [execEncode_of_sout_le hname (h0 ▸ hbin) hlen hsout, h0, withBin_of_readRun _ hbin hpayload, ← h1,
    withName_of_readRun _ hrun, encodePacket_of_ok hout, commitSamples_of_le _ hfits, h0, ← h1]

end named

/-- Settles O54. -/
theorem encodeWritesTheAudioFrame : Obligations.EncodeWritesTheAudioFrame := by
  refine ⟨fun s name payload fecBytes h0 hpos h1 hbin hfec hlen hsout hpayload hrun => ?_,
    fun s => execEncode_of_empty_name, fun s => execEncode_of_bin_lt, fun s fecBytes hname hbin hfec => ?_⟩
  · have hname : s.arg1 ≠ 0 := BitVec.toNat_ne_iff_ne.mp (Nat.ne_of_gt hpos)
    have hcap : name.length ≤ 255 := h1 ▸ Nat.min_le_right _ _
    obtain rfl : fecBytes = requestedFec s := by rw [requestedFec_eq, hfec, h0, h1]
    obtain ⟨pkt, hframe⟩ : ∃ pkt, frame name payload = .ok pkt := ⟨_, frame_of_name payload (by omega) hcap⟩
    have hbytes := length_rsEncode_of_frame hcap hframe
    rw [fecLen_packetLen, ← hfec] at hbytes
    have hmod := modulate_of_length_lt s.arithmetic (data := rsEncode pkt) (by omega)
    exact ⟨_, _, hframe, hmod, execEncode_of_readRun hname h0 h1 hbin hlen hsout hpayload hrun
      ((encodeFile_of_frame _ hframe (by omega)).trans hmod)⟩
  · rw [← requestedFec_eq] at hfec
    subst hfec
    refine ⟨execEncode_of_fec_gt hname hbin, execEncode_of_sout_lt hname hbin, fun a hlen hsout =>
      ⟨fun ha hnone => ?_, fun payload hpayload ha hnone => ?_⟩⟩
    · exact (execEncode_of_sout_le hname hbin hlen hsout).trans (withBin_of_unwritten _ hbin ha hnone)
    · exact (execEncode_of_sout_le hname hbin hlen hsout).trans
        ((withBin_of_readRun _ hbin hpayload).trans (withName_of_unwritten _ ha hnone))

/-! ## The command `DECODE` (R157, R158) -/

/-- What `DECODE` does with what the stages deliver. -/
def deliverDecoded (s : State) (d : DecodedAudio) : Answer :=
  match d.result with
  | .error e => fail e (warn d.warnings s)
  | .ok (p, dropped, dlen) =>
    commitBytes p.payload (warn d.warnings s)
      { warn d.warnings s with
        namebuf := writeRun s.namebuf 0 p.name
        res0 := lenWord p.payload.length
        res1 := lenWord p.name.length
        res2 := lenWord dropped
        res3 := lenWord dlen }

theorem execDecode_eq (s : State) :
    execDecode s = withSin s.arg0.toNat s fun x =>
      deliverDecoded s (decodeAudio s.arithmetic s.params.syncThreshold x) := rfl

theorem execDecode_of_readRun {s : State} {x : List Sample} {d : DecodedAudio} (h0 : s.arg0.toNat = x.length)
    (hcap : x.length ≤ s.params.sinCap) (hrun : readRun s.sin 0 x.length = some x)
    (hd : decodeAudio s.arithmetic s.params.syncThreshold x = d) : execDecode s = deliverDecoded s d := by
  rw [execDecode_eq, h0, withSin_of_readRun _ hcap hrun, hd]

theorem warn_zero (s : State) : warn 0 s = s := by
  have hor : s.warn ||| 0 = s.warn := BitVec.or_zero
  rw [warn, hor]

/-- Settles O55. -/
theorem decodeComposesTheStages : Obligations.DecodeComposesTheStages := by
  refine ⟨fun s hcap => withSin_of_cap_lt _ hcap, fun s a hcap ha hnone => withSin_of_unwritten _ hcap ha hnone,
    fun s x h0 hcap hrun => ⟨fun e he => ?_, fun d w hd hw => ⟨fun e he => ?_, fun p v hp hv => ?_⟩⟩⟩
  · calc execDecode s
        = fail e (warn 0 s) := execDecode_of_readRun h0 hcap hrun (decodeAudio_of_demodulate_error he)
      _ = fail e s := by rw [warn_zero]
  · rw [hw, ← demodulated_warning_eq_ite]
    exact execDecode_of_readRun h0 hcap hrun (decodeAudio_of_parse_error hd he)
  · have hread := execDecode_of_readRun h0 hcap hrun (decodeAudio_of_parse_ok hd hp)
    rw [hv, hw, ← demodulated_warning_eq_ite, ← warning_eq_ite]
    exact ⟨fun hlong => hread.trans (commitBytes_of_cap_lt (s := warn (d.warning ||| p.warning) s) _ hlong),
      fun hfits => hread.trans (commitBytes_of_le (s := warn (d.warning ||| p.warning) s) _ hfits)⟩

end Sys2Proof.Machine

/-!
PROOFS. What a command that raises an error leaves behind (spec/60_exceptions.md R170, R171, spec/10_state.md R15): the
state it was launched in, with the warning bits its stages raised and the code in `STATUS`.
-/

namespace Sys2Proof.Machine

/-- All that a command answers from the state `u`, which is the launched state with the warnings of its stages: a stop, an
error that writes `STATUS` of `u` and nothing else (R171), or a completion with `OK` that raises no more warnings (R15). -/
inductive AnswersFrom (u : State) : Answer → Prop
  | stops (f : Fault) : AnswersFrom u (.fault f)
  | fails (e : ErrCode) : AnswersFrom u (fail e u)
  | succeeds {t : State} : t.warn = u.warn → AnswersFrom u (succeed t)

section answers

variable {s u t : State} {a : Answer}

theorem AnswersFrom.warn_eq (h : AnswersFrom u a) (ha : a = .next t) : t.warn = u.warn := by
  cases h with
  | stops f => cases ha
  | fails e => cases ha; rfl
  | succeeds hwarn => cases ha; exact hwarn

/-- A next state with a nonzero `ERR` is an error completion of `u`: a completion with `OK` has code 0 (R14). -/
theorem AnswersFrom.exists_raiseErr (h : AnswersFrom u a) (ha : a = .next t) (herr : t.err ≠ 0) :
    ∃ e, t = raiseErr e u := by
  cases h with
  | stops f => cases ha
  | fails e => cases ha; exact ⟨e, rfl⟩
  | succeeds _ => cases ha; exact absurd (statusCompleted_err 0) herr

/-- A command whose stages raise no warning answers from the launched state itself. -/
theorem AnswersFrom.unwarned {b : Word} (h : AnswersFrom s a) (hb : b = 0) : AnswersFrom (warn b s) a := by
  rwa [hb, warn_zero]

/-- The capacity error of an input is raised in the launched state, so no warning may stand before it. -/
theorem answersFrom_withBin {n : Nat} {k : List Byte → Answer} (hcap : s.params.binCap < n → u = s)
    (hk : ∀ bs, readRun s.bin 0 n = some bs → AnswersFrom u (k bs)) : AnswersFrom u (withBin n s k) := by
  rcases withBin_cases n s k with ⟨hlt, h⟩ | ⟨-, -, h⟩ | ⟨bs, -, hrun, h⟩ <;> rw [h]
  · rw [← hcap hlt]
    exact .fails .cap
  · exact .stops _
  · exact hk bs hrun

theorem answersFrom_withName {n : Nat} {k : List Byte → Answer} (hk : ∀ bs, AnswersFrom u (k bs)) :
    AnswersFrom u (withName n s k) := by
  rcases withName_cases n s k with ⟨-, h⟩ | ⟨bs, -, h⟩ <;> rw [h]
  · exact .stops _
  · exact hk bs

theorem answersFrom_withSin {n : Nat} {k : List Sample → Answer} (hcap : s.params.sinCap < n → u = s)
    (hk : ∀ x, n ≤ s.params.sinCap → readRun s.sin 0 n = some x → AnswersFrom u (k x)) :
    AnswersFrom u (withSin n s k) := by
  rcases withSin_cases n s k with ⟨hlt, h⟩ | ⟨-, -, h⟩ | ⟨x, hle, hrun, h⟩ <;> rw [h]
  · rw [← hcap hlt]
    exact .fails .cap
  · exact .stops _
  · exact hk x hle hrun

/-- Raised warnings stay when the result does not fit (log entry 14). -/
theorem answersFrom_commitBytes (out : List Byte) (hwarn : t.warn = u.warn) :
    AnswersFrom u (commitBytes out u t) := by
  rcases commitBytes_cases out u t with ⟨-, h⟩ | ⟨-, h⟩ <;> rw [h]
  · exact .fails .cap
  · exact .succeeds hwarn

theorem answersFrom_commitSamples (out : List Sample) (hwarn : t.warn = u.warn) :
    AnswersFrom u (commitSamples out u t) := by
  rcases commitSamples_cases out u t with ⟨-, h⟩ | ⟨-, h⟩ <;> rw [h]
  · exact .fails .cap
  · exact .succeeds hwarn

end answers

/-! ## The warnings of the stages (R15) -/

section warnings

variable {s : State}

/-- `PARSE` raises nothing unless its input holds a packet (R107). -/
theorem stageWarnings_parse_eq_zero
    (h : ∀ buf p, s.arg0.toNat ≤ s.params.binCap → readRun s.bin 0 s.arg0.toNat = some buf → parse buf ≠ .ok p) :
    stageWarnings .parse s = 0 := by
  unfold stageWarnings
  dsimp only
  split
  · rfl
  next hcap =>
  split
  · next p hp =>
    obtain ⟨buf, hrun, hbuf⟩ := Option.map_eq_some_iff.mp hp
    exact absurd hbuf (h buf p (Nat.le_of_not_lt hcap) hrun)
  · rfl

theorem stageWarnings_parse_of_ok {buf : List Byte} {p : Parsed} (hcap : s.arg0.toNat ≤ s.params.binCap)
    (hrun : readRun s.bin 0 s.arg0.toNat = some buf) (hp : parse buf = .ok p) :
    stageWarnings .parse s = p.warning := by
  simp only [stageWarnings, if_neg (Nat.not_lt.mpr hcap), hrun, Option.map_some, hp, warning_eq_ite]

theorem stageWarnings_demod_of_cap_lt (hcap : s.params.sinCap < s.arg0.toNat) : stageWarnings .demod s = 0 :=
  if_pos hcap

theorem stageWarnings_demod_of_error {x : List Sample} {e : ErrCode} (hcap : s.arg0.toNat ≤ s.params.sinCap)
    (hrun : readRun s.sin 0 s.arg0.toNat = some x)
    (hd : demodulate s.arithmetic s.params.syncThreshold x = .error e) : stageWarnings .demod s = 0 := by
  simp only [stageWarnings, if_neg (Nat.not_lt.mpr hcap), hrun, Option.map_some, hd]

theorem stageWarnings_demod_of_ok {x : List Sample} {d : Demodulated} (hcap : s.arg0.toNat ≤ s.params.sinCap)
    (hrun : readRun s.sin 0 s.arg0.toNat = some x)
    (hd : demodulate s.arithmetic s.params.syncThreshold x = .ok d) : stageWarnings .demod s = d.warning := by
  simp only [stageWarnings, if_neg (Nat.not_lt.mpr hcap), hrun, Option.map_some, hd, demodulated_warning_eq_ite]

theorem stageWarnings_decode_of_cap_lt (hcap : s.params.sinCap < s.arg0.toNat) : stageWarnings .decode s = 0 :=
  if_pos hcap

/-- The warnings of `DECODE` are those of the stages of R157 that ran, whatever the last one ended with. -/
theorem stageWarnings_decode_of_readRun {x : List Sample} (hcap : s.arg0.toNat ≤ s.params.sinCap)
    (hrun : readRun s.sin 0 s.arg0.toNat = some x) :
    stageWarnings .decode s = (decodeAudio s.arithmetic s.params.syncThreshold x).warnings := by
  simp only [stageWarnings, if_neg (Nat.not_lt.mpr hcap), hrun, Option.map_some]
  cases hd : demodulate s.arithmetic s.params.syncThreshold x with
  | error e => rw [decodeAudio_of_demodulate_error hd]
  | ok d =>
    dsimp only
    rw [← demodulated_warning_eq_ite]
    cases hp : parse (rsDecode d.bytes).out with
    | error e => rw [decodeAudio_of_parse_error hd hp]; exact BitVec.or_zero
    | ok p => rw [decodeAudio_of_parse_ok hd hp, warning_eq_ite]

end warnings

/-! ## Every command -/

section commands

variable (s : State)

theorem answersFrom_execGfmul : AnswersFrom s (execGfmul s) := by
  unfold execGfmul
  split
  · exact .succeeds rfl
  · exact .fails .arg

theorem answersFrom_execGfdiv : AnswersFrom s (execGfdiv s) := by
  unfold execGfdiv
  split
  · split
    · exact .succeeds rfl
    · exact .fails .div0
  · exact .fails .arg

theorem answersFrom_execGfpmul : AnswersFrom s (execGfpmul s) := by
  unfold execGfpmul
  dsimp only
  split
  · exact .fails .arg
  split
  · exact .fails .cap
  · exact answersFrom_withBin (fun _ => rfl) fun _ _ => answersFrom_commitBytes _ rfl

theorem answersFrom_execRsenc1 : AnswersFrom s (execRsenc1 s) :=
  answersFrom_withBin (fun _ => rfl) fun _ _ => answersFrom_commitBytes _ rfl

theorem answersFrom_execRsdec1 : AnswersFrom s (execRsdec1 s) := by
  refine answersFrom_withBin (fun _ => rfl) fun _ _ => ?_
  dsimp only
  split
  · exact answersFrom_commitBytes _ rfl
  · exact .succeeds rfl

theorem answersFrom_execRsenc : AnswersFrom s (execRsenc s) := by
  unfold execRsenc
  dsimp only
  split
  · exact .fails .cap
  · exact answersFrom_withBin (fun _ => rfl) fun _ _ => answersFrom_commitBytes _ rfl

theorem answersFrom_execRsdec : AnswersFrom s (execRsdec s) :=
  answersFrom_withBin (fun _ => rfl) fun _ _ => answersFrom_commitBytes _ rfl

theorem answersFrom_execCrc32 : AnswersFrom s (execCrc32 s) :=
  answersFrom_withBin (fun _ => rfl) fun _ _ => .succeeds rfl

theorem answersFrom_execFrame : AnswersFrom s (execFrame s) := by
  unfold execFrame
  dsimp only
  split
  · exact .fails .name
  split
  · exact .fails .cap
  refine answersFrom_withBin (fun _ => rfl) fun _ _ => answersFrom_withName fun _ => ?_
  split
  · exact .fails _
  · exact answersFrom_commitBytes _ rfl

/-- Before a packet is parsed no warning stands; after it the only error is the capacity of `BOUT`. -/
theorem answersFrom_execParse : AnswersFrom (warn (stageWarnings .parse s) s) (execParse s) := by
  rcases Nat.lt_or_ge s.params.binCap s.arg0.toNat with hcap | hcap
  · rw [execParse_of_cap_lt hcap]
    exact (AnswersFrom.fails .cap).unwarned (stageWarnings_parse_eq_zero fun _ _ hle _ _ => by omega)
  rcases Nat.lt_or_ge s.arg0.toNat 14 with hlen | hlen
  · rw [execParse_of_short hcap hlen]
    refine (AnswersFrom.fails .short).unwarned (stageWarnings_parse_eq_zero fun buf p _ hrun hp => ?_)
    obtain ⟨hbuf, -⟩ := readRun_some _ _ _ _ hrun
    have := length_of_parse_ok hp
    omega
  rw [execParse_of_long hcap hlen]
  refine answersFrom_withBin (fun hlt => absurd hlt (Nat.not_lt.mpr hcap)) fun buf hrun => ?_
  cases hp : parse buf with
  | error e =>
    rw [parsePacket_of_error hp]
    refine (AnswersFrom.fails e).unwarned (stageWarnings_parse_eq_zero fun buf' p _ hrun' hp' => ?_)
    cases hrun.symm.trans hrun'
    cases hp.symm.trans hp'
  | ok p =>
    rw [parsePacket_of_ok hp, stageWarnings_parse_of_ok hcap hrun hp]
    exact answersFrom_commitBytes _ rfl

theorem answersFrom_execTone : AnswersFrom s (execTone s) := by
  unfold execTone
  split
  · exact answersFrom_commitSamples _ rfl
  · exact .fails .arg

theorem answersFrom_execPreamb : AnswersFrom s (execPreamb s) := answersFrom_commitSamples _ rfl

theorem answersFrom_execMod : AnswersFrom s (execMod s) := by
  unfold execMod
  dsimp only
  split
  · exact .fails .cap
  refine answersFrom_withBin (fun _ => rfl) fun _ _ => ?_
  split
  · exact .fails _
  · exact answersFrom_commitSamples _ rfl

theorem answersFrom_execGoertz : AnswersFrom s (execGoertz s) := by
  unfold execGoertz
  split
  · exact .fails .arg
  split
  · exact answersFrom_withSin (fun _ => rfl) fun _ _ _ => .succeeds rfl
  · exact .fails .arg

theorem answersFrom_execSyncfind : AnswersFrom s (execSyncfind s) :=
  answersFrom_withSin (fun _ => rfl) fun _ _ _ => answersFrom_commitBytes _ rfl

theorem answersFrom_execDetect : AnswersFrom s (execDetect s) := by
  unfold execDetect
  split
  · exact answersFrom_withSin (fun _ => rfl) fun _ _ _ => .succeeds rfl
  · exact .fails .arg

theorem answersFrom_execDemod : AnswersFrom (warn (stageWarnings .demod s) s) (execDemod s) := by
  rw [execDemod_eq]
  refine answersFrom_withSin (fun hlt => ?_) fun x hcap hrun => ?_
  · rw [stageWarnings_demod_of_cap_lt hlt, warn_zero]
  cases hd : demodulate s.arithmetic s.params.syncThreshold x with
  | error e =>
    rw [demodAudio_of_error hd]
    exact (AnswersFrom.fails e).unwarned (stageWarnings_demod_of_error hcap hrun hd)
  | ok d =>
    rw [demodAudio_of_ok hd, stageWarnings_demod_of_ok hcap hrun hd]
    exact answersFrom_commitBytes _ rfl

theorem answersFrom_execEncode : AnswersFrom s (execEncode s) := by
  unfold execEncode
  dsimp only
  split
  · exact .fails .name
  split
  · exact .fails .cap
  split
  · exact .fails .len
  split
  · exact .fails .cap
  refine answersFrom_withBin (fun _ => rfl) fun _ _ => answersFrom_withName fun _ => ?_
  split
  · exact .fails _
  · exact answersFrom_commitSamples _ rfl

/-- The warnings stand before an error of any stage (R158). -/
theorem answersFrom_deliverDecoded (d : DecodedAudio) : AnswersFrom (warn d.warnings s) (deliverDecoded s d) := by
  unfold deliverDecoded
  split
  · exact .fails _
  · exact answersFrom_commitBytes _ rfl

theorem answersFrom_execDecode : AnswersFrom (warn (stageWarnings .decode s) s) (execDecode s) := by
  rw [execDecode_eq]
  refine answersFrom_withSin (fun hlt => ?_) fun x hcap hrun => ?_
  · rw [stageWarnings_decode_of_cap_lt hlt, warn_zero]
  · rw [stageWarnings_decode_of_readRun hcap hrun]
    exact answersFrom_deliverDecoded s _

/-- Every command answers from the state it was launched in with the warnings of its stages (R15, R171). -/
theorem answersFrom_exec (i : Instr) : AnswersFrom (warn (stageWarnings i s) s) (exec i s) := by
  cases i with
  | gfmul => exact (answersFrom_execGfmul s).unwarned rfl
  | gfdiv => exact (answersFrom_execGfdiv s).unwarned rfl
  | gfpmul => exact (answersFrom_execGfpmul s).unwarned rfl
  | rsenc1 => exact (answersFrom_execRsenc1 s).unwarned rfl
  | rsdec1 => exact (answersFrom_execRsdec1 s).unwarned rfl
  | rsenc => exact (answersFrom_execRsenc s).unwarned rfl
  | rsdec => exact (answersFrom_execRsdec s).unwarned rfl
  | crc32 => exact (answersFrom_execCrc32 s).unwarned rfl
  | frame => exact (answersFrom_execFrame s).unwarned rfl
  | parse => exact answersFrom_execParse s
  | tone => exact (answersFrom_execTone s).unwarned rfl
  | preamb => exact (answersFrom_execPreamb s).unwarned rfl
  | mod => exact (answersFrom_execMod s).unwarned rfl
  | goertz => exact (answersFrom_execGoertz s).unwarned rfl
  | syncfind => exact (answersFrom_execSyncfind s).unwarned rfl
  | detect => exact (answersFrom_execDetect s).unwarned rfl
  | demod => exact answersFrom_execDemod s
  | encode => exact (answersFrom_execEncode s).unwarned rfl
  | decode => exact answersFrom_execDecode s

end commands

/-- Settles O10: a command answers from the state it was launched in with the warnings of its stages (`answersFrom_exec`),
and the launch of an illegal word is its error completion (R53). -/
theorem errorLeavesTheStateAsLaunched : Obligations.ErrorLeavesTheStateAsLaunched := by
  refine ⟨fun i s t h => (answersFrom_exec s i).warn_eq h, fun i s t h herr => ?_,
    fun s w e hw => launch_of_illegal s hw⟩
  obtain ⟨e, rfl⟩ := (answersFrom_exec s i).exists_raiseErr h herr
  have hcode : (raiseErr e (warn (stageWarnings i s) s)).err = e.code := statusCompleted_err e.code
  exact ⟨rfl, congrArg statusCompleted hcode.symm, statusCompleted_busy e.code, statusCompleted_done e.code⟩

end Sys2Proof.Machine

/-!
PROOFS. Reset (spec/70_reset_and_hazards.md R190): the state at the end of reset meets the invariant, and the reset input
gives every register its reset value, whether it finds the block busy or idle.
-/

namespace Sys2Proof.Machine

/-! ## The state at the end of reset -/

/-- The magnitude without a term is the real 0. -/
@[simp] theorem magOf_nil : magOf { square := [] } = 0 := by simp [magOf]

/-- The registers of R11 at their reset values. -/
structure RegistersReset (s : State) : Prop where
  cmd : s.cmd = 0
  status : s.status = 0
  warn : s.warn = 0
  arg0 : s.arg0 = 0
  arg1 : s.arg1 = 0
  arg2 : s.arg2 = 0
  arg3 : s.arg3 = 0
  res0 : s.res0 = 0
  res1 : s.res1 = 0
  res2 : s.res2 = 0
  res3 : s.res3 = 0
  mag : magOf s.mag = 0

theorem registersReset_reset : RegistersReset State.reset :=
  ⟨rfl, rfl, rfl, rfl, rfl, rfl, rfl, rfl, rfl, rfl, rfl, magOf_nil⟩

/-- After reset no element of a buffer holds a value (R190). -/
theorem readElem_reset (a : Nat) :
    readElem State.reset.bin a = none ∧ readElem State.reset.bout a = none ∧ readElem State.reset.namebuf a = none ∧
      readElem State.reset.sin a = none ∧ readElem State.reset.sout a = none :=
  ⟨readElem_nil a, readElem_nil a, readElem_nil a, readElem_nil a, readElem_nil a⟩

/-- Settles O6. -/
theorem resetLeavesRegistersZero : Obligations.ResetLeavesRegistersZero := by
  obtain ⟨cmd, status, warn, arg0, arg1, arg2, arg3, res0, res1, res2, res3, mag⟩ := registersReset_reset
  have idle : State.reset.busy = false := by simp [State.busy, status]
  exact ⟨cmd, status, warn, arg0, arg1, arg2, arg3, res0, res1, res2, res3, mag, idle, rfl, readElem_reset⟩

/-! ## The invariant -/

/-- Whatever the open capacities are, the types of `Config` hold them in the ranges of R7. -/
theorem params_ok_config : Config.params.ok = true := by
  have hbin : Config.params.binCap < 2 ^ 32 := Nat.add_lt_add_right Config.binCapAbove.isLt 255
  have hbout : Config.params.boutCap < 2 ^ 32 := Nat.add_lt_add_right Config.boutCapAbove.isLt 255
  have hsin : Config.params.sinCap < 2 ^ 32 := Nat.add_lt_add_right Config.sinCapAbove.isLt 6615
  have hsout : Config.params.soutCap < 2 ^ 32 := Nat.add_lt_add_right Config.soutCapAbove.isLt 6615
  rw [Params.ok, Bool.and_eq_true, decide_eq_true_eq, decide_eq_true_eq]
  exact ⟨⟨Nat.le_add_left 255 _, hbin, Nat.le_add_left 255 _, hbout⟩,
    Nat.le_add_left 6615 _, hsin, Nat.le_add_left 6615 _, hsout⟩

/-- Empty buffers are in canonical form whatever their capacities are. -/
theorem dataOk_reset : DataOk State.reset where
  bin := bufferOk_nil _
  bout := bufferOk_nil _
  namebuf := bufferOk_nil _
  sin := bufferOk_nil _
  sout := bufferOk_nil _
  sinForm := List.forall_mem_nil _
  soutForm := List.forall_mem_nil _
  mag := sample_ok_nil
  warn := legalWarn_zero _
  params := params_ok_config

/-- Settles O7. -/
theorem resetStateIsOk : Obligations.ResetStateIsOk :=
  (stateOk_iff _).mpr ⟨dataOk_reset, controlOk_of_zero registersReset_reset.status⟩

/-! ## The reset input -/

section resetInput

variable (s : State)

/-- A reset during a command keeps the buffers (R190). -/
theorem resetBlock_of_busy (h : s.busy = true) :
    resetBlock s =
      { State.reset with
        params := s.params, inbox := s.inbox, hostData := s.hostData, free := s.free
        bin := s.bin, bout := s.bout, namebuf := s.namebuf, sin := s.sin, sout := s.sout } :=
  if_pos h

/-- A reset while idle leaves the buffers as the state of R190 has them (log entry 11). -/
theorem resetBlock_of_idle (h : s.busy = false) :
    resetBlock s =
      { State.reset with params := s.params, inbox := s.inbox, hostData := s.hostData, free := s.free } :=
  if_neg (Bool.eq_false_iff.mp h)

theorem registersReset_resetBlock : RegistersReset (resetBlock s) := by
  cases h : s.busy with
  | true => rw [resetBlock_of_busy s h]; exact { registersReset_reset with }
  | false => rw [resetBlock_of_idle s h]; exact { registersReset_reset with }

theorem resetBlock_params : (resetBlock s).params = s.params := HostMove.reset.params

theorem resetBlock_inbox : (resetBlock s).inbox = s.inbox := by
  cases h : s.busy with
  | true => rw [resetBlock_of_busy s h]
  | false => rw [resetBlock_of_idle s h]

theorem resetBlock_buffers_of_busy (h : s.busy = true) :
    (resetBlock s).bin = s.bin ∧ (resetBlock s).bout = s.bout ∧ (resetBlock s).namebuf = s.namebuf ∧
      (resetBlock s).sin = s.sin ∧ (resetBlock s).sout = s.sout := by
  rw [resetBlock_of_busy s h]
  exact ⟨rfl, rfl, rfl, rfl, rfl⟩

theorem readElem_resetBlock_of_idle (h : s.busy = false) (a : Nat) :
    readElem (resetBlock s).bin a = none ∧ readElem (resetBlock s).bout a = none ∧
      readElem (resetBlock s).namebuf a = none ∧ readElem (resetBlock s).sin a = none ∧
      readElem (resetBlock s).sout a = none := by
  rw [resetBlock_of_idle s h]
  exact readElem_reset a

end resetInput

/-- Settles O60: the step is `resetBlock`, of the state that has lost the head of its inbox. -/
theorem resetInputRestoresRegisters : Obligations.ResetInputRestoresRegisters := by
  intro s rest hin
  have hstep : step s = .next (resetBlock { s with inbox := rest }) := step_of_event hin (by simp)
  obtain ⟨cmd, status, warn, arg0, arg1, arg2, arg3, res0, res1, res2, res3, mag⟩ :=
    registersReset_resetBlock { s with inbox := rest }
  exact ⟨_, hstep, cmd, status, warn, arg0, arg1, arg2, arg3, res0, res1, res2, res3, mag, resetBlock_params _,
    resetBlock_inbox _, resetBlock_buffers_of_busy { s with inbox := rest },
    readElem_resetBlock_of_idle { s with inbox := rest }⟩

end Sys2Proof.Machine
